-- ==== Sys2Proof/Word.lean ====
section
/-! DEFINITION. The machine's word types (00_scope.md R8, R12; 20_memory.md R91). -/

namespace Sys2Proof

/-- A 32-bit register or DMEM word (00_scope.md R8): a u32 or the encoding of a binary32 (R11). -/
abbrev Word := BitVec 32

/-- The encoding of a binary64 datum (00_scope.md R12); only POWER's accumulation uses it. -/
abbrev DWord := BitVec 64

/-- One byte lane of a word (20_memory.md R91). -/
abbrev Byte := BitVec 8

/-- An offset in the host aperture: 25 bits, relative to NRDSP_BASE (20_memory.md R89). -/
abbrev Offset := BitVec 25

end Sys2Proof
end

