-- ==== Sys2Proof/Machine/Float.lean ====
section
/-! DEFINITION. The numeric primitives of 00_scope.md R12-R18: IEEE 754 binary32 and binary64 data,
their exact values, round-to-nearest-even, and the exact operations POWER and VADD use. Both formats
share one definition over bit patterns read as naturals; values are exact rationals. -/

namespace Sys2Proof.Machine

/-! ## A format and its fields -/

/-- A binary interchange format (R12): its exponent and fraction widths. -/
structure FloatFormat where
  expBits : Nat
  fracBits : Nat
  deriving DecidableEq, Repr

/-- binary32: 8 exponent bits (bias 127), 23 fraction bits (R12). -/
def binary32 : FloatFormat := { expBits := 8, fracBits := 23 }

/-- binary64: 11 exponent bits (bias 1023), 52 fraction bits (R12). -/
def binary64 : FloatFormat := { expBits := 11, fracBits := 52 }

/-- The exponent bias (R12): 127 for binary32, 1023 for binary64. -/
def FloatFormat.bias (f : FloatFormat) : Nat := 2 ^ (f.expBits - 1) - 1

/-- The all-ones biased exponent, that of infinities and NaNs (R12). -/
def FloatFormat.expTop (f : FloatFormat) : Nat := 2 ^ f.expBits - 1

/-- The encoding of +infinity: exponent all ones, fraction 0 (R12). Every finite magnitude's encoding
lies below it. -/
def FloatFormat.infBits (f : FloatFormat) : Nat := f.expTop * 2 ^ f.fracBits

/-- The weight of the sign bit (R12). -/
def FloatFormat.signBit (f : FloatFormat) : Nat := 2 ^ (f.expBits + f.fracBits)

/-- The sign: 1 (true) is negative (R12). -/
def FloatFormat.sign (f : FloatFormat) (bits : Nat) : Bool := bits / f.signBit % 2 == 1

/-- The biased exponent field (R12). -/
def FloatFormat.expo (f : FloatFormat) (bits : Nat) : Nat := bits / 2 ^ f.fracBits % 2 ^ f.expBits

/-- The fraction field (R12). -/
def FloatFormat.frac (f : FloatFormat) (bits : Nat) : Nat := bits % 2 ^ f.fracBits

/-- `isNaN` (R13): exponent all ones, fraction not 0. -/
def FloatFormat.isNaN (f : FloatFormat) (bits : Nat) : Bool :=
  f.expo bits == f.expTop && f.frac bits != 0

/-- `isInf` (R13): exponent all ones, fraction 0. -/
def FloatFormat.isInf (f : FloatFormat) (bits : Nat) : Bool :=
  f.expo bits == f.expTop && f.frac bits == 0

/-- `isFinite` (R13): any exponent but all ones. -/
def FloatFormat.isFinite (f : FloatFormat) (bits : Nat) : Bool := f.expo bits != f.expTop

/-- Whether a datum is +0 or -0 (R12): exponent 0 and fraction 0. -/
def FloatFormat.isZero (f : FloatFormat) (bits : Nat) : Bool :=
  f.expo bits == 0 && f.frac bits == 0

/-- The integer significand: the fraction, with the hidden bit for a normal datum (R12). -/
def FloatFormat.signif (f : FloatFormat) (bits : Nat) : Nat :=
  if f.expo bits = 0 then f.frac bits else 2 ^ f.fracBits + f.frac bits

/-- The exponent that scales the significand: the biased exponent, and 1 for a subnormal. The value of
a finite datum is `± signif * 2^scaleExp / 2^(bias + fracBits)` (R12). -/
def FloatFormat.scaleExp (f : FloatFormat) (bits : Nat) : Nat := max (f.expo bits) 1

/-- `val` (R13), the exact value of a finite datum by the formulas of R12; of no meaning for others. -/
def FloatFormat.val (f : FloatFormat) (bits : Nat) : ℚ :=
  let mag := f.signif bits * 2 ^ f.scaleExp bits
  mkRat (if f.sign bits then -(mag : Int) else (mag : Int)) (2 ^ (f.bias + f.fracBits))

/-- The canonical NaN: exponent all ones, fraction's top bit alone (R18 gives binary32's, 0x7FC00000;
binary64's pattern is PRESUMED, log entry 9). -/
def FloatFormat.canonicalNaN (f : FloatFormat) : Nat := f.infBits + 2 ^ (f.fracBits - 1)

/-- An encoding from a sign and the magnitude's encoding. -/
def FloatFormat.withSign (f : FloatFormat) (neg : Bool) (mag : Nat) : Nat :=
  if neg then f.signBit + mag else mag

/-! ## Rounding -/

/-- `num / den` to the nearest integer, ties to even (R14). -/
def roundHalfEven (num den : Nat) : Nat :=
  let q := num / den
  let r := num % den
  if 2 * r < den then q else if den < 2 * r then q + 1 else q + q % 2

/-- `floor(log2(num / den))` for positive `num` and `den`. -/
def floorLog2 (num den : Nat) : Int :=
  let e : Int := (num.log2 : Int) - (den.log2 : Int)
  if den * 2 ^ e.toNat ≤ num * 2 ^ (-e).toNat then e else e - 1

/-- The exponent of the rounding quantum of a magnitude `num / den`: one unit in the last place at that
magnitude, never below the subnormals' unit (R14, gradual underflow), counted from that unit. -/
def FloatFormat.quantum (f : FloatFormat) (num den : Nat) : Nat :=
  (floorLog2 num den + (f.bias : Int) - 1).toNat

/-- The encoding of the rounded magnitude of `num / den` (R14). With the quantum `k` places above the
subnormals' unit, the encoding is `k * 2^fracBits + significand`: a carry out of the significand moves
to the next binade, and every result at or above the threshold is infinity's encoding. -/
def FloatFormat.roundMag (f : FloatFormat) (num den : Nat) : Nat :=
  if num = 0 then 0
  else
    let k := f.quantum num den
    let m := roundHalfEven (num * 2 ^ (f.bias + f.fracBits - 1)) (den * 2 ^ k)
    min (k * 2 ^ f.fracBits + m) f.infBits

/-- Round-to-nearest, ties-to-even, into the format (R14): `RNE`. An exact zero is +0; a negative
magnitude that rounds to zero is -0, the sign of `r` (log entry 16). -/
def FloatFormat.rne (f : FloatFormat) (r : ℚ) : Nat :=
  f.withSign (decide (r < 0)) (f.roundMag r.num.natAbs r.den)

/-! ## The exact operations (R15) -/

/-- Addition (R15). -/
def FloatFormat.add (f : FloatFormat) (a b : Nat) : Nat :=
  if f.isNaN a || f.isNaN b then f.canonicalNaN
  else if f.isInf a then
    if f.isInf b && f.sign a != f.sign b then f.canonicalNaN else a
  else if f.isInf b then b
  else if f.isZero a && f.isZero b && f.sign a && f.sign b then f.signBit
  else f.rne (f.val a + f.val b)

/-- Multiplication "with the same rules" (R15); an exact zero carries the XOR of the signs (PRESUMED,
IEEE 754; log entry 9). -/
def FloatFormat.mul (f : FloatFormat) (a b : Nat) : Nat :=
  let neg := f.sign a != f.sign b
  if f.isNaN a || f.isNaN b then f.canonicalNaN
  else if f.isInf a || f.isInf b then
    if f.isZero a || f.isZero b then f.canonicalNaN else f.withSign neg f.infBits
  else if f.isZero a || f.isZero b then f.withSign neg 0
  else f.rne (f.val a * f.val b)

/-- Division (R15): the stated forms, and IEEE 754's for the forms no rule reaches (PRESUMED, log
entry 9). -/
def FloatFormat.div (f : FloatFormat) (a b : Nat) : Nat :=
  let neg := f.sign a != f.sign b
  if f.isNaN a || f.isNaN b then f.canonicalNaN
  else if f.isInf a then
    if f.isInf b then f.canonicalNaN else f.withSign neg f.infBits
  else if f.isInf b then f.withSign neg 0
  else if f.isZero b then
    if f.isZero a then f.canonicalNaN else f.withSign neg f.infBits
  else if f.isZero a then f.withSign neg 0
  else f.rne (f.val a / f.val b)

/-! ## binary32 and binary64 data -/

/-- The canonical binary32 NaN (R18). -/
def canonicalNaN32 : Word := 0x7FC00000

/-- `isNaN` of a binary32 encoding (R13). -/
def isNaN32 (w : Word) : Bool := binary32.isNaN w.toNat

/-- `isInf` of a binary32 encoding (R13). -/
def isInf32 (w : Word) : Bool := binary32.isInf w.toNat

/-- `isFinite` of a binary32 encoding (R13). -/
def isFinite32 (w : Word) : Bool := binary32.isFinite w.toNat

/-- Whether a binary32 encoding is +0 or -0, the finite data whose `val` is 0 (R13). -/
def isZero32 (w : Word) : Bool := binary32.isZero w.toNat

/-- The sign bit of a binary32 encoding (R12). -/
def sign32 (w : Word) : Bool := binary32.sign w.toNat

/-- `val(f32(w))` (R11, R13). -/
def val32 (w : Word) : ℚ := binary32.val w.toNat

/-- `val` of a binary64 encoding (R13). -/
def val64 (d : DWord) : ℚ := binary64.val d.toNat

/-- `bits(RNE32(r))` (R14). -/
def rne32 (r : ℚ) : Word := BitVec.ofNat 32 (binary32.rne r)

/-- `bits(RNE64(r))` (R14). -/
def rne64 (r : ℚ) : DWord := BitVec.ofNat 64 (binary64.rne r)

/-- `add32` (R15). -/
def add32 (a b : Word) : Word := BitVec.ofNat 32 (binary32.add a.toNat b.toNat)

/-- `add64` (R15). -/
def add64 (a b : DWord) : DWord := BitVec.ofNat 64 (binary64.add a.toNat b.toNat)

/-- `mul64` (R15). -/
def mul64 (a b : DWord) : DWord := BitVec.ofNat 64 (binary64.mul a.toNat b.toNat)

/-- `div64` (R15). -/
def div64 (a b : DWord) : DWord := BitVec.ofNat 64 (binary64.div a.toNat b.toNat)

/-- `to64` (R16): exact; NaN becomes the canonical binary64 NaN, infinities and zeros keep their sign. -/
def to64 (w : Word) : DWord :=
  if isNaN32 w then BitVec.ofNat 64 binary64.canonicalNaN
  else if isInf32 w then BitVec.ofNat 64 (binary64.withSign (sign32 w) binary64.infBits)
  else if isZero32 w then BitVec.ofNat 64 (binary64.withSign (sign32 w) 0)
  else rne64 (val32 w)

/-- `to32` (R16): RNE32 of a finite value, infinities kept, NaN to 0x7FC00000. R16 writes
`RNE32(val(y))`, which is +0 for either zero (R14). -/
def to32 (d : DWord) : Word :=
  if binary64.isNaN d.toNat then canonicalNaN32
  else if binary64.isInf d.toNat then
    BitVec.ofNat 32 (binary32.withSign (binary64.sign d.toNat) binary32.infBits)
  else rne32 (val64 d)

/-- `u2f64` (R16): an integer below 2^53, exactly. -/
def u2f64 (n : Nat) : DWord := rne64 n

/-- A zero with a chosen sign: 0x80000000 when negative, else 0x00000000 (42_convolution.md R211). -/
def signedZero (neg : Bool) : Word := if neg then 0x80000000 else 0x00000000

end Sys2Proof.Machine
end

