-- ==== Sys2Proof/Syntax.lean ====
section
/-! DEFINITION. The commands (30_encoding.md R120-R124): one constructor per row of the opcode table,
carrying the argument registers the command uses (R123), each read whole (R121). -/

namespace Sys2Proof

/-- A command of 30_encoding.md R124 with its operands in the order of ARG0..ARG4 (R123); an argument
register the command ignores is no operand (R129). -/
inductive Instr where
  /-- NOP (40_common.md R160). -/
  | nop
  /-- FDES (41_filter_designer.md R180): dst widx, L len, low hz, high hz, rate hz. -/
  | fdes (dst len low high rate : Word)
  /-- CONV (42_convolution.md R200): dst widx, sig widx, N len, ker widx, M len. -/
  | conv (dst sig n ker m : Word)
  /-- POWER (43_noise.md R230): src widx, N len. -/
  | power (src n : Word)
  /-- NGEN (43_noise.md R240): dst widx, src widx, N len, snr f32. -/
  | ngen (dst src n snr : Word)
  /-- VADD (43_noise.md R250): dst widx, a widx, N len, b widx. -/
  | vadd (dst a n b : Word)
  /-- RSCFG (44_resampler.md R280): C cnt, src_rate hz, dst_rate hz. -/
  | rscfg (ch srcRate dstRate : Word)
  /-- RSFEED (44_resampler.md R285): src widx, len len, flags. -/
  | rsfeed (src len flags : Word)
  /-- RSRUN (44_resampler.md R290): dst widx, max cnt. -/
  | rsrun (dst max : Word)
  deriving DecidableEq, Repr

/-- The six words of a command: CMD and ARG0..ARG4 (30_encoding.md R120: "Every command has this
length"). They are what the Engine latches (40_common.md R150). -/
structure Command where
  cmd : Word
  arg0 : Word
  arg1 : Word
  arg2 : Word
  arg3 : Word
  arg4 : Word
  deriving DecidableEq, Repr

end Sys2Proof
end

