-- ==== Sys2Proof/Decode.lean ====
section
/-! DEFINITION. Decoding a latched command (30_encoding.md R120-R127) and the encoder. A command is six
words, CMD and ARG0..ARG4 (R120); decoding is total (R131) and rejects a word by the reason for which
it is ILLEGAL. -/

namespace Sys2Proof

/-- Why a command word is ILLEGAL. Either way its execution completes with E_ILLEGAL
(60_exceptions.md R321). -/
inductive Illegal where
  /-- Some bit of RSV (31:8) is set (30_encoding.md R127). -/
  | reservedBits
  /-- The opcode is 0x06-0x0F or 0x13-0xFF (30_encoding.md R126). -/
  | unassignedOpcode
  deriving DecidableEq, Repr

/-- OPC, bits 7:0 of the command word (30_encoding.md R120). -/
def opcField (cmd : Word) : BitVec 8 := cmd.extractLsb' 0 8

/-- RSV, bits 31:8 of the command word (30_encoding.md R120). -/
def rsvField (cmd : Word) : BitVec 24 := cmd.extractLsb' 8 24

/-- The opcode map and the operand table (30_encoding.md R123, R124): the command an opcode selects,
with the argument registers it uses. -/
def decodeOpcode (c : Command) : Except Illegal Instr :=
  match (opcField c.cmd).toNat with
  | 0x00 => .ok .nop
  | 0x01 => .ok (.fdes c.arg0 c.arg1 c.arg2 c.arg3 c.arg4)
  | 0x02 => .ok (.conv c.arg0 c.arg1 c.arg2 c.arg3 c.arg4)
  | 0x03 => .ok (.power c.arg1 c.arg2)
  | 0x04 => .ok (.ngen c.arg0 c.arg1 c.arg2 c.arg3)
  | 0x05 => .ok (.vadd c.arg0 c.arg1 c.arg2 c.arg3)
  | 0x10 => .ok (.rscfg c.arg0 c.arg1 c.arg2)
  | 0x11 => .ok (.rsfeed c.arg1 c.arg2 c.arg3)
  | 0x12 => .ok (.rsrun c.arg0 c.arg2)
  | _ => .error .unassignedOpcode

/-- `decode(w)` (30_encoding.md R125): the reserved bits first, then the opcode. -/
def decode (c : Command) : Except Illegal Instr :=
  if rsvField c.cmd = 0 then decodeOpcode c else .error .reservedBits

/-! ## The encoder -/

/-- The CMD word of a command (30_encoding.md R124). -/
def Instr.cmdWord : Instr → Word
  | .nop => 0x00000000
  | .fdes _ _ _ _ _ => 0x00000001
  | .conv _ _ _ _ _ => 0x00000002
  | .power _ _ => 0x00000003
  | .ngen _ _ _ _ => 0x00000004
  | .vadd _ _ _ _ => 0x00000005
  | .rscfg _ _ _ => 0x00000010
  | .rsfeed _ _ _ => 0x00000011
  | .rsrun _ _ => 0x00000012

/-- The six words of a command (30_encoding.md R123, R124); an ignored argument register may hold any
value (R129), and the encoder puts 0 there. -/
def encode (i : Instr) : Command :=
  match i with
  | .nop => ⟨i.cmdWord, 0, 0, 0, 0, 0⟩
  | .fdes dst len low high rate => ⟨i.cmdWord, dst, len, low, high, rate⟩
  | .conv dst sig n ker m => ⟨i.cmdWord, dst, sig, n, ker, m⟩
  | .power src n => ⟨i.cmdWord, 0, src, n, 0, 0⟩
  | .ngen dst src n snr => ⟨i.cmdWord, dst, src, n, snr, 0⟩
  | .vadd dst a n b => ⟨i.cmdWord, dst, a, n, b, 0⟩
  | .rscfg ch srcRate dstRate => ⟨i.cmdWord, ch, srcRate, dstRate, 0, 0⟩
  | .rsfeed src len flags => ⟨i.cmdWord, 0, src, len, flags, 0⟩
  | .rsrun dst max => ⟨i.cmdWord, dst, 0, max, 0, 0⟩

/-! ## Numbered bits -/

/-- Word `k` of a command given as one number: bits `32k+31 : 32k`. -/
def wordOfBits (bits k : Nat) : Word := BitVec.ofNat 32 (bits / 2 ^ (32 * k))

/-- The six words of a command given as one number, CMD in the lowest bits, ARG0 next (R120). -/
def Command.ofBits (bits : Nat) : Command :=
  { cmd := wordOfBits bits 0, arg0 := wordOfBits bits 1, arg1 := wordOfBits bits 2,
    arg2 := wordOfBits bits 3, arg3 := wordOfBits bits 4, arg4 := wordOfBits bits 5 }

/-- The instruction the decoder reads from `nbits` bits of value `w`, every higher bit 0. -/
def decodeTableWord (nbits w : Nat) : Option Instr :=
  match decode (Command.ofBits (w % 2 ^ nbits)) with
  | .ok i => some i
  | .error _ => none

end Sys2Proof
end

