-- ==== Sys2Proof/Config.lean ====
section
/-! DEFINITION. What an instance of the block fixes (00_scope.md R7) and the values the spec leaves
free (R20-R22). A free value is an opaque constant: nothing in Lean can evaluate it, so whatever is
proved holds for every choice of it. -/

namespace Sys2Proof.Config

/-- The implementation parameters of 00_scope.md R7 that CAP shows (10_state.md R43). They are OPEN:
an instance carries its own values in `State.params` (log entry 1). -/
structure Params where
  /-- log2 of the DMEM size in words, 10..21. -/
  memWordsLog2 : Nat
  /-- log2 of the largest transform length CONV accepts, 1..24. -/
  fftMaxLog2 : Nat
  /-- The largest resampler channel count, 1..255. -/
  chMax : Nat
  /-- `T` (RS_TAPS): taps in each channel's history, even, 2..64. -/
  taps : Nat
  deriving DecidableEq, Repr

/-- `MEM_WORDS = 2^MEM_WORDS_LOG2` (R7). -/
def Params.memWords (p : Params) : Nat := 2 ^ p.memWordsLog2

/-- `FFT_MAX = 2^FFT_MAX_LOG2` (R7). -/
def Params.fftMax (p : Params) : Nat := 2 ^ p.fftMaxLog2

/-- The legal values column of R7. -/
def Params.legal (p : Params) : Bool :=
  decide (10 ≤ p.memWordsLog2) && decide (p.memWordsLog2 ≤ 21) &&
  decide (1 ≤ p.fftMaxLog2) && decide (p.fftMaxLog2 ≤ 24) &&
  decide (1 ≤ p.chMax) && decide (p.chMax ≤ 255) &&
  decide (2 ≤ p.taps) && decide (p.taps ≤ 64) && decide (p.taps % 2 = 0)

/-- The default column of R7. DESIGN CHOICE, unsafe (log entry 1): the spec calls the values OPEN. -/
def Params.default : Params :=
  { memWordsLog2 := 21, fftMaxLog2 := 20, chMax := 8, taps := 16 }

/-- The default of the tolerances `FD_TOL`, `CONV_TOL`, `NG_TOL`, `RS_TOL` (R7): `2^-20`. The accuracy
properties of Machine/Ideal.lean take the tolerance as an argument. -/
def defaultTol : ℚ := 1 / 2 ^ 20

/-- `NRDSP_BASE` (20_memory.md R89): where the platform places the aperture. Offsets are relative to
it, so no rule of the block reads it (log entry 17). -/
opaque nrdspBase : Nat

/-- `NRDSP_IRQ_LINE` (60_exceptions.md R332): the platform's input line for irq (log entry 17). -/
opaque nrdspIrqLine : Nat

/-! Realisation functions (00_scope.md R20): total, depending only on the operands passed (log entry 5). -/

/-- `cfg.fd_tap(L, i, low, high, rate)` (41_filter_designer.md R187): an off-centre tap's encoding. -/
opaque fdTap (len i low high rate : Nat) : Word

/-- `cfg.conv(s, h)[k]` (42_convolution.md R210): the encoding of output word `k`. -/
opaque conv (sig ker : List Word) (k : Nat) : Word

/-- `cfg.ng_sigma(p, snr)` (43_noise.md R242): the standard deviation, a number ≥ 0. A rational stands
for the real (log entry 6). -/
opaque ngSigma (power snr : Word) : NNRat

/-- `cfg.rs_interp(T, H, pos_num, dst_rate)` (44_resampler.md R276): an interpolated word's encoding. -/
opaque rsInterp (taps : Nat) (hist : List Word) (posNum dstRate : Nat) : Word

/-! Draws: the argument is the model's draw counter (`State.draws`), so that each draw is its own
unconstrained value (log entry 4). -/

/-- "Any 32-bit value" (00_scope.md R21; 20_memory.md R98). -/
opaque anyWord (draw : Nat) : Word

/-- The sign of an exactly zero approximated result (42_convolution.md R211, 44_resampler.md R276). -/
opaque anySign (draw : Nat) : Bool

/-- `GaussSrc` (00_scope.md R22): a finite number per draw, under no law (log entry 6). -/
opaque gauss (draw : Nat) : ℚ

end Sys2Proof.Config
end

