-- ==== Sys2Proof/Machine/State.lean ====
section
/-! DEFINITION. The machine's state as plain data (10_state.md R40-R70), its reset value, and the
reasons a step can stop. -/

namespace Sys2Proof.Machine

/-- Memory: the aperture byte offsets that hold a byte, with the byte (20_memory.md R90, R91). An
offset that is not listed holds no value (10_state.md R62). -/
abbrev Memory := List Host.Cell

/-- A channel's interpolation history, oldest first (10_state.md R60). -/
abbrev History := List Word

/-- The resampler state `rs` (10_state.md R60). The integers are unbounded here; R61 bounds them. -/
structure Resampler where
  /-- 1 after a successful RSCFG. -/
  cfg : Bool
  /-- `C`, the channel count. -/
  ch : Nat
  srcRate : Nat
  dstRate : Nat
  /-- The phase accumulator. -/
  posNum : Nat
  /-- The increment of the next output was applied but that output was not produced. -/
  pend : Bool
  /-- The fed region is the end of the stream. -/
  last : Bool
  /-- The resampler is exhausted. -/
  exh : Bool
  /-- Word index of the next source sample to pull. -/
  srcPtr : Nat
  /-- Words of the fed region not yet pulled. -/
  srcRem : Nat
  /-- `hist[c][k]`: one row per channel. -/
  hist : List History
  deriving DecidableEq, Repr

/-- All histories at +0.0: CH_MAX rows of T words (10_state.md R70). -/
def Resampler.zeroHist (p : Config.Params) : List History :=
  List.replicate p.chMax (List.replicate p.taps 0)

/-- The reset value of `rs` (10_state.md R70). -/
def Resampler.reset (p : Config.Params) : Resampler :=
  { cfg := false, ch := 0, srcRate := 0, dstRate := 0, posNum := 0, pend := false, last := false,
    exh := false, srcPtr := 0, srcRem := 0, hist := Resampler.zeroHist p }

/-- A host access (20_memory.md R88): kind, offset, width in bytes, write data. -/
inductive Access where
  | read (offset : Offset) (width : Nat)
  | write (offset : Offset) (width : Nat) (wdata : Word)
  deriving DecidableEq, Repr

/-- The response of an access (20_memory.md R88). -/
inductive BusResp where
  | okay
  | slverr
  | decerr
  deriving DecidableEq, Repr

/-- What an access returns (20_memory.md R88). `rdata` is `none` for a write answered OKAY, for which
the spec states no read data (log entry 8). -/
structure PortResponse where
  resp : BusResp
  rdata : Option Word
  deriving DecidableEq, Repr

/-- The next external event (00_scope.md R23; 60_exceptions.md R336): which agent steps next. -/
inductive Input where
  /-- The Engine gets its turn; it steps only if BUSY = 1. -/
  | engine
  /-- The Host performs one access. -/
  | host (access : Access)
  /-- The reset input is asserted (70_reset_and_hazards.md R360). -/
  | hardwareReset
  deriving DecidableEq, Repr

/-- The machine's state. The fields from `params` on are the model's own (INVENTORY.md, State). -/
structure State where
  /-- CTRL.IRQ_EN (10_state.md R44). -/
  irqEn : Bool
  /-- STATUS.BUSY (R48, R49). -/
  busy : Bool
  /-- STATUS.DONE (R48, R50). -/
  done : Bool
  /-- STATUS.ERR (R48, R50). -/
  err : Bool
  /-- STATUS.ERRCODE (R48, R51). -/
  errcode : BitVec 4
  /-- CMD (R53). -/
  cmd : Word
  /-- ARG0 (R54). -/
  arg0 : Word
  /-- ARG1 (R54). -/
  arg1 : Word
  /-- ARG2 (R54). -/
  arg2 : Word
  /-- ARG3 (R54). -/
  arg3 : Word
  /-- ARG4 (R54). -/
  arg4 : Word
  /-- RESULT0 (R55). -/
  result0 : Word
  /-- RESULT1 (R55). -/
  result1 : Word
  /-- The resampler state (R60). -/
  rs : Resampler
  /-- DMEM (R62). -/
  mem : Memory
  /-- The instance's parameters (00_scope.md R7); no step changes them (log entry 1). -/
  params : Config.Params
  /-- External events still to come, the next one first (log entry 2). -/
  inputs : List Input
  /-- The response of the last host access (log entry 8). -/
  port : Option PortResponse
  /-- How many free values have been drawn (log entry 4). -/
  draws : Nat
  deriving DecidableEq, Repr

/-- The model faults of 60_exceptions.md R325: final, never cleared. -/
inductive Fault where
  /-- MF_UNINIT(w): a command, after its checks passed, reads DMEM word `w` while it holds no value.
  Raised by the Engine step. Safe: the model stops where the spec declines to describe the run. -/
  | uninit (w : Nat)
  /-- MF_HOST_WRITE_BUSY(w): the host writes DMEM word `w` while BUSY = 1. Raised by a Host step.
  Safe: the model stops where the spec declines to describe the run. -/
  | hostWriteBusy (w : Nat)
  deriving DecidableEq, Repr

/-- Refusals. The block has no refused command words (00_scope.md R24), so no step of this model
answers with one. -/
inductive Refusal where
  /-- An instruction without a meaning yet, by its mnemonic. Raised by an arm of `exec` only; none is
  left. Safe. -/
  | notModelled (mnemonic : String)
  deriving DecidableEq, Repr

/-- The three outcomes of a step of this machine (00_scope.md R24). -/
abbrev Outcome := Host.Outcome State Fault Refusal

/-- The state after a hardware reset of an instance with parameters `p` (10_state.md R70). -/
def State.resetOf (p : Config.Params) : State :=
  { irqEn := false, busy := false, done := false, err := false, errcode := 0, cmd := 0,
    arg0 := 0, arg1 := 0, arg2 := 0, arg3 := 0, arg4 := 0, result0 := 0, result1 := 0,
    rs := Resampler.reset p, mem := [], params := p, inputs := [], port := none, draws := 0 }

/-- The machine right after reset (10_state.md R70), an instance with the spec's default parameters. -/
def State.reset : State := State.resetOf Config.Params.default

end Sys2Proof.Machine
end

