-- ==== Sys2Proof/Machine/Operands.lean ====
section
/-! DEFINITION. Operands: the latched command words, the range and overlap tests over them, and the
fields of RSFEED's flags (30_encoding.md R121-R123; 20_memory.md R100-R102). A `widx`, `len`, `hz` or
`cnt` operand is read as an unbounded integer with `toNat`; an `f32` operand stays its encoding. -/

namespace Sys2Proof.Machine

/-- The six words the Engine runs: CMD and ARG0..ARG4 as they stand (40_common.md R150, R152). -/
def State.command (s : State) : Command :=
  { cmd := s.cmd, arg0 := s.arg0, arg1 := s.arg1, arg2 := s.arg2, arg3 := s.arg3, arg4 := s.arg4 }

/-- `InRange(b, n)` (20_memory.md R100): over unbounded integers. -/
def inRange (p : Config.Params) (base n : Nat) : Bool :=
  decide (n = 0) || decide (base + n ≤ p.memWords)

/-- `Overlap(b1, n1, b2, n2)` (20_memory.md R102). -/
def overlap (b1 n1 b2 n2 : Nat) : Bool :=
  decide (0 < n1) && decide (0 < n2) && decide (b1 < b2 + n2) && decide (b2 < b1 + n1)

/-- RSFEED flags bit 0, LAST (30_encoding.md R122). -/
def flagLast (flags : Word) : Bool := flags.getLsbD 0

/-- RSFEED flags bits 31:1, which must be 0 (30_encoding.md R122). -/
def flagsReserved (flags : Word) : BitVec 31 := flags.extractLsb' 1 31

/-- `out_len` of CONV (42_convolution.md R201). -/
def convOutLen (n m : Nat) : Nat := if n = 0 ∧ m = 0 then 0 else n + m - 1

/-- `next_pow2(n)` for n ≥ 1: the smallest power of two that is at least `n` (42_convolution.md R202). -/
def nextPow2 (n : Nat) : Nat := if n ≤ 1 then 1 else 2 ^ ((n - 1).log2 + 1)

/-- `fft_len` of CONV (42_convolution.md R202). -/
def convFftLen (outLen : Nat) : Nat := if outLen = 0 then 0 else nextPow2 outLen

end Sys2Proof.Machine
end

