-- ==== Sys2Proof/Machine/Memory.lean ====
section
/-! DEFINITION. Memory operations: one byte, one DMEM word (four bytes, little-endian, 20_memory.md
R91), and a range of words (R100, R101). -/

namespace Sys2Proof.Machine

/-! ## Bytes -/

/-- The byte an aperture offset holds; `none` when it holds no value (10_state.md R62). -/
def Memory.readByte : Memory → Nat → Option Byte
  | [], _ => none
  | (a, b) :: m, k => if a = k then some b else Memory.readByte m k

/-- Write one byte, keeping the addresses strictly rising. -/
def Memory.writeByte : Memory → Nat → Byte → Memory
  | [], k, v => [(k, v)]
  | (a, b) :: m, k, v =>
    if k < a then (k, v) :: (a, b) :: m
    else if k = a then (k, v) :: m
    else (a, b) :: Memory.writeByte m k v

/-- Make one byte hold no value. -/
def Memory.eraseByte : Memory → Nat → Memory
  | [], _ => []
  | (a, b) :: m, k => if a = k then Memory.eraseByte m k else (a, b) :: Memory.eraseByte m k

/-! ## The canonical form -/

/-- Every address of a memory lies above `lo`, and they rise strictly. -/
def Memory.risesFrom (lo : Nat) : Memory → Bool
  | [] => true
  | (a, _) :: m => decide (lo ≤ a) && Memory.risesFrom (a + 1) m

/-- The canonical form: addresses strictly rising. An unlisted address holds no value, so no entry can
equal what one reads as. -/
def Memory.wf (m : Memory) : Bool := Memory.risesFrom 0 m

/-! ## Words -/

/-- The first offset of the DMEM window (20_memory.md R90). -/
def dmemBase : Nat := 0x1000000

/-- The aperture offset of DMEM word `w`: 0x1000000 + 4·w (20_memory.md R90). -/
def wordAddr (w : Nat) : Nat := dmemBase + 4 * w

/-- The byte in lane `j` of a word: bits `8j+7 : 8j` (20_memory.md R91). -/
def byteLane (v : Word) (j : Nat) : Byte := v.extractLsb' (8 * j) 8

/-- The word whose lanes 0..3 are the given bytes (20_memory.md R91). -/
def wordOfLanes (b0 b1 b2 b3 : Byte) : Word := b3 ++ b2 ++ b1 ++ b0

/-- DMEM word `w`, if it holds a value (10_state.md R62). A word is written and emptied whole
(20_memory.md R95), so its four bytes are all present or all absent. -/
def Memory.readWord (m : Memory) (w : Nat) : Option Word :=
  match m.readByte (wordAddr w), m.readByte (wordAddr w + 1), m.readByte (wordAddr w + 2),
    m.readByte (wordAddr w + 3) with
  | some b0, some b1, some b2, some b3 => some (wordOfLanes b0 b1 b2 b3)
  | _, _, _, _ => none

/-- `MemWrite(w, 1, v)` (00_scope.md R10). -/
def Memory.writeWord (m : Memory) (w : Nat) (v : Word) : Memory :=
  (((m.writeByte (wordAddr w) (byteLane v 0)).writeByte (wordAddr w + 1) (byteLane v 1)).writeByte
    (wordAddr w + 2) (byteLane v 2)).writeByte (wordAddr w + 3) (byteLane v 3)

/-- Make DMEM word `w` hold no value (70_reset_and_hazards.md R363). -/
def Memory.clearWord (m : Memory) (w : Nat) : Memory :=
  (((m.eraseByte (wordAddr w)).eraseByte (wordAddr w + 1)).eraseByte (wordAddr w + 2)).eraseByte
    (wordAddr w + 3)

/-! ## Ranges of words -/

/-- The `n` words from word `base` (20_memory.md R101), read in index order; the error is the first
word that holds no value (60_exceptions.md R325). -/
def Memory.readWords (m : Memory) (base : Nat) : Nat → Except Nat (List Word)
  | 0 => .ok []
  | n + 1 =>
    match m.readWord base with
    | none => .error base
    | some v =>
      match Memory.readWords m (base + 1) n with
      | .ok vs => .ok (v :: vs)
      | .error w => .error w

/-- The pairs `(a_i, b_i)` of two buffers, read as VADD reads them: `a_i`, then `b_i`, in index order
(43_noise.md R250). -/
def Memory.readPairs (m : Memory) (a b : Nat) : Nat → Except Nat (List (Word × Word))
  | 0 => .ok []
  | n + 1 =>
    match m.readWord a with
    | none => .error a
    | some x =>
      match m.readWord b with
      | none => .error b
      | some y =>
        match Memory.readPairs m (a + 1) (b + 1) n with
        | .ok ps => .ok ((x, y) :: ps)
        | .error w => .error w

/-- Write consecutive words from word `base` (20_memory.md R101). -/
def Memory.writeWords (m : Memory) (base : Nat) : List Word → Memory
  | [] => m
  | v :: vs => Memory.writeWords (m.writeWord base v) (base + 1) vs

/-- Make `n` words from word `base` hold no value (70_reset_and_hazards.md R363). -/
def Memory.clearWords (m : Memory) (base : Nat) : Nat → Memory
  | 0 => m
  | n + 1 => Memory.clearWords (m.clearWord base) (base + 1) n

end Sys2Proof.Machine
end

