-- ==== Sys2Proof/Machine/Ops.lean ====
section
/-! DEFINITION. The shared operations of the command lifecycle: the start, the two completions, and the
stores and reads a command makes (40_common.md R150-R158; 60_exceptions.md R320). -/

namespace Sys2Proof.Machine

/-- The error codes of 60_exceptions.md R320. -/
inductive ErrCode where
  | illegal
  | param
  | range
  | length
  | malformed
  | rsState
  | overlap
  deriving DecidableEq, Repr

/-- The value ERRCODE takes (60_exceptions.md R320). -/
def ErrCode.code : ErrCode → BitVec 4
  | .illegal => 1
  | .param => 2
  | .range => 3
  | .length => 4
  | .malformed => 5
  | .rsState => 6
  | .overlap => 7

/-- An accepted start (40_common.md R150); ignored while BUSY = 1. -/
def State.start (s : State) : State :=
  if s.busy then s
  else { s with busy := true, done := false, err := false, errcode := 0 }

/-- Completion with success: `outcome = ok(r0, r1)` of 40_common.md R152. -/
def State.complete (s : State) (r0 r1 : Word) : State :=
  { s with result0 := r0, result1 := r1, busy := false, done := true }

/-- `complete_error(e)` (40_common.md R153): all that a failing command does. This is the block's whole
exception entry (60_exceptions.md R340); the way back is the acknowledge, `State.writeStatus`. -/
def State.completeError (s : State) (e : ErrCode) : State :=
  { s with result0 := 0, result1 := 0, errcode := e.code, err := true, busy := false, done := true }

/-- `MemWrite` of consecutive words (00_scope.md R10, 20_memory.md R101). -/
def State.store (s : State) (base : Nat) (vs : List Word) : State :=
  { s with mem := s.mem.writeWords base vs }

/-- The command has taken `n` free values (log entry 4). -/
def State.draw (s : State) (n : Nat) : State := { s with draws := s.draws + n }

/-- Replace the resampler state. -/
def State.setRs (s : State) (rs : Resampler) : State := { s with rs := rs }

/-- A command's checks, in the order they are made, each with the code it raises when it fires. -/
abbrev Checks := List (Bool × ErrCode)

/-- The first check that fails (40_common.md R155). -/
def firstError : Checks → Option ErrCode
  | [] => none
  | (fires, e) :: rest => if fires then some e else firstError rest

/-- An integer result in a 32-bit register (00_scope.md R9). -/
def natWord (n : Nat) : Word := BitVec.ofNat 32 n

end Sys2Proof.Machine
end

