-- ==== Sys2Proof/Machine/Checks.lean ====
section
/-! DEFINITION. The checks of every command in their fixed order, and the write set of a command
(40_common.md R154, R155; 60_exceptions.md R322; 70_reset_and_hazards.md R363). A check reads the
operands, the parameters and `rs`, never DMEM. Both a command's meaning and the abort of a soft reset
use them. -/

namespace Sys2Proof.Machine

/-- FDES (41_filter_designer.md R180): L even, rate = 0, then the destination range. -/
def checkFdes (dst len rate : Word) (s : State) : Option ErrCode :=
  firstError
    [(len.toNat % 2 == 0, .param),
     (rate.toNat == 0, .param),
     (!inRange s.params dst.toNat len.toNat, .range)]

/-- CONV (42_convolution.md R200): signal, kernel and destination range, then the transform length. -/
def checkConv (dst sig n ker m : Word) (s : State) : Option ErrCode :=
  let outLen := convOutLen n.toNat m.toNat
  firstError
    [(!inRange s.params sig.toNat n.toNat, .range),
     (!inRange s.params ker.toNat m.toNat, .range),
     (!inRange s.params dst.toNat outLen, .range),
     (decide (s.params.fftMax < convFftLen outLen), .length)]

/-- POWER (43_noise.md R230): the source range. -/
def checkPower (src n : Word) (s : State) : Option ErrCode :=
  firstError [(!inRange s.params src.toNat n.toNat, .range)]

/-- NGEN (43_noise.md R240): snr not finite, then the source and the destination range. -/
def checkNgen (dst src n snr : Word) (s : State) : Option ErrCode :=
  firstError
    [(!isFinite32 snr, .param),
     (!inRange s.params src.toNat n.toNat, .range),
     (!inRange s.params dst.toNat n.toNat, .range)]

/-- A partial overlap of VADD's destination with one input (43_noise.md R251). -/
def partialOverlap (dst src n : Nat) : Bool := overlap dst n src n && dst != src

/-- VADD (43_noise.md R250, R251): the ranges of a, b and the destination, then the overlap. -/
def checkVadd (dst a n b : Word) (s : State) : Option ErrCode :=
  firstError
    [(!inRange s.params a.toNat n.toNat, .range),
     (!inRange s.params b.toNat n.toNat, .range),
     (!inRange s.params dst.toNat n.toNat, .range),
     (partialOverlap dst.toNat a.toNat n.toNat || partialOverlap dst.toNat b.toNat n.toNat, .overlap)]

/-- The largest sample rate RSCFG accepts, 2^31 - 1 (44_resampler.md R280). -/
def maxRate : Nat := 2 ^ 31 - 1

/-- RSCFG (44_resampler.md R280): the channel count, then the source and the target rate. -/
def checkRscfg (ch srcRate dstRate : Word) (s : State) : Option ErrCode :=
  firstError
    [(ch.toNat == 0 || decide (s.params.chMax < ch.toNat), .param),
     (srcRate.toNat == 0 || decide (maxRate < srcRate.toNat), .param),
     (dstRate.toNat == 0 || decide (maxRate < dstRate.toNat), .param)]

/-- RSFEED (44_resampler.md R285): not configured, stream ended, previous feed not consumed, flag bits
31:1, whole frames, then the source range. -/
def checkRsfeed (src len flags : Word) (s : State) : Option ErrCode :=
  firstError
    [(!s.rs.cfg, .rsState),
     (s.rs.last, .rsState),
     (s.rs.srcRem != 0, .rsState),
     (flagsReserved flags != 0, .param),
     (len.toNat % s.rs.ch != 0, .malformed),
     (!inRange s.params src.toNat len.toNat, .range)]

/-- RSRUN (44_resampler.md R290, R292): not configured, the destination range, then the overlap with
the fed region not yet pulled. -/
def checkRsrun (dst max : Word) (s : State) : Option ErrCode :=
  firstError
    [(!s.rs.cfg, .rsState),
     (!inRange s.params dst.toNat (max.toNat * s.rs.ch), .range),
     (overlap dst.toNat (max.toNat * s.rs.ch) s.rs.srcPtr s.rs.srcRem, .overlap)]

/-- The first check a command fails, if any (60_exceptions.md R322). -/
def checkOf (i : Instr) (s : State) : Option ErrCode :=
  match i with
  | .nop => none
  | .fdes dst len _ _ rate => checkFdes dst len rate s
  | .conv dst sig n ker m => checkConv dst sig n ker m s
  | .power src n => checkPower src n s
  | .ngen dst src n snr => checkNgen dst src n snr s
  | .vadd dst a n b => checkVadd dst a n b s
  | .rscfg ch srcRate dstRate => checkRscfg ch srcRate dstRate s
  | .rsfeed src len flags => checkRsfeed src len flags s
  | .rsrun dst max => checkRsrun dst max s

/-- The write set W of a command that passes its checks, as first word and number of words
(70_reset_and_hazards.md R363). -/
def writeRange (i : Instr) (s : State) : Nat × Nat :=
  match i with
  | .nop => (0, 0)
  | .fdes dst len _ _ _ => (dst.toNat, len.toNat)
  | .conv dst _ n _ m => (dst.toNat, convOutLen n.toNat m.toNat)
  | .power _ _ => (0, 0)
  | .ngen dst _ n _ => (dst.toNat, n.toNat)
  | .vadd dst _ n _ => (dst.toNat, n.toNat)
  | .rscfg _ _ _ => (0, 0)
  | .rsfeed _ _ _ => (0, 0)
  | .rsrun dst max => (dst.toNat, max.toNat * s.rs.ch)

end Sys2Proof.Machine
end

