-- ==== Sys2Proof/Machine/Flags.lean ====
section
/-! DEFINITION. The control and status bits: the words a read of CTRL and STATUS returns, what a write
of each does to its bits, and the interrupt output (10_state.md R44-R52; 60_exceptions.md R330). No
command has condition codes (10_state.md R59). -/

namespace Sys2Proof.Machine

/-- A read of CTRL: `zext_32(IRQ_EN) << 2` (10_state.md R44). -/
def State.ctrlWord (s : State) : Word := 0#29 ++ BitVec.ofBool s.irqEn ++ 0#2

/-- A read of STATUS (10_state.md R48, R52): bits 11:8 are views of `rs`. -/
def State.statusWord (s : State) : Word :=
  0#20 ++ BitVec.ofBool s.rs.exh ++ BitVec.ofBool s.rs.last ++ BitVec.ofBool s.rs.pend ++
    BitVec.ofBool s.rs.cfg ++ s.errcode ++ 0#1 ++ BitVec.ofBool s.err ++ BitVec.ofBool s.done ++
    BitVec.ofBool s.busy

/-- The interrupt output (60_exceptions.md R330): `irq = CTRL.IRQ_EN AND STATUS.DONE`. -/
def State.irq (s : State) : Bool := s.irqEn && s.done

/-- Writing 1 to STATUS bit 1 clears DONE (10_state.md R50). -/
def State.ackDone (v : Word) (s : State) : State :=
  if v.getLsbD 1 then { s with done := false } else s

/-- Writing 1 to STATUS bit 2 clears ERR and ERRCODE (10_state.md R50). -/
def State.ackErr (v : Word) (s : State) : State :=
  if v.getLsbD 2 then { s with err := false, errcode := 0 } else s

/-- A host write of STATUS (10_state.md R50): the acknowledge, which is all the return there is from a
completion (60_exceptions.md R341). -/
def State.writeStatus (v : Word) (s : State) : State := (s.ackDone v).ackErr v

end Sys2Proof.Machine
end

