-- ==== Sys2Proof/Machine/Registers.lean ====
section
/-! DEFINITION. The register page: its map, what a read of each register returns and what a write of
each does (10_state.md R41-R58), the soft reset and the abort (70_reset_and_hazards.md R362, R363), and
the hardware reset (R360). -/

namespace Sys2Proof.Machine

/-- The registers of 10_state.md R41. -/
inductive Reg where
  | id
  | cap
  | ctrl
  | status
  | cmd
  | arg0
  | arg1
  | arg2
  | arg3
  | arg4
  | result0
  | result1
  | rsCh
  | rsSrcRate
  | rsDstRate
  | rsPos
  | rsSrcPtr
  | rsSrcRem
  deriving DecidableEq, Repr

/-- The register at word `k` of the page (offset `4k`); `none` for the reserved offsets 0x048-0x0FC
(10_state.md R41, R57). -/
def regAt (k : Nat) : Option Reg :=
  match k with
  | 0 => some .id
  | 1 => some .cap
  | 2 => some .ctrl
  | 3 => some .status
  | 4 => some .cmd
  | 5 => some .arg0
  | 6 => some .arg1
  | 7 => some .arg2
  | 8 => some .arg3
  | 9 => some .arg4
  | 10 => some .result0
  | 11 => some .result1
  | 12 => some .rsCh
  | 13 => some .rsSrcRate
  | 14 => some .rsDstRate
  | 15 => some .rsPos
  | 16 => some .rsSrcPtr
  | 17 => some .rsSrcRem
  | _ => none

/-- ID: ASCII "NRD1" (10_state.md R42). -/
def idWord : Word := 0x4E524431

/-- CAP: `{T, CH_MAX, MEM_WORDS_LOG2, FFT_MAX_LOG2}` (10_state.md R43). -/
def capWord (p : Config.Params) : Word :=
  BitVec.ofNat 8 p.taps ++ BitVec.ofNat 8 p.chMax ++ BitVec.ofNat 8 p.memWordsLog2 ++
    BitVec.ofNat 8 p.fftMaxLog2

/-- What a read of a register returns (10_state.md R42-R56). No read has a side effect
(20_memory.md R97). -/
def State.readReg (s : State) (r : Reg) : Word :=
  match r with
  | .id => idWord
  | .cap => capWord s.params
  | .ctrl => s.ctrlWord
  | .status => s.statusWord
  | .cmd => s.cmd
  | .arg0 => s.arg0
  | .arg1 => s.arg1
  | .arg2 => s.arg2
  | .arg3 => s.arg3
  | .arg4 => s.arg4
  | .result0 => s.result0
  | .result1 => s.result1
  | .rsCh => natWord s.rs.ch
  | .rsSrcRate => natWord s.rs.srcRate
  | .rsDstRate => natWord s.rs.dstRate
  | .rsPos => natWord s.rs.posNum
  | .rsSrcPtr => natWord s.rs.srcPtr
  | .rsSrcRem => natWord s.rs.srcRem

/-! ## Resets -/

/-- The write set of the latched command: none if its word is ILLEGAL or a check would fail
(70_reset_and_hazards.md R363). -/
def State.pendingWrites (s : State) : Nat × Nat :=
  match decode s.command with
  | .error _ => (0, 0)
  | .ok i =>
    match checkOf i s with
    | some _ => (0, 0)
    | none => writeRange i s

/-- `abort()` (70_reset_and_hazards.md R363): every cell of W holds no value. The command's Engine step
never happens, because the soft reset clears BUSY. -/
def State.abort (s : State) : State :=
  { s with mem := s.mem.clearWords s.pendingWrites.1 s.pendingWrites.2 }

/-- The registers and `rs` at their reset values (10_state.md R70, R71); DMEM, the parameters and the
model's own fields stay. -/
def State.resetRegisters (s : State) : State :=
  { s with
    irqEn := false, busy := false, done := false, err := false, errcode := 0, cmd := 0,
    arg0 := 0, arg1 := 0, arg2 := 0, arg3 := 0, arg4 := 0, result0 := 0, result1 := 0,
    rs := Resampler.reset s.params }

/-- The soft reset (70_reset_and_hazards.md R362). -/
def State.softReset (s : State) : State :=
  (if s.busy then s.abort else s).resetRegisters

/-- The hardware reset (70_reset_and_hazards.md R360): registers and `rs` at their reset values, every
DMEM cell without a value, a command in progress discarded. The schedule and the draw counter are the
model's and go on (log entry 19). -/
def State.hardwareReset (s : State) : State :=
  { s.resetRegisters with mem := [], port := none }

/-! ## Register writes -/

/-- A write of CTRL (10_state.md R45): a soft reset alone, or IRQ_EN and then the start request. -/
def State.writeCtrl (v : Word) (s : State) : State :=
  if v.getLsbD 1 then s.softReset
  else
    let s1 := { s with irqEn := v.getLsbD 2 }
    if v.getLsbD 0 then s1.start else s1

/-- CMD and the ARGs take a write only while BUSY = 0 (40_common.md R151). -/
def State.whenIdle (s t : State) : State := if s.busy then s else t

/-- What a write of a register does (10_state.md R42-R58): a write of an RO register is ignored
(R58). -/
def State.writeReg (s : State) (r : Reg) (v : Word) : State :=
  match r with
  | .id => s
  | .cap => s
  | .ctrl => s.writeCtrl v
  | .status => s.writeStatus v
  | .cmd => s.whenIdle { s with cmd := v }
  | .arg0 => s.whenIdle { s with arg0 := v }
  | .arg1 => s.whenIdle { s with arg1 := v }
  | .arg2 => s.whenIdle { s with arg2 := v }
  | .arg3 => s.whenIdle { s with arg3 := v }
  | .arg4 => s.whenIdle { s with arg4 := v }
  | .result0 => s
  | .result1 => s
  | .rsCh => s
  | .rsSrcRate => s
  | .rsDstRate => s
  | .rsPos => s
  | .rsSrcPtr => s
  | .rsSrcRem => s

end Sys2Proof.Machine
end

