-- ==== Sys2Proof/Machine/Bus.lean ====
section
/-! DEFINITION. The Host step: one access of the slave port, with its response (20_memory.md
R88-R99). -/

namespace Sys2Proof.Machine

/-- The regions of the aperture (20_memory.md R90). -/
inductive Region where
  /-- Word `k` of the register page, offset `4k`. -/
  | register (k : Nat)
  /-- DMEM word `w`. -/
  | dmem (w : Nat)
  | unmapped
  deriving DecidableEq, Repr

/-- The region of an offset that is a multiple of 4 (20_memory.md R90). -/
def regionOf (p : Config.Params) (off : Nat) : Region :=
  if off < 0x100 then .register (off / 4)
  else if dmemBase ≤ off ∧ off < dmemBase + 4 * p.memWords then .dmem ((off - dmemBase) / 4)
  else .unmapped

/-- Whether the port accepts an access: width 4 at a multiple of 4 (20_memory.md R92). -/
def aligned (off : Offset) (width : Nat) : Bool := width == 4 && off.toNat % 4 == 0

/-- The access completes with this response (20_memory.md R88, R95). -/
def State.respond (s : State) (resp : BusResp) (rdata : Option Word) : State :=
  { s with port := some { resp := resp, rdata := rdata } }

/-- A read of DMEM word `w` (20_memory.md R98): a draw while BUSY = 1 or when the cell holds no value.
It has no side effect on the block. -/
def State.readDmem (s : State) (w : Nat) : State :=
  match s.busy, s.mem.readWord w with
  | false, some v => s.respond .okay (some v)
  | _, _ => (s.respond .okay (some (Config.anyWord s.draws))).draw 1

/-- A write of DMEM word `w` (20_memory.md R98): a model fault while BUSY = 1. -/
def State.writeDmem (s : State) (w : Nat) (v : Word) : Outcome :=
  if s.busy then .fault (.hostWriteBusy w)
  else .next ((s.store w [v]).respond .okay none)

/-- A read of word `k` of the register page; a reserved offset reads 0 (20_memory.md R97; 10_state.md
R57). -/
def State.readPage (s : State) (k : Nat) : State :=
  match regAt k with
  | some r => s.respond .okay (some (s.readReg r))
  | none => s.respond .okay (some 0)

/-- A write of word `k` of the register page; a reserved offset ignores it (20_memory.md R97;
10_state.md R57). -/
def State.writePage (s : State) (k : Nat) (v : Word) : State :=
  match regAt k with
  | some r => (s.writeReg r v).respond .okay none
  | none => s.respond .okay none

/-- A host read: SLVERR when not aligned (20_memory.md R92), DECERR when unmapped (R96). -/
def hostRead (off : Offset) (width : Nat) (s : State) : Outcome :=
  if aligned off width then
    match regionOf s.params off.toNat with
    | .register k => .next (s.readPage k)
    | .dmem w => .next (s.readDmem w)
    | .unmapped => .next (s.respond .decerr (some 0))
  else .next (s.respond .slverr (some 0))

/-- A host write: SLVERR when not aligned (20_memory.md R92), DECERR when unmapped (R96). -/
def hostWrite (off : Offset) (width : Nat) (v : Word) (s : State) : Outcome :=
  if aligned off width then
    match regionOf s.params off.toNat with
    | .register k => .next (s.writePage k v)
    | .dmem w => s.writeDmem w v
    | .unmapped => .next (s.respond .decerr (some 0))
  else .next (s.respond .slverr (some 0))

/-- One Host step (20_memory.md R95). -/
def hostAccess (a : Access) (s : State) : Outcome :=
  match a with
  | .read off width => hostRead off width s
  | .write off width v => hostWrite off width v s

end Sys2Proof.Machine
end

