-- ==== Sys2Proof/Machine/Common.lean ====
section
/-! DEFINITION. NOP (40_common.md R160). -/

namespace Sys2Proof.Machine

/-- NOP: `return ok(0, 0)` (40_common.md R160). -/
def execNop (s : State) : Outcome := .next (s.complete 0 0)

end Sys2Proof.Machine
end

