-- ==== Sys2Proof/Machine/Convolution.lean ====
section
/-! DEFINITION. CONV, the Convolution Engine (42_convolution.md R200-R215). The ideal convolution the
realisation approximates stands in Machine/Ideal.lean. -/

namespace Sys2Proof.Machine

/-- Output word `k` for operands `sig`, `ker`, `d` draws having been taken before this command: any
value for a non-finite operand (42_convolution.md R212), a zero of free sign when either operand is all
zeros (R211), else `cfg.conv` (R210). -/
def convWord (sig ker : List Word) (d k : Nat) : Word :=
  if !(sig.all isFinite32 && ker.all isFinite32) then Config.anyWord (d + k)
  else if sig.all isZero32 || ker.all isZero32 then signedZero (Config.anySign (d + k))
  else Config.conv sig ker k

/-- The `out_len` output words (42_convolution.md R208, R210). -/
def convWords (sig ker : List Word) (d outLen : Nat) : List Word :=
  (List.range outLen).map (convWord sig ker d)

/-- How many free values the outputs take: one a word for non-finite or all-zero operands, else none
(42_convolution.md R210-R212). -/
def convDraws (sig ker : List Word) (outLen : Nat) : Nat :=
  if !(sig.all isFinite32 && ker.all isFinite32) || sig.all isZero32 || ker.all isZero32 then outLen
  else 0

/-- CONV (42_convolution.md R200): reads the signal, then the kernel, then writes `out_len` words from
`dst`; RESULT0 = out_len, RESULT1 = fft_len. -/
def execConv (dst sig n ker m : Word) (s : State) : Outcome :=
  match checkConv dst sig n ker m s with
  | some e => .next (s.completeError e)
  | none =>
    match s.mem.readWords sig.toNat n.toNat with
    | .error w => .fault (.uninit w)
    | .ok xs =>
      match s.mem.readWords ker.toNat m.toNat with
      | .error w => .fault (.uninit w)
      | .ok hs =>
        let outLen := convOutLen n.toNat m.toNat
        .next (((s.store dst.toNat (convWords xs hs s.draws outLen)).draw
          (convDraws xs hs outLen)).complete (natWord outLen) (natWord (convFftLen outLen)))

end Sys2Proof.Machine
end

