-- ==== Sys2Proof/Machine/FilterDesigner.lean ====
section
/-! DEFINITION. FDES, the Filter Designer (41_filter_designer.md R180-R188). The ideal taps the
realisation approximates stand in Machine/Ideal.lean. -/

namespace Sys2Proof.Machine

/-- The centre index `c = (L - 1) div 2` (41_filter_designer.md R181). -/
def fdesCentre (len : Nat) : Nat := (len - 1) / 2

/-- The centre tap's exact value `2·(high − low)/rate` (41_filter_designer.md R184, R187). -/
def fdesCentreValue (low high rate : Nat) : ℚ := mkRat (2 * ((high : Int) - (low : Int))) rate

/-- Tap word `i` (41_filter_designer.md R187): the centre exactly rounded, any other by `cfg.fd_tap`. -/
def fdesTap (len low high rate i : Nat) : Word :=
  if i = fdesCentre len then rne32 (fdesCentreValue low high rate)
  else Config.fdTap len i low high rate

/-- The L tap words (41_filter_designer.md R180). -/
def fdesTaps (len low high rate : Nat) : List Word :=
  (List.range len).map (fdesTap len low high rate)

/-- FDES (41_filter_designer.md R180): writes L taps from `dst`, RESULT0 = L. -/
def execFdes (dst len low high rate : Word) (s : State) : Outcome :=
  match checkFdes dst len rate s with
  | some e => .next (s.completeError e)
  | none =>
    .next ((s.store dst.toNat (fdesTaps len.toNat low.toNat high.toNat rate.toNat)).complete len 0)

end Sys2Proof.Machine
end

