-- ==== Sys2Proof/Machine/Noise.lean ====
section
/-! DEFINITION. POWER, NGEN and VADD, the Noise Synthesizer (43_noise.md R230-R255). -/

namespace Sys2Proof.Machine

/-! ## POWER -/

/-- One accumulation: `acc <- add64(acc, mul64(x, x))` with `x = to64(f32(w))` (43_noise.md R231). -/
def powerAcc (acc : DWord) (w : Word) : DWord := add64 acc (mul64 (to64 w) (to64 w))

/-- `power(src, N)` over the words read (43_noise.md R231, R232): binary64 accumulation in index order,
then the mean; +0.0 for no words. -/
def powerOf (xs : List Word) : Word :=
  if xs.length = 0 then 0x00000000
  else to32 (div64 (xs.foldl powerAcc 0) (u2f64 xs.length))

/-- POWER (43_noise.md R230): RESULT0 = bits(power). -/
def execPower (src n : Word) (s : State) : Outcome :=
  match checkPower src n s with
  | some e => .next (s.completeError e)
  | none =>
    match s.mem.readWords src.toNat n.toNat with
    | .error w => .fault (.uninit w)
    | .ok xs => .next (s.complete (powerOf xs) 0)

/-! ## NGEN -/

/-- Noise word for a standard deviation and a draw: `bits(RNE32(σ · g))` (43_noise.md R243). -/
def noiseWord (sigma : NNRat) (g : ℚ) : Word := rne32 (sigma.val * g)

/-- The N noise words for power `p`, `d` draws having been taken before this command: any values for a
non-finite power (43_noise.md R245), +0 for power 0 (R244), else scaled Gaussian draws in index order
(R243). -/
def ngenWords (p snr : Word) (d n : Nat) : List Word :=
  if !isFinite32 p then (List.range n).map (fun i => Config.anyWord (d + i))
  else if isZero32 p then List.replicate n 0x00000000
  else (List.range n).map (fun i => noiseWord (Config.ngSigma p snr) (Config.gauss (d + i)))

/-- RESULT1 of NGEN (40_common.md R158; 43_noise.md R240): any value, 0, or `bits(RNE32(σ))`. -/
def ngenResult1 (p snr : Word) (d n : Nat) : Word :=
  if !isFinite32 p then Config.anyWord (d + n)
  else if isZero32 p then 0
  else rne32 (Config.ngSigma p snr).val

/-- How many free values NGEN takes: the words and RESULT1 for a non-finite power, none for power 0
(43_noise.md R244), else one Gaussian draw a sample (R243). -/
def ngenDraws (p : Word) (n : Nat) : Nat :=
  if !isFinite32 p then n + 1 else if isZero32 p then 0 else n

/-- NGEN (43_noise.md R240): reads the signal's power, then writes N noise words from `dst`. -/
def execNgen (dst src n snr : Word) (s : State) : Outcome :=
  match checkNgen dst src n snr s with
  | some e => .next (s.completeError e)
  | none =>
    match s.mem.readWords src.toNat n.toNat with
    | .error w => .fault (.uninit w)
    | .ok xs =>
      let p := powerOf xs
      .next (((s.store dst.toNat (ngenWords p snr s.draws n.toNat)).draw
        (ngenDraws p n.toNat)).complete p (ngenResult1 p snr s.draws n.toNat))

/-! ## VADD -/

/-- VADD (43_noise.md R250-R252): `dst[i] <- add32(a[i], b[i])`, all reads before all writes. -/
def execVadd (dst a n b : Word) (s : State) : Outcome :=
  match checkVadd dst a n b s with
  | some e => .next (s.completeError e)
  | none =>
    match s.mem.readPairs a.toNat b.toNat n.toNat with
    | .error w => .fault (.uninit w)
    | .ok ps => .next ((s.store dst.toNat (ps.map (fun xy => add32 xy.1 xy.2))).complete n 0)

end Sys2Proof.Machine
end

