-- ==== Sys2Proof/Machine/Resampler.lean ====
section
/-! DEFINITION. RSCFG, RSFEED and RSRUN, the Resampler (44_resampler.md R271-R302). The ideal kernel the
realisation approximates stands in Machine/Ideal.lean. -/

namespace Sys2Proof.Machine

/-! ## Configuration and feed -/

/-- `rs` after a successful RSCFG (44_resampler.md R280). -/
def configured (p : Config.Params) (ch srcRate dstRate : Nat) : Resampler :=
  { cfg := true, ch := ch, srcRate := srcRate, dstRate := dstRate, posNum := 0, pend := false,
    last := false, exh := false, srcPtr := 0, srcRem := 0, hist := Resampler.zeroHist p }

/-- RSCFG (44_resampler.md R280). -/
def execRscfg (ch srcRate dstRate : Word) (s : State) : Outcome :=
  match checkRscfg ch srcRate dstRate s with
  | some e => .next (s.completeError e)
  | none =>
    .next ((s.setRs (configured s.params ch.toNat srcRate.toNat dstRate.toNat)).complete 0 0)

/-- `rs` after a successful RSFEED (44_resampler.md R285): an empty feed leaves `src_ptr`. -/
def fed (rs : Resampler) (src len : Nat) (isLast : Bool) : Resampler :=
  { rs with srcPtr := if 0 < len then src else rs.srcPtr, srcRem := len, last := isLast }

/-- RSFEED (44_resampler.md R285): RESULT0 = len div C. -/
def execRsfeed (src len flags : Word) (s : State) : Outcome :=
  match checkRsfeed src len flags s with
  | some e => .next (s.completeError e)
  | none =>
    .next ((s.setRs (fed s.rs src.toNat len.toNat (flagLast flags))).complete
      (natWord (len.toNat / s.rs.ch)) 0)

/-! ## Pull -/

/-- Shift a sample into one channel's history, the oldest out (10_state.md R63). -/
def shiftIn (h : History) (v : Word) : History := h.drop 1 ++ [v]

/-- Shift one frame into the histories of its channels; the others keep theirs (44_resampler.md R297). -/
def shiftFrame : List History → List Word → List History
  | h :: hs, v :: vs => shiftIn h v :: shiftFrame hs vs
  | hs, [] => hs
  | [], _ => []

/-- `pull()` (44_resampler.md R297); the error is the first word that holds no value. -/
def pull (m : Memory) (rs : Resampler) : Except Nat Resampler :=
  match m.readWords rs.srcPtr rs.ch with
  | .error w => .error w
  | .ok vs =>
    .ok { rs with
      hist := shiftFrame rs.hist vs, srcPtr := rs.srcPtr + rs.ch, srcRem := rs.srcRem - rs.ch }

/-! ## Step -/

/-- What a step returns (44_resampler.md R296). -/
inductive StepResult where
  | out (frame : List Word)
  | needSrc
  | exhausted
  deriving DecidableEq, Repr

/-- Apply the increment of the next output unless it is pending (44_resampler.md R296). -/
def advancePhase (rs : Resampler) : Resampler :=
  if rs.pend then rs else { rs with posNum := rs.posNum + rs.srcRate, pend := true }

/-- How the pull loop of a step ends: the phase is below 1, or the fed region is used up. -/
inductive PullEnd where
  | ready
  | needSrc
  | exhausted
  deriving DecidableEq, Repr

/-- `while rs.pos_num ≥ rs.dst_rate` (44_resampler.md R296), the number of turns given: with
`pos_num div dst_rate` turns the loop test fails exactly when they are used up. -/
def pullLoop (m : Memory) : Nat → Resampler → Except Nat (PullEnd × Resampler)
  | 0, rs => .ok (.ready, rs)
  | k + 1, rs =>
    if rs.srcRem = 0 then
      if rs.last then .ok (.exhausted, { rs with exh := true }) else .ok (.needSrc, rs)
    else
      match pull m rs with
      | .error w => .error w
      | .ok rs' => pullLoop m k { rs' with posNum := rs'.posNum - rs'.dstRate }

/-- The reference tap `r = T/2 − 1` (44_resampler.md R274). -/
def refTap (taps : Nat) : Nat := taps / 2 - 1

/-- The output word of one channel with free value `d` (44_resampler.md R276). -/
def outputWord (taps posNum dstRate d : Nat) (h : History) : Word :=
  if posNum = 0 then h.getD (refTap taps) 0
  else if h.all isZero32 then signedZero (Config.anySign d)
  else if !h.all isFinite32 then Config.anyWord d
  else Config.rsInterp taps h posNum dstRate

/-- The output frame: one word a channel, each with a free value of its own (44_resampler.md R275). -/
def outputFrame (taps posNum dstRate : Nat) : Nat → List History → List Word
  | _, [] => []
  | d, h :: hs => outputWord taps posNum dstRate d h :: outputFrame taps posNum dstRate (d + 1) hs

/-- `step()` (44_resampler.md R296), `d` free values having been taken before it. -/
def rsStep (m : Memory) (taps d : Nat) (rs : Resampler) : Except Nat (StepResult × Resampler) :=
  if rs.exh then .ok (.exhausted, rs)
  else
    let rs1 := advancePhase rs
    match pullLoop m (rs1.posNum / rs1.dstRate) rs1 with
    | .error w => .error w
    | .ok (.needSrc, rs2) => .ok (.needSrc, rs2)
    | .ok (.exhausted, rs2) => .ok (.exhausted, rs2)
    | .ok (.ready, rs2) =>
      .ok (.out (outputFrame taps rs2.posNum rs2.dstRate d (rs2.hist.take rs2.ch)),
        { rs2 with pend := false })

/-! ## Run -/

/-- The stop reasons of RSRUN (40_common.md R158). -/
inductive StopReason where
  | max
  | needSrc
  | exhausted
  deriving DecidableEq, Repr

/-- RESULT1 of RSRUN (40_common.md R158). -/
def StopReason.code : StopReason → Word
  | .max => 0
  | .needSrc => 1
  | .exhausted => 2

/-- The output frames produced, the stop reason and `rs` at the end. -/
structure RunResult where
  frames : List (List Word)
  reason : StopReason
  rs : Resampler
  deriving DecidableEq, Repr

/-- The loop of RSRUN for the frames still wanted (44_resampler.md R290). It reads DMEM as it stands
before the command: the destination cannot meet the words pulled (R292, R298). -/
def rsRunLoop (m : Memory) (taps : Nat) : Nat → Nat → Resampler → Except Nat RunResult
  | 0, _, rs => .ok { frames := [], reason := .max, rs := rs }
  | k + 1, d, rs =>
    match rsStep m taps d rs with
    | .error w => .error w
    | .ok (.needSrc, rs') => .ok { frames := [], reason := .needSrc, rs := rs' }
    | .ok (.exhausted, rs') => .ok { frames := [], reason := .exhausted, rs := rs' }
    | .ok (.out y, rs') =>
      match rsRunLoop m taps k (d + y.length) rs' with
      | .error w => .error w
      | .ok r => .ok { r with frames := y :: r.frames }

/-- RSRUN (44_resampler.md R290): writes the frames produced from `dst`; RESULT0 = frames produced,
RESULT1 = the stop reason. -/
def execRsrun (dst max : Word) (s : State) : Outcome :=
  match checkRsrun dst max s with
  | some e => .next (s.completeError e)
  | none =>
    match rsRunLoop s.mem s.params.taps max.toNat s.draws s.rs with
    | .error w => .fault (.uninit w)
    | .ok r =>
      .next ((((s.store dst.toNat r.frames.flatten).setRs r.rs).draw r.frames.flatten.length).complete
        (natWord r.frames.length) r.reason.code)

end Sys2Proof.Machine
end

