-- ==== Sys2Proof/Machine/Dispatch.lean ====
section
/-! DEFINITION. `Execute(op, ARG0..ARG4, state)` and the completion that follows it (40_common.md R152):
one arm per command. -/

namespace Sys2Proof.Machine

def exec (i : Instr) (s : State) : Host.Outcome State Fault Refusal :=
  match i with
  | .nop => Sys2Proof.Machine.execNop s
  | .fdes dst len low high rate => Sys2Proof.Machine.execFdes dst len low high rate s
  | .conv dst sig n ker m => Sys2Proof.Machine.execConv dst sig n ker m s
  | .power src n => Sys2Proof.Machine.execPower src n s
  | .ngen dst src n snr => Sys2Proof.Machine.execNgen dst src n snr s
  | .vadd dst a n b => Sys2Proof.Machine.execVadd dst a n b s
  | .rscfg ch srcRate dstRate => Sys2Proof.Machine.execRscfg ch srcRate dstRate s
  | .rsfeed src len flags => Sys2Proof.Machine.execRsfeed src len flags s
  | .rsrun dst max => Sys2Proof.Machine.execRsrun dst max s

end Sys2Proof.Machine
end

