-- ==== Sys2Proof/Machine/Engine.lean ====
section
/-! DEFINITION. The Engine step and the agents' turns (40_common.md R152; 00_scope.md R23). -/

namespace Sys2Proof.Machine

/-- Execute the latched command whole (40_common.md R152); an ILLEGAL word completes with E_ILLEGAL and
its operands are not looked at (60_exceptions.md R321). -/
def runCommand (s : State) : Outcome :=
  match decode s.command with
  | .ok i => exec i s
  | .error _ => .next (s.completeError .illegal)

/-- The Engine's turn: it is enabled while BUSY = 1 (00_scope.md R23, R24); otherwise the state is held
(60_exceptions.md R354; log entry 3). -/
def engineTurn (s : State) : Outcome :=
  if s.busy then runCommand s else .next s

/-- The turn of the agent an input names. -/
def takeTurn (i : Input) (s : State) : Outcome :=
  match i with
  | .engine => engineTurn s
  | .host a => hostAccess a s
  | .hardwareReset => .next s.hardwareReset

/-- The next transition: that of the first input, or the Engine's turn when none is left, so that a
started command completes (70_reset_and_hazards.md R382; log entries 2 and 10). -/
def advance (s : State) : Outcome :=
  match s.inputs with
  | [] => engineTurn s
  | i :: rest => takeTurn i { s with inputs := rest }

/-- Latch the command given as one number and start it, the Engine next (log entry 13). -/
def State.loadCommand (s : State) (bits : Nat) : State :=
  let c := Command.ofBits bits
  { s with
    cmd := c.cmd, arg0 := c.arg0, arg1 := c.arg1, arg2 := c.arg2, arg3 := c.arg3, arg4 := c.arg4,
    busy := true, done := false, err := false, errcode := 0, inputs := [] }

end Sys2Proof.Machine
end

