-- ==== Sys2Proof/Machine/Step.lean ====
section
/-! DEFINITION. The step of the machine, and the placing of a command where the next step runs it. -/

namespace Sys2Proof.Machine

/-- One atomic transition of one agent (20_memory.md R104; 00_scope.md R23). -/
def step (s : State) : Host.Outcome State Fault Refusal := advance s

/-- `s` with the command whose bits are `w` latched and started, so that the very next step is the
Engine's and runs it: what the host's register writes and START do (30_encoding.md R135; 40_common.md
R150; log entry 13). -/
def State.withFetchWord (s : State) (nbits w : Nat) : State := s.loadCommand (w % 2 ^ nbits)

end Sys2Proof.Machine
end

