-- ==== Sys2Proof/Machine/HostProgram.lean ====
section
/-! DEFINITION. Host programs: the assembly of 30_encoding.md R133-R136 as abstract syntax, its
expansion into accesses, and the host agent that performs one access a step beside the block
(00_scope.md R23, R25). -/

namespace Sys2Proof.Machine

/-! ## Assembly -/

/-- A value in the assembly (R133): a u32 number, or a float literal, which stands for
`bits(RNE32(decimal))`. -/
inductive Literal where
  | num (v : Word)
  | float (decimal : ℚ)
  deriving DecidableEq, Repr

/-- The 32-bit value of a literal (30_encoding.md R133). -/
def Literal.word : Literal → Word
  | .num v => v
  | .float q => rne32 q

/-- A statement of a host program (30_encoding.md R133-R135). -/
inductive AsmStmt where
  | wr (off : Offset) (v : Literal)
  | rd (off : Offset)
  | wait
  | label (name : String)
  | bnz (off : Offset) (mask : Word) (target : String)
  /-- `.dmem W: v0, ..., vk`. -/
  | dmem (w : Nat) (vs : List Literal)
  /-- `.ien 1`, the one setting R135 names, or `.ien 0`. DESIGN CHOICE (log entry 28): R135 does not
  say how a `.ien 1` stops being in force; here a later `.ien 0` ends it. -/
  | ien (on : Bool)
  /-- A command pseudo-instruction; `noWait` is the suffix `.nw`. -/
  | command (i : Instr) (noWait : Bool)
  deriving DecidableEq, Repr

/-- Where a branch goes before the labels are resolved; `here` is the branch itself. -/
inductive BranchTarget where
  | named (label : String)
  | here
  deriving DecidableEq, Repr

/-- An expanded statement: one access, one reading branch, or a label. -/
inductive AsmItem where
  | write (off : Offset) (v : Word)
  | read (off : Offset)
  | branch (off : Offset) (mask : Word) (target : BranchTarget)
  | label (name : String)
  deriving DecidableEq, Repr

/-- The argument registers a command uses, by number, with their values (30_encoding.md R123, R135). -/
def usedArgs : Instr → List (Nat × Word)
  | .nop => []
  | .fdes dst len low high rate => [(0, dst), (1, len), (2, low), (3, high), (4, rate)]
  | .conv dst sig n ker m => [(0, dst), (1, sig), (2, n), (3, ker), (4, m)]
  | .power src n => [(1, src), (2, n)]
  | .ngen dst src n snr => [(0, dst), (1, src), (2, n), (3, snr)]
  | .vadd dst a n b => [(0, dst), (1, a), (2, n), (3, b)]
  | .rscfg ch srcRate dstRate => [(0, ch), (1, srcRate), (2, dstRate)]
  | .rsfeed src len flags => [(1, src), (2, len), (3, flags)]
  | .rsrun dst max => [(0, dst), (2, max)]

/-- `wait` is `w: bnz 0x00C, 1, w` (30_encoding.md R133). -/
def waitItem : AsmItem := .branch 0x00C 1 .here

/-- The value a pseudo-instruction writes to CTRL: `0x1 | (ien << 2)` (30_encoding.md R135). -/
def startWord (ien : Bool) : Word := if ien then 5 else 1

/-- The expansion of a command pseudo-instruction (30_encoding.md R135): its ARGs in order, CMD, CTRL,
then the wait. -/
def expandCommand (ien : Bool) (i : Instr) (noWait : Bool) : List AsmItem :=
  (usedArgs i).map (fun kv => .write (BitVec.ofNat 25 (0x014 + 4 * kv.1)) kv.2) ++
    [.write 0x010 i.cmdWord, .write 0x008 (startWord ien)] ++ (if noWait then [] else [waitItem])

/-- The aperture offset of a directive's word, `0x1000000 + 4·w` (30_encoding.md R134), never reduced:
none when it lies beyond the 25-bit aperture of 20_memory.md R89 (log entry 29). -/
def dmemOffset (w : Nat) : Option Offset :=
  if wordAddr w < 2 ^ 25 then some (BitVec.ofNat 25 (wordAddr w)) else none

/-- The expansion of `.dmem W: v0, ..., vk` (30_encoding.md R134); none when one of its words has no
offset in the aperture. -/
def expandDmem (w : Nat) : List Literal → Option (List AsmItem)
  | [] => some []
  | v :: vs =>
    match dmemOffset w, expandDmem (w + 1) vs with
    | some off, some items => some (.write off v.word :: items)
    | _, _ => none

/-- The expansion of a program, `ien` being the interrupt-enable setting in force (30_encoding.md
R133-R135). A `.ien` statement sets it for the statements after it, up to the next one: that `.ien 0`
ends a `.ien 1` is the model's choice, because R135 names only `.ien 1` (DESIGN CHOICE, log entry 28). -/
def expandProgram (ien : Bool) : List AsmStmt → Option (List AsmItem)
  | [] => some []
  | .wr off v :: rest => (expandProgram ien rest).map (.write off v.word :: ·)
  | .rd off :: rest => (expandProgram ien rest).map (.read off :: ·)
  | .wait :: rest => (expandProgram ien rest).map (waitItem :: ·)
  | .label name :: rest => (expandProgram ien rest).map (.label name :: ·)
  | .bnz off mask target :: rest =>
    (expandProgram ien rest).map (.branch off mask (.named target) :: ·)
  | .dmem w vs :: rest =>
    match expandDmem w vs, expandProgram ien rest with
    | some items, some more => some (items ++ more)
    | _, _ => none
  | .ien on :: rest => expandProgram on rest
  | .command i noWait :: rest => (expandProgram ien rest).map (expandCommand ien i noWait ++ ·)

/-- One access of an assembled host program, with the index a branch goes to. -/
inductive HostOp where
  | write (off : Offset) (v : Word)
  | read (off : Offset)
  | branch (off : Offset) (mask : Word) (target : Nat)
  deriving DecidableEq, Repr

/-- The index of the access that follows a label; the first label of that name counts. -/
def labelIndex (name : String) : Nat → List AsmItem → Option Nat
  | _, [] => none
  | k, .label l :: rest => if l = name then some k else labelIndex name k rest
  | k, .write _ _ :: rest => labelIndex name (k + 1) rest
  | k, .read _ :: rest => labelIndex name (k + 1) rest
  | k, .branch _ _ _ :: rest => labelIndex name (k + 1) rest

/-- Where a branch at index `k` goes. -/
def branchIndex (all : List AsmItem) (k : Nat) : BranchTarget → Option Nat
  | .here => some k
  | .named l => labelIndex l 0 all

/-- The accesses of an expanded program; `none` if a branch names no label. -/
def resolveItems (all : List AsmItem) : Nat → List AsmItem → Option (List HostOp)
  | _, [] => some []
  | k, .label _ :: rest => resolveItems all k rest
  | k, .write off v :: rest => (resolveItems all (k + 1) rest).map (.write off v :: ·)
  | k, .read off :: rest => (resolveItems all (k + 1) rest).map (.read off :: ·)
  | k, .branch off mask target :: rest =>
    match branchIndex all k target, resolveItems all (k + 1) rest with
    | some t, some ops => some (.branch off mask t :: ops)
    | _, _ => none

/-- Assemble a host program (30_encoding.md R133-R136). -/
def assemble (p : List AsmStmt) : Option (List HostOp) :=
  match expandProgram false p with
  | some items => resolveItems items 0 items
  | none => none

/-! ## The host agent -/

/-- A host running a program: the next access, and the trace of what its reads returned, newest first
(30_encoding.md R133). -/
structure HostAgent where
  prog : List HostOp
  pc : Nat
  trace : List (Offset × Word)
  deriving DecidableEq, Repr

/-- A host beside the block. -/
structure System where
  host : HostAgent
  block : State
  deriving DecidableEq, Repr

/-- The access an operation performs: 32 bits wide (30_encoding.md R133). -/
def HostOp.access : HostOp → Access
  | .write off v => .write off 4 v
  | .read off => .read off 4
  | .branch off _ _ => .read off 4

/-- The read data of the last access, 0 when it returned none. -/
def State.portData (s : State) : Word :=
  match s.port with
  | some { resp := _, rdata := some v } => v
  | _ => 0

/-- The host after an operation whose access returned `v` (30_encoding.md R133). -/
def HostAgent.after (h : HostAgent) (op : HostOp) (v : Word) : HostAgent :=
  match op with
  | .write _ _ => { h with pc := h.pc + 1 }
  | .read off => { h with pc := h.pc + 1, trace := (off, v) :: h.trace }
  | .branch off mask target =>
    { h with pc := if v &&& mask ≠ 0 then target else h.pc + 1, trace := (off, v) :: h.trace }

/-- The outcome of a system step. -/
abbrev SystemOutcome := Host.Outcome System Fault Refusal

/-- The Host's step: its next access (00_scope.md R23); it has none left when it is finished. -/
def System.hostTurn (y : System) : SystemOutcome :=
  match y.host.prog[y.host.pc]? with
  | none => .next y
  | some op =>
    match hostAccess op.access y.block with
    | .next t => .next { host := y.host.after op t.portData, block := t }
    | .fault f => .fault f
    | .refused r => .refused r

/-- The Engine's step. -/
def System.engineTurn (y : System) : SystemOutcome :=
  match Sys2Proof.Machine.engineTurn y.block with
  | .next t => .next { y with block := t }
  | .fault f => .fault f
  | .refused r => .refused r

/-- An agent of 00_scope.md R23. -/
inductive Agent where
  | host
  | engine
  deriving DecidableEq, Repr

/-- One step of a system: `a` names the agent that steps where both are enabled (00_scope.md R23). While
BUSY = 0 the Engine is not enabled and makes no step (R24), so the Host steps, whatever `a` names. -/
def System.turn (a : Agent) (y : System) : SystemOutcome :=
  match a with
  | .host => y.hostTurn
  | .engine => if y.block.busy then y.engineTurn else y.hostTurn

/-- The host has performed its last access (00_scope.md R25). -/
def System.finished (y : System) : Bool := decide (y.host.prog.length ≤ y.host.pc)

/-- A run under a schedule. It ends when the host has performed its last access, whatever is left of the
schedule, and at a fault (00_scope.md R25). -/
def System.run : List Agent → System → SystemOutcome
  | [], y => .next y
  | a :: rest, y =>
    if y.finished then .next y
    else
      match y.turn a with
      | .next y' => System.run rest y'
      | .fault f => .fault f
      | .refused r => .refused r

/-- A program's system at its first access. -/
def System.boot (prog : List HostOp) (s : State) : System :=
  { host := { prog := prog, pc := 0, trace := [] }, block := s }

/-! ## Fairness -/

/-- Where a run stands after its first `k` steps under an endless schedule. -/
def System.after (sched : Nat → Agent) (k : Nat) (y : System) : SystemOutcome :=
  y.run ((List.range k).map sched)

/-- The Engine's step is weakly fair in the run of `y` under `sched` (70_reset_and_hazards.md R382;
00_scope.md R25): from no point on does the run go on with BUSY = 1 and the Engine never steps. -/
def System.EngineFair (sched : Nat → Agent) (y : System) : Prop :=
  ∀ k, (∀ j, k ≤ j → ∃ z, y.after sched j = .next z ∧ z.finished = false ∧ z.block.busy = true) →
    ∃ j, k ≤ j ∧ sched j = .engine

end Sys2Proof.Machine
end

