-- ==== Sys2Proof/Machine/Ideal.lean ====
section
/-! DEFINITION. The ideal values over the reals (00_scope.md R19) and the accuracy properties of the
realisation functions (R20). No step reads them: a claim that uses an accuracy property names it as a
premise. All but POWER's are real-valued, so this file alone is noncomputable. -/

namespace Sys2Proof.Machine

open Real

/-! ## FDES -/

/-- `base(n)` (41_filter_designer.md R182; 90_conflicts.md C2). -/
noncomputable def idealBase (low high rate : ℕ) (n : ℤ) : ℝ :=
  if n = 0 then 2 * ((high : ℝ) - low) / rate
  else (sin (2 * π * high * n / rate) - sin (2 * π * low * n / rate)) / (π * n)

/-- `w(i)` (41_filter_designer.md R183): the Hamming window, 1 for L = 1. -/
noncomputable def hamming (len i : ℕ) : ℝ :=
  if len = 1 then 1 else 54 / 100 - 46 / 100 * cos (2 * π * i / ((len : ℝ) - 1))

/-- `ideal(i) = base(i - c) · w(i)` (41_filter_designer.md R184). -/
noncomputable def idealTap (len low high rate i : ℕ) : ℝ :=
  idealBase low high rate ((i : ℤ) - fdesCentre len) * hamming len i

/-- FD_ACC (41_filter_designer.md R187) with tolerance `tol` and realisation `f`. -/
def FdAcc (tol : ℝ) (f : Nat → Nat → Nat → Nat → Nat → Word) : Prop :=
  ∀ len i low high rate : ℕ, len % 2 = 1 → rate ≠ 0 → i < len → i ≠ fdesCentre len →
    len < 2 ^ 32 → low < 2 ^ 32 → high < 2 ^ 32 → rate < 2 ^ 32 →
    isFinite32 (f len i low high rate) = true ∧
      |(val32 (f len i low high rate) : ℝ) - idealTap len low high rate i| ≤ tol

/-! ## CONV -/

/-- The zero-padded sequence (42_convolution.md R204). -/
noncomputable def padded (xs : List Word) (n : ℕ) : ℝ := ((xs.map val32).getD n 0 : ℚ)

/-- The forward transform (42_convolution.md R205). -/
noncomputable def dft (len : ℕ) (x : ℕ → ℂ) (k : ℕ) : ℂ :=
  ∑ n ∈ Finset.range len, x n * Complex.exp (-2 * π * Complex.I * n * k / len)

/-- The inverse transform with its 1/L (42_convolution.md R207). -/
noncomputable def inverseDft (len : ℕ) (p : ℕ → ℂ) (n : ℕ) : ℂ :=
  (1 / len) * ∑ k ∈ Finset.range len, p k * Complex.exp (2 * π * Complex.I * n * k / len)

/-- `p[n]` for a transform length (42_convolution.md R204-R207): pad, transform, multiply, invert. -/
noncomputable def fftProduct (len : ℕ) (sig ker : List Word) (n : ℕ) : ℂ :=
  inverseDft len (fun k => dft len (fun j => padded sig j) k * dft len (fun j => padded ker j) k) n

/-- The transform length CONV uses for two operands (42_convolution.md R202). -/
def fftLenOf (sig ker : List Word) : Nat := convFftLen (convOutLen sig.length ker.length)

/-- `ideal[k] = Re(p[k])` (42_convolution.md R208). -/
noncomputable def idealConv (sig ker : List Word) (k : ℕ) : ℝ :=
  (fftProduct (fftLenOf sig ker) sig ker k).re

/-- The direct convolution (42_convolution.md R209). -/
noncomputable def directConv (sig ker : List Word) (k : ℕ) : ℝ :=
  ∑ j ∈ Finset.Icc (k + 1 - ker.length) (min k (sig.length - 1)), padded sig j * padded ker (k - j)

/-- `‖s‖₂` (42_convolution.md R210). -/
noncomputable def norm2 (xs : List Word) : ℝ := √((xs.map (fun w => ((val32 w : ℝ)) ^ 2)).sum)

/-- CONV_ACC (42_convolution.md R210). -/
def ConvAcc (tol : ℝ) (f : List Word → List Word → Nat → Word) : Prop :=
  ∀ sig ker : List Word, sig.all isFinite32 = true → ker.all isFinite32 = true →
    norm2 sig * norm2 ker < 2 ^ 127 → ∀ k < convOutLen sig.length ker.length,
      isFinite32 (f sig ker k) = true ∧
        |(val32 (f sig ker k) : ℝ) - idealConv sig ker k| ≤ tol * norm2 sig * norm2 ker

/-! ## POWER -/

/-- `(1/N)·Σ val(s[i])²` (43_noise.md R231), a rational because every datum is. DESIGN CHOICE (log entry
23): it is 0 for no words, where R231's formula has no value. POWER has no accuracy property: its words
are defined bit by bit. -/
def idealPower (xs : List Word) : ℚ := (xs.map (fun w => val32 w ^ 2)).sum / xs.length

/-! ## NGEN -/

/-- The target variance `v = P / 10^(snr/10)` (43_noise.md R241). -/
noncomputable def targetVariance (p snr : Word) : ℝ :=
  (val32 p : ℝ) / (10 : ℝ) ^ ((val32 snr : ℝ) / 10)

/-- NG_ACC (43_noise.md R242). -/
def NgAcc (tol : ℝ) (f : Word → Word → NNRat) : Prop :=
  ∀ p snr : Word, isFinite32 p = true → 0 < val32 p → isFinite32 snr = true →
    |((f p snr : ℚ) : ℝ) ^ 2 - targetVariance p snr| ≤ tol * targetVariance p snr

/-! ## Resampler -/

/-- `sinc(t)` (44_resampler.md R274). -/
noncomputable def sincKernel (t : ℝ) : ℝ := if t = 0 then 1 else sin (π * t) / (π * t)

open Classical in
/-- `hann(t)` (44_resampler.md R274). -/
noncomputable def hann (taps : ℕ) (t : ℝ) : ℝ :=
  if |t| ≤ taps / 2 then 1 / 2 + 1 / 2 * cos (2 * π * t / taps) else 0

/-- `K(t) = sinc(t) · hann(t)` (44_resampler.md R274). -/
noncomputable def interpKernel (taps : ℕ) (t : ℝ) : ℝ := sincKernel t * hann taps t

/-- `ideal_c` (44_resampler.md R274), with `pos = pos_num / dst_rate` (R271). -/
noncomputable def idealInterp (taps : ℕ) (h : List Word) (posNum dstRate : ℕ) : ℝ :=
  ∑ k ∈ Finset.range taps,
    padded h k * interpKernel taps ((k : ℝ) - (refTap taps : ℝ) - (posNum : ℝ) / dstRate)

/-- `Σ_k |val(H[k])|` (44_resampler.md R276). -/
noncomputable def norm1 (xs : List Word) : ℝ := (xs.map (fun w => |(val32 w : ℝ)|)).sum

/-- RS_ACC (44_resampler.md R276). -/
def RsAcc (tol : ℝ) (f : Nat → List Word → Nat → Nat → Word) : Prop :=
  ∀ (taps : ℕ) (h : List Word) (posNum dstRate : ℕ), h.length = taps → taps % 2 = 0 →
    2 ≤ taps → taps ≤ 64 → posNum < dstRate → h.all isFinite32 = true → norm1 h < 2 ^ 127 →
    isFinite32 (f taps h posNum dstRate) = true ∧
      |(val32 (f taps h posNum dstRate) : ℝ) - idealInterp taps h posNum dstRate| ≤ tol * norm1 h

/-- All four realisation functions of this machine meet their accuracy properties, with the default
tolerances of 00_scope.md R7 (R20). -/
def RealisationAccurate : Prop :=
  FdAcc Config.defaultTol Config.fdTap ∧ ConvAcc Config.defaultTol Config.conv ∧
    NgAcc Config.defaultTol Config.ngSigma ∧ RsAcc Config.defaultTol Config.rsInterp

end Sys2Proof.Machine
end

