-- ==== Sys2Proof/Machine/Invariant.lean ====
section
/-! DEFINITION. What holds of the state between steps: the canonical memory, STATUS (10_state.md R51,
40_common.md R150-R153) and the bounds of `rs` (10_state.md R60, R61; 44_resampler.md R285, R296,
R299). -/

namespace Sys2Proof.Machine

/-- Every listed byte lies in the DMEM window (20_memory.md R90). -/
def Memory.inWindow (p : Config.Params) (m : Memory) : Prop :=
  ∀ k, m.readByte k ≠ none → dmemBase ≤ k ∧ k < dmemBase + 4 * p.memWords

/-- DMEM cells are whole words: the bytes of a word hold values together (10_state.md R62; 20_memory.md
R95). -/
def Memory.wholeWords (m : Memory) : Prop :=
  ∀ w j, j < 4 → (m.readByte (wordAddr w + j) = none ↔ m.readByte (wordAddr w) = none)

/-- DMEM in its canonical form, inside its window, in whole words. -/
structure Memory.Sound (p : Config.Params) (m : Memory) : Prop where
  wf : m.wf = true
  window : m.inWindow p
  words : m.wholeWords

/-- STATUS is consistent: ERRCODE is not 0 exactly when ERR = 1 (10_state.md R51), codes 8-15 are never
produced (60_exceptions.md R320), and a running command has no DONE, no ERR (40_common.md R150). -/
structure State.StatusSound (s : State) : Prop where
  errcode_iff : s.errcode ≠ 0 ↔ s.err = true
  errcode_le : s.errcode.toNat ≤ 7
  busy_clear : s.busy = true → s.done = false ∧ s.err = false

/-- The bounds of a configured resampler (10_state.md R60, R61). -/
structure Resampler.Bounded (p : Config.Params) (rs : Resampler) : Prop where
  ch_pos : 1 ≤ rs.ch
  ch_le : rs.ch ≤ p.chMax
  src_pos : 1 ≤ rs.srcRate
  src_le : rs.srcRate ≤ maxRate
  dst_pos : 1 ≤ rs.dstRate
  dst_le : rs.dstRate ≤ maxRate
  /-- "After an output is produced, pos_num < dst_rate" (R61). -/
  pos_idle : rs.pend = false → rs.posNum < rs.dstRate
  /-- "While pend = 1, pos_num < dst_rate + src_rate" (R61). -/
  pos_pend : rs.pend = true → rs.posNum < rs.dstRate + rs.srcRate
  /-- A multiple of C (R60). -/
  whole_frames : rs.srcRem % rs.ch = 0
  /-- `src_ptr + src_rem ≤ MEM_WORDS` (R61). -/
  region : rs.srcPtr + rs.srcRem ≤ p.memWords
  /-- Exhaustion's three conditions, with the pending increment (44_resampler.md R296, R299). -/
  exhausted : rs.exh = true →
    rs.last = true ∧ rs.srcRem = 0 ∧ rs.dstRate ≤ rs.posNum ∧ rs.pend = true

/-- The histories are CH_MAX rows of T words (10_state.md R60). -/
def Resampler.histShape (p : Config.Params) (rs : Resampler) : Prop :=
  rs.hist.length = p.chMax ∧ ∀ h ∈ rs.hist, h.length = p.taps

/-- `rs` is at its reset value or configured and bounded (10_state.md R60, R61, R70). -/
structure Resampler.Sound (p : Config.Params) (rs : Resampler) : Prop where
  shape : rs.histShape p
  unconfigured : rs.cfg = false → rs = Resampler.reset p
  configured : rs.cfg = true → rs.Bounded p

/-- The invariant of the machine. -/
structure State.Inv (s : State) : Prop where
  params : s.params.legal = true
  mem : s.mem.Sound s.params
  status : s.StatusSound
  rs : s.rs.Sound s.params

end Sys2Proof.Machine
end

