-- ==== Sys2Proof/Safety.lean ====
section
/-! DEFINITION. The words in which claims are stated: what a safe run is (00_scope.md R24, R25;
60_exceptions.md R325), what a completion leaves (40_common.md R152, R153), and which bytes stay. -/

namespace Sys2Proof.Machine

/-! ## Runs -/

/-- A step that makes no model fault (60_exceptions.md R325). -/
def StepSafe (s : State) : Prop := ∃ t, step s = .next t

/-- The block's own run makes no model fault, whatever its length. -/
def RunSafe (s : State) : Prop := ∀ k, ∃ t, Sys2Proof.core.run k s = .next t

/-- A claim about a host program (00_scope.md R25): from every state meeting the precondition, every
run of the program in which the Engine is weakly fair makes no model fault and ends, in a state meeting
the postcondition. A run that is over stays where it ended and a fault stays a fault, so some number of
steps is enough to say both. The realisation functions, GaussSrc and the draws are opaque, so a proof
holds for all of them. -/
def ProgramClaim (pre : State → Prop) (prog : List HostOp) (post : State → Prop) : Prop :=
  ∀ s, pre s → ∀ sched : Nat → Agent, (System.boot prog s).EngineFair sched →
    ∃ k y, (System.boot prog s).after sched k = .next y ∧ y.finished = true ∧ post y.block

/-! ## Memory -/

/-- DMEM holds the words `vs` from word `base`. -/
def Memory.holds (m : Memory) (base : Nat) (vs : List Word) : Prop :=
  ∀ i (h : i < vs.length), m.readWord (base + i) = some vs[i]

/-- The first word of an order of reads that holds no value (60_exceptions.md R325). -/
def Memory.firstMissing (m : Memory) (order : List Nat) : Option Nat :=
  order.find? (fun w => (m.readWord w).isNone)

/-- Every byte outside the `n` words from word `base` reads as before. -/
def State.sameOutside (s t : State) (base n : Nat) : Prop :=
  ∀ k, k < wordAddr base ∨ wordAddr (base + n) ≤ k → t.mem.readByte k = s.mem.readByte k

/-- The range test of 20_memory.md R100 as a proposition. -/
def State.InRange (s : State) (base n : Nat) : Prop := n = 0 ∨ base + n ≤ s.params.memWords

/-! ## Completions -/

/-- What no command writes: IRQ_EN, CMD, the ARGs, the parameters, and the model's inputs and port
(10_state.md R46, R53, R54). -/
structure State.KeepsHostRegisters (s t : State) : Prop where
  irqEn : t.irqEn = s.irqEn
  cmd : t.cmd = s.cmd
  arg0 : t.arg0 = s.arg0
  arg1 : t.arg1 = s.arg1
  arg2 : t.arg2 = s.arg2
  arg3 : t.arg3 = s.arg3
  arg4 : t.arg4 = s.arg4
  params : t.params = s.params
  inputs : t.inputs = s.inputs
  port : t.port = s.port

/-- Completion with success and results `r0`, `r1` (40_common.md R152): ERR and ERRCODE stay. -/
structure State.SucceedsTo (s t : State) (r0 r1 : Word) : Prop where
  result0 : t.result0 = r0
  result1 : t.result1 = r1
  busy : t.busy = false
  done : t.done = true
  err : t.err = s.err
  errcode : t.errcode = s.errcode
  keeps : s.KeepsHostRegisters t

/-- The state after completion with error code `code` (40_common.md R153). -/
def State.failed (s : State) (code : BitVec 4) : State :=
  { s with
    result0 := 0, result1 := 0, errcode := code, err := true, busy := false, done := true }

/-- `s` with other values in the five argument registers. -/
def State.withArgs (s : State) (a0 a1 a2 a3 a4 : Word) : State :=
  { s with arg0 := a0, arg1 := a1, arg2 := a2, arg3 := a3, arg4 := a4 }

/-- A function of the next state, faults and refusals passed on. -/
def mapNext (f : State → State) : Outcome → Outcome
  | .next t => .next (f t)
  | .fault r => .fault r
  | .refused r => .refused r

/-- Host accesses performed one after the other, with no turn of another agent between them. -/
def hostAll : List Access → State → Outcome
  | [], s => .next s
  | a :: rest, s =>
    match hostAccess a s with
    | .next t => hostAll rest t
    | .fault f => .fault f
    | .refused r => .refused r

/-- The access an expanded statement performs (30_encoding.md R133); a label performs none. -/
def AsmItem.access? : AsmItem → Option Access
  | .write off v => some (.write off 4 v)
  | .read off => some (.read off 4)
  | .branch off _ _ => some (.read off 4)
  | .label _ => none

/-! ## Resampler -/

/-- The history of channel `c` after `pulls` more frames of the interleaved source `xs` have been
shifted into `h0` (10_state.md R63; 44_resampler.md R275, R297). -/
def pulledHistory (taps ch c pulls : Nat) (h0 : History) (xs : List Word) : History :=
  (List.range taps).map fun k =>
    if pulls + k < taps then h0.getD (pulls + k) 0 else xs.getD ((pulls + k - taps) * ch + c) 0

/-- The phase a run reaches for its output `n` before any decrement: one increment an output, the
pending one not repeated (44_resampler.md R271, R296). -/
def Resampler.totalPhase (rs : Resampler) (n : Nat) : Nat :=
  (if rs.pend then rs.posNum else rs.posNum + rs.srcRate) + n * rs.srcRate

/-- How many frames a run has pulled when it produces its output `n` (44_resampler.md R271, R296). -/
def Resampler.pullsAt (rs : Resampler) (n : Nat) : Nat := rs.totalPhase n / rs.dstRate

/-- `pos_num` at output `n` of a run (44_resampler.md R271, R296). -/
def Resampler.phaseAt (rs : Resampler) (n : Nat) : Nat := rs.totalPhase n % rs.dstRate

/-- How many frames a run that wants `max` outputs pulls: none for `max = 0` or an exhausted resampler,
else those of its last output, or all that were fed when they are fewer (44_resampler.md R290, R296). -/
def Resampler.framesPulled (rs : Resampler) (max : Nat) : Nat :=
  if rs.exh = true ∨ max = 0 then 0 else min (rs.srcRem / rs.ch) (rs.pullsAt (max - 1))

/-- The output word of 44_resampler.md R276 for a history and a phase. -/
def IsOutputWord (taps posNum dstRate : Nat) (h : History) (w : Word) : Prop :=
  (posNum = 0 → w = h.getD (taps / 2 - 1) 0) ∧
  (posNum ≠ 0 → h.all isZero32 = true → w = 0x00000000 ∨ w = 0x80000000) ∧
  (posNum ≠ 0 → h.all isFinite32 = true → h.all isZero32 = false →
    w = Config.rsInterp taps h posNum dstRate)

/-! ## Reads -/

/-- The DMEM words a command that passes its checks reads, in the order of its pseudocode: CONV the
signal, then the kernel (42_convolution.md R200); POWER and NGEN the source (43_noise.md R231, R240);
VADD `a_i`, then `b_i` (R250); RSRUN the frames it pulls (44_resampler.md R297). -/
def readOrder (s : State) : Instr → List Nat
  | .nop => []
  | .fdes _ _ _ _ _ => []
  | .conv _ sig n ker m => List.range' sig.toNat n.toNat ++ List.range' ker.toNat m.toNat
  | .power src n => List.range' src.toNat n.toNat
  | .ngen _ src n _ => List.range' src.toNat n.toNat
  | .vadd _ a n b => (List.range n.toNat).flatMap (fun i => [a.toNat + i, b.toNat + i])
  | .rscfg _ _ _ => []
  | .rsfeed _ _ _ => []
  | .rsrun _ max => List.range' s.rs.srcPtr (s.rs.framesPulled max.toNat * s.rs.ch)

end Sys2Proof.Machine
end

