-- ==== Sys2Proof/WellFormed.lean ====
section
/-! DEFINITION. Well-formed commands: every operand in the legal set that the E_PARAM row of
60_exceptions.md R320 names, as far as the operand alone decides it. An ill-formed command still runs:
it completes with E_PARAM (40_common.md R153). -/

namespace Sys2Proof

/-- A sample rate RSCFG accepts: 1..2^31-1 (44_resampler.md R280). -/
def legalRate (rate : Word) : Bool := rate.toNat != 0 && decide (rate.toNat ≤ 2 ^ 31 - 1)

/-- The operand checks of 60_exceptions.md R320, code 2, that no state or parameter enters: FDES length
odd and rate not 0 (41_filter_designer.md R180), NGEN snr finite (43_noise.md R245), RSCFG rates legal
and a channel count some instance accepts (44_resampler.md R280, 00_scope.md R7), RSFEED flag bits
31:1 zero (30_encoding.md R122). -/
def Instr.wellFormed : Instr → Bool
  | .nop => true
  | .fdes _ len _ _ rate => len.toNat % 2 == 1 && rate.toNat != 0
  | .conv _ _ _ _ _ => true
  | .power _ _ => true
  | .ngen _ _ _ snr => Machine.isFinite32 snr
  | .vadd _ _ _ _ => true
  | .rscfg ch srcRate dstRate =>
      ch.toNat != 0 && decide (ch.toNat ≤ 255) && legalRate srcRate && legalRate dstRate
  | .rsfeed _ _ flags => flags.toNat / 2 == 0
  | .rsrun _ _ => true

end Sys2Proof
end

