-- ==== Sys2Proof/Certificates/Slice0/Obligations.lean ====
section
/-! DEFINITION. The statements for the provers, in the order of OBLIGATIONS.json. Each is a proposition
about the machine of Sys2Proof/Machine; none is about a program. -/

open Sys2Proof Sys2Proof.Machine

/-! ## Encoding and decoding -/

/-- 30_encoding.md R124: each CMD word of the opcode map selects its command, with the argument
registers of R123. -/
def Obligations.OpcodeMapDecodes : Prop :=
  ∀ a0 a1 a2 a3 a4 : Word,
    decode ⟨0x00000000, a0, a1, a2, a3, a4⟩ = .ok .nop ∧
    decode ⟨0x00000001, a0, a1, a2, a3, a4⟩ = .ok (.fdes a0 a1 a2 a3 a4) ∧
    decode ⟨0x00000002, a0, a1, a2, a3, a4⟩ = .ok (.conv a0 a1 a2 a3 a4) ∧
    decode ⟨0x00000003, a0, a1, a2, a3, a4⟩ = .ok (.power a1 a2) ∧
    decode ⟨0x00000004, a0, a1, a2, a3, a4⟩ = .ok (.ngen a0 a1 a2 a3) ∧
    decode ⟨0x00000005, a0, a1, a2, a3, a4⟩ = .ok (.vadd a0 a1 a2 a3) ∧
    decode ⟨0x00000010, a0, a1, a2, a3, a4⟩ = .ok (.rscfg a0 a1 a2) ∧
    decode ⟨0x00000011, a0, a1, a2, a3, a4⟩ = .ok (.rsfeed a1 a2 a3) ∧
    decode ⟨0x00000012, a0, a1, a2, a3, a4⟩ = .ok (.rsrun a0 a2)

/-- Decode and encode agree (30_encoding.md R120-R125, R129): every command, with every operand value,
decodes from its encoding; and whatever decodes to a command has its CMD word and its operands, so no
other word does. -/
def Obligations.DecodeEncodeAgree : Prop :=
  (∀ i : Instr, decode (encode i) = .ok i) ∧
  (∀ (c : Command) (i : Instr), decode c = .ok i →
    c.cmd = i.cmdWord ∧
    ∀ kv ∈ usedArgs i, [c.arg0, c.arg1, c.arg2, c.arg3, c.arg4][kv.1]? = some kv.2)

/-- 30_encoding.md R126, R127, R131: a word is rejected exactly when a reserved bit is set or its opcode
is 0x06-0x0F or 0x13-0xFF. -/
def Obligations.IllegalWordsExactly : Prop :=
  ∀ c : Command,
    (decode c = .error .reservedBits ↔ c.cmd.toNat / 256 ≠ 0) ∧
    (decode c = .error .unassignedOpcode ↔
      c.cmd.toNat / 256 = 0 ∧
        ((0x06 ≤ c.cmd.toNat ∧ c.cmd.toNat ≤ 0x0F) ∨ (0x13 ≤ c.cmd.toNat ∧ c.cmd.toNat ≤ 0xFF))) ∧
    (0x100 ≤ c.cmd.toNat ∨ (0x06 ≤ c.cmd.toNat ∧ c.cmd.toNat ≤ 0x0F) ∨ 0x13 ≤ c.cmd.toNat ∨
      ∃ i, decode c = .ok i)

/-! ## The step -/

/-- A step runs the decoded command: when the next turn is the Engine's and BUSY = 1, the step is `exec`
of the command the latched words decode to (40_common.md R152); an ILLEGAL word completes with code 1
(60_exceptions.md R321). That an empty schedule gives the Engine its turn is the model's choice (log
entry 2). -/
def Obligations.StepRunsDecodedCommand : Prop :=
  ∀ (s : State) (rest : List Input), s.busy = true →
    (∀ i, decode s.command = .ok i →
      (s.inputs = [] → step s = exec i s) ∧
      (s.inputs = .engine :: rest → step s = exec i { s with inputs := rest })) ∧
    (∀ e, decode s.command = .error e →
      (s.inputs = [] → step s = .next (s.failed 1)) ∧
      (s.inputs = .engine :: rest → step s = .next ({ s with inputs := rest }.failed 1)))

/-- The other turns: a host access, a reset pulse, and an Engine turn while BUSY = 0, which changes
nothing (00_scope.md R23, R24; the schedule is the model's, log entries 2 and 3). -/
def Obligations.OtherTurnsOfTheStep : Prop :=
  ∀ (s : State) (rest : List Input),
    (∀ a, s.inputs = .host a :: rest → step s = hostAccess a { s with inputs := rest }) ∧
    (s.inputs = .hardwareReset :: rest →
      step s = .next { State.resetOf s.params with inputs := rest, draws := s.draws }) ∧
    (s.busy = false → s.inputs = [] → step s = .next s) ∧
    (s.busy = false → s.inputs = .engine :: rest → step s = .next { s with inputs := rest })

/-- 30_encoding.md R135, 40_common.md R150: the register writes a command pseudo-instruction expands to,
performed while BUSY = 0, leave that command latched and started, with DONE, ERR and ERRCODE cleared.
They touch nothing else but IRQ_EN and the port's response: an argument register the command does not
use keeps its value. It is what `withFetchWord` stands for (log entry 13). -/
def Obligations.HostSequenceLatchesTheCommand : Prop :=
  ∀ (i : Instr) (ien : Bool) (s : State), s.busy = false →
    ∃ t, hostAll ((expandCommand ien i true).filterMap AsmItem.access?) s = .next t ∧
      decode t.command = .ok i ∧ t.busy = true ∧ t.done = false ∧ t.err = false ∧ t.errcode = 0 ∧
      t.irqEn = ien ∧ t.result0 = s.result0 ∧ t.result1 = s.result1 ∧ t.rs = s.rs ∧ t.mem = s.mem ∧
      t.params = s.params ∧ t.inputs = s.inputs ∧ t.draws = s.draws ∧
      ∀ k < 5, k ∉ (usedArgs i).map Prod.fst →
        [t.arg0, t.arg1, t.arg2, t.arg3, t.arg4][k]? = [s.arg0, s.arg1, s.arg2, s.arg3, s.arg4][k]?

/-- 30_encoding.md R129: the ignored argument registers never matter. Two sets of argument values under
which the latched word decodes to the same command lead to the same outcome, which leaves them as they
are (10_state.md R54). That two runs take equal free values, where a result is one, is the model's choice:
the counter `draws` names them (log entry 4). -/
def Obligations.IgnoredArgumentsNeverMatter : Prop :=
  ∀ (s : State) (a0 a1 a2 a3 a4 : Word) (i : Instr),
    decode s.command = .ok i → decode (s.withArgs a0 a1 a2 a3 a4).command = .ok i →
    runCommand (s.withArgs a0 a1 a2 a3 a4) =
      mapNext (fun t => t.withArgs a0 a1 a2 a3 a4) (runCommand s)

/-- 40_common.md R152, 60_exceptions.md R330: whatever the command, a completion clears BUSY, sets
DONE, raises irq exactly when IRQ_EN = 1, and leaves every register the host writes. -/
def Obligations.EveryCompletionSignals : Prop :=
  ∀ (i : Instr) (s t : State), exec i s = .next t →
    t.busy = false ∧ t.done = true ∧ t.irq = s.irqEn ∧ s.KeepsHostRegisters t

/-- 40_common.md R153, R154: a command that completes with an error has no other effect. Started with
ERR = 0 (R150), a completion with ERR = 1 leaves exactly the failed state, with a code of
60_exceptions.md R320. -/
def Obligations.FailureHasNoOtherEffect : Prop :=
  ∀ (i : Instr) (s t : State), s.err = false → exec i s = .next t → t.err = true →
    t = s.failed t.errcode ∧ 2 ≤ t.errcode.toNat ∧ t.errcode.toNat ≤ 7

/-- 40_common.md R157, 60_exceptions.md R325, R335: no command is refused, and a command faults only
after its checks passed, by reading a DMEM word that holds no value. -/
def Obligations.FaultsAreUninitialisedReads : Prop :=
  ∀ (i : Instr) (s : State),
    (∀ r, exec i s ≠ .refused r) ∧
    (∀ f, exec i s = .fault f →
      checkOf i s = none ∧ ∃ w, f = .uninit w ∧ s.mem.readWord w = none)

/-! ## NOP -/

/-- 40_common.md R160: NOP returns ok(0, 0) and touches nothing else. -/
def Obligations.NopOnlyCompletes : Prop :=
  ∀ s : State, ∃ t, exec .nop s = .next t ∧ s.SucceedsTo t 0 0 ∧
    t.rs = s.rs ∧ t.mem = s.mem ∧ t.draws = s.draws

/-! ## FDES -/

/-- 41_filter_designer.md R180, R187: with L odd, rate ≠ 0 and the destination in range, FDES writes L
taps, the centre exactly rounded, the others by `cfg.fd_tap`, and no other byte. -/
def Obligations.FdesWritesDesignedTaps : Prop :=
  ∀ (dst len low high rate : Word) (s : State),
    len.toNat % 2 = 1 → rate.toNat ≠ 0 → s.InRange dst.toNat len.toNat →
    ∃ t, exec (.fdes dst len low high rate) s = .next t ∧ s.SucceedsTo t len 0 ∧
      t.rs = s.rs ∧ t.draws = s.draws ∧ s.sameOutside t dst.toNat len.toNat ∧
      ∀ i < len.toNat, t.mem.readWord (dst.toNat + i) = some
        (if i = (len.toNat - 1) / 2 then
          rne32 (2 * ((high.toNat : ℚ) - (low.toNat : ℚ)) / (rate.toNat : ℚ))
        else Config.fdTap len.toNat i low.toNat high.toNat rate.toNat)

/-- 41_filter_designer.md R180, 60_exceptions.md R322: FDES's errors, in order: L even, rate = 0, then
the range; the cutoffs are never checked (R188). -/
def Obligations.FdesErrorsInOrder : Prop :=
  ∀ (dst len low high rate : Word) (s : State),
    (len.toNat % 2 = 0 → exec (.fdes dst len low high rate) s = .next (s.failed 2)) ∧
    (len.toNat % 2 = 1 → rate.toNat = 0 →
      exec (.fdes dst len low high rate) s = .next (s.failed 2)) ∧
    (len.toNat % 2 = 1 → rate.toNat ≠ 0 → ¬ s.InRange dst.toNat len.toNat →
      exec (.fdes dst len low high rate) s = .next (s.failed 3))

/-- 41_filter_designer.md R183, R184: at the centre of every odd length the window is 1, so the ideal
centre tap is 2·(high − low)/rate. -/
def Obligations.IdealCentreTap : Prop :=
  ∀ len low high rate : ℕ, len % 2 = 1 →
    hamming len ((len - 1) / 2) = 1 ∧
    idealTap len low high rate ((len - 1) / 2) = 2 * ((high : ℝ) - low) / rate

/-- 41_filter_designer.md R185: the ideal taps are symmetric about the centre. -/
def Obligations.IdealTapsSymmetric : Prop :=
  ∀ len low high rate i : ℕ, len % 2 = 1 → i < len →
    idealTap len low high rate i = idealTap len low high rate (len - 1 - i)

/-! ## CONV -/

/-- 42_convolution.md R200, R210, R212, R214: with the ranges and the transform length legal and every
input word holding a value, CONV writes out_len words and no other byte, whatever the overlap of its
buffers, and reports out_len and fft_len. For finite operands, neither all zeros, the words are
`cfg.conv`'s. -/
def Obligations.ConvWritesOutput : Prop :=
  ∀ (dst sig n ker m : Word) (s : State) (xs hs : List Word),
    xs.length = n.toNat → hs.length = m.toNat →
    s.InRange sig.toNat n.toNat → s.InRange ker.toNat m.toNat →
    s.InRange dst.toNat (convOutLen n.toNat m.toNat) →
    convFftLen (convOutLen n.toNat m.toNat) ≤ s.params.fftMax →
    s.mem.holds sig.toNat xs → s.mem.holds ker.toNat hs →
    ∃ t, exec (.conv dst sig n ker m) s = .next t ∧
      s.SucceedsTo t (BitVec.ofNat 32 (convOutLen n.toNat m.toNat))
        (BitVec.ofNat 32 (convFftLen (convOutLen n.toNat m.toNat))) ∧
      t.rs = s.rs ∧ s.sameOutside t dst.toNat (convOutLen n.toNat m.toNat) ∧
      (∀ k < convOutLen n.toNat m.toNat, ∃ w, t.mem.readWord (dst.toNat + k) = some w) ∧
      (xs.all isFinite32 = true → hs.all isFinite32 = true → xs.all isZero32 = false →
        hs.all isZero32 = false → ∀ k < convOutLen n.toNat m.toNat,
          t.mem.readWord (dst.toNat + k) = some (Config.conv xs hs k))

/-- 42_convolution.md R211: with finite operands of which one is all zeros (or empty), a CONV whose
checks pass completes, and every output word is 0x00000000 or 0x80000000. -/
def Obligations.ConvZeroOperandIsExact : Prop :=
  ∀ (dst sig n ker m : Word) (s : State) (xs hs : List Word),
    xs.length = n.toNat → hs.length = m.toNat →
    s.mem.holds sig.toNat xs → s.mem.holds ker.toNat hs →
    xs.all isFinite32 = true → hs.all isFinite32 = true →
    (xs.all isZero32 = true ∨ hs.all isZero32 = true) →
    checkOf (.conv dst sig n ker m) s = none →
    ∃ t, exec (.conv dst sig n ker m) s = .next t ∧
    ∀ k < convOutLen n.toNat m.toNat,
      t.mem.readWord (dst.toNat + k) = some 0x00000000 ∨
      t.mem.readWord (dst.toNat + k) = some 0x80000000

/-- 42_convolution.md R200, R203, 60_exceptions.md R322: CONV's errors, in order: signal, kernel and
destination range, then the transform length. -/
def Obligations.ConvErrorsInOrder : Prop :=
  ∀ (dst sig n ker m : Word) (s : State),
    (¬ s.InRange sig.toNat n.toNat → exec (.conv dst sig n ker m) s = .next (s.failed 3)) ∧
    (s.InRange sig.toNat n.toNat → ¬ s.InRange ker.toNat m.toNat →
      exec (.conv dst sig n ker m) s = .next (s.failed 3)) ∧
    (s.InRange sig.toNat n.toNat → s.InRange ker.toNat m.toNat →
      ¬ s.InRange dst.toNat (convOutLen n.toNat m.toNat) →
      exec (.conv dst sig n ker m) s = .next (s.failed 3)) ∧
    (s.InRange sig.toNat n.toNat → s.InRange ker.toNat m.toNat →
      s.InRange dst.toNat (convOutLen n.toNat m.toNat) →
      s.params.fftMax < convFftLen (convOutLen n.toNat m.toNat) →
      exec (.conv dst sig n ker m) s = .next (s.failed 4))

/-- 42_convolution.md R201, R202: out_len is N + M − 1, 0 for two empty operands, and fft_len is the
smallest power of two that is at least out_len, 0 for out_len 0. -/
def Obligations.TransformLengthIsNextPowerOfTwo : Prop :=
  (∀ n m : ℕ, 1 ≤ n + m → convOutLen n m = n + m - 1) ∧ convOutLen 0 0 = 0 ∧ convFftLen 0 = 0 ∧
  (∀ len : ℕ, 1 ≤ len →
    ∃ k, convFftLen len = 2 ^ k ∧ len ≤ 2 ^ k ∧ ∀ j, len ≤ 2 ^ j → 2 ^ k ≤ 2 ^ j)

/-- 42_convolution.md R209: over the reals, zero-padding, transforming, multiplying and inverting at
CONV's transform length is the direct convolution, with imaginary part zero. -/
def Obligations.FftConvolutionIsDirect : Prop :=
  ∀ (sig ker : List Word) (k : ℕ), 1 ≤ sig.length → 1 ≤ ker.length →
    k < convOutLen sig.length ker.length →
    idealConv sig ker k = directConv sig ker k ∧
    (fftProduct (fftLenOf sig ker) sig ker k).im = 0

/-! ## POWER -/

/-- 43_noise.md R230-R232: with the source in range and every word holding a value, POWER reports the
binary64 accumulation's mean, +0 for no words, and writes no DMEM. -/
def Obligations.PowerReportsMeanSquare : Prop :=
  ∀ (src n : Word) (s : State) (xs : List Word),
    xs.length = n.toNat → s.InRange src.toNat n.toNat → s.mem.holds src.toNat xs →
    ∃ t, exec (.power src n) s = .next t ∧
      s.SucceedsTo t
        (if n.toNat = 0 then 0x00000000
        else to32 (div64 (xs.foldl (fun acc x => add64 acc (mul64 (to64 x) (to64 x))) 0)
          (u2f64 n.toNat))) 0 ∧
      t.rs = s.rs ∧ t.mem = s.mem ∧ t.draws = s.draws

/-- 43_noise.md R231: the square of a finite binary32 datum is exact in binary64. -/
def Obligations.SquareIsExact : Prop :=
  ∀ x : Word, isFinite32 x = true →
    binary64.isFinite (mul64 (to64 x) (to64 x)).toNat = true ∧
    val64 (to64 x) = val32 x ∧ val64 (mul64 (to64 x) (to64 x)) = val32 x ^ 2

/-- 43_noise.md R230, R231: POWER's special results, for any number of words a len operand can name:
all zeros of either sign give +0; a NaN gives 0x7FC00000; an infinity and no NaN gives +infinity. -/
def Obligations.PowerSpecialResults : Prop :=
  ∀ xs : List Word, xs.length < 2 ^ 32 →
    (xs.all isZero32 = true → powerOf xs = 0x00000000) ∧
    (xs.any isNaN32 = true → powerOf xs = 0x7FC00000) ∧
    (xs.any isNaN32 = false → xs.any isInf32 = true → powerOf xs = 0x7F800000)

/-- 43_noise.md R230: POWER's result is never negative. -/
def Obligations.PowerNeverNegative : Prop :=
  ∀ xs : List Word, xs.length < 2 ^ 32 → sign32 (powerOf xs) = false

/-! ## NGEN -/

/-- 43_noise.md R243, R240: for a finite power that is not zero, NGEN writes `RNE32(σ · g_i)` with one
Gaussian draw a sample in index order, and reports the power and `RNE32(σ)`. The draws are counted by the
model's own field `draws` (log entry 4), and σ and the draws are rationals (log entry 6). -/
def Obligations.NgenScalesGaussianDraws : Prop :=
  ∀ (dst src n snr : Word) (s : State) (xs : List Word),
    xs.length = n.toNat → isFinite32 snr = true → s.InRange src.toNat n.toNat →
    s.InRange dst.toNat n.toNat → s.mem.holds src.toNat xs →
    isFinite32 (powerOf xs) = true → isZero32 (powerOf xs) = false →
    ∃ t, exec (.ngen dst src n snr) s = .next t ∧
      s.SucceedsTo t (powerOf xs) (rne32 (Config.ngSigma (powerOf xs) snr : ℚ)) ∧
      t.rs = s.rs ∧ t.draws = s.draws + n.toNat ∧ s.sameOutside t dst.toNat n.toNat ∧
      ∀ i < n.toNat, t.mem.readWord (dst.toNat + i) =
        some (rne32 ((Config.ngSigma (powerOf xs) snr : ℚ) * Config.gauss (s.draws + i)))

/-- 43_noise.md R244: a signal of power 0 yields +0 words, no draw, RESULT1 = 0. -/
def Obligations.NgenSilentInput : Prop :=
  ∀ (dst src n snr : Word) (s : State) (xs : List Word),
    xs.length = n.toNat → isFinite32 snr = true → s.InRange src.toNat n.toNat →
    s.InRange dst.toNat n.toNat → s.mem.holds src.toNat xs → isZero32 (powerOf xs) = true →
    ∃ t, exec (.ngen dst src n snr) s = .next t ∧ s.SucceedsTo t (powerOf xs) 0 ∧
      t.rs = s.rs ∧ t.draws = s.draws ∧ s.sameOutside t dst.toNat n.toNat ∧
      ∀ i < n.toNat, t.mem.readWord (dst.toNat + i) = some 0x00000000

/-- 43_noise.md R245: a non-finite power is no error: NGEN writes n words, of any values, and reports
the power. -/
def Obligations.NgenNonFinitePower : Prop :=
  ∀ (dst src n snr : Word) (s : State) (xs : List Word),
    xs.length = n.toNat → isFinite32 snr = true → s.InRange src.toNat n.toNat →
    s.InRange dst.toNat n.toNat → s.mem.holds src.toNat xs → isFinite32 (powerOf xs) = false →
    ∃ t r1, exec (.ngen dst src n snr) s = .next t ∧ s.SucceedsTo t (powerOf xs) r1 ∧
      t.rs = s.rs ∧ s.sameOutside t dst.toNat n.toNat ∧
      ∀ i < n.toNat, ∃ w, t.mem.readWord (dst.toNat + i) = some w

/-! ## VADD -/

/-- 43_noise.md R250, R252: with the ranges legal, each input equal to the destination or disjoint from
it, and every input word holding a value, VADD writes the binary32 sums and no other byte. -/
def Obligations.VaddWritesSums : Prop :=
  ∀ (dst a n b : Word) (s : State) (xs ys : List Word),
    (hx : xs.length = n.toNat) → (hy : ys.length = n.toNat) →
    s.InRange a.toNat n.toNat → s.InRange b.toNat n.toNat → s.InRange dst.toNat n.toNat →
    (overlap dst.toNat n.toNat a.toNat n.toNat = true → dst = a) →
    (overlap dst.toNat n.toNat b.toNat n.toNat = true → dst = b) →
    s.mem.holds a.toNat xs → s.mem.holds b.toNat ys →
    ∃ t, exec (.vadd dst a n b) s = .next t ∧ s.SucceedsTo t n 0 ∧
      t.rs = s.rs ∧ t.draws = s.draws ∧ s.sameOutside t dst.toNat n.toNat ∧
      ∀ i (h : i < n.toNat), t.mem.readWord (dst.toNat + i) =
        some (add32 (xs[i]'(hx ▸ h)) (ys[i]'(hy ▸ h)))

/-- 43_noise.md R230, R240, R250, R251, 60_exceptions.md R322: the errors of POWER, NGEN and VADD, in
order; in particular a destination that meets an input without being equal to it is E_OVERLAP. -/
def Obligations.NoiseErrorsInOrder : Prop :=
  ∀ (dst a n b snr : Word) (s : State),
    (¬ s.InRange a.toNat n.toNat → exec (.power a n) s = .next (s.failed 3)) ∧
    (isFinite32 snr = false → exec (.ngen dst a n snr) s = .next (s.failed 2)) ∧
    (isFinite32 snr = true → (¬ s.InRange a.toNat n.toNat ∨ ¬ s.InRange dst.toNat n.toNat) →
      exec (.ngen dst a n snr) s = .next (s.failed 3)) ∧
    ((¬ s.InRange a.toNat n.toNat ∨ ¬ s.InRange b.toNat n.toNat ∨ ¬ s.InRange dst.toNat n.toNat) →
      exec (.vadd dst a n b) s = .next (s.failed 3)) ∧
    (s.InRange a.toNat n.toNat → s.InRange b.toNat n.toNat → s.InRange dst.toNat n.toNat →
      ((overlap dst.toNat n.toNat a.toNat n.toNat = true ∧ dst ≠ a) ∨
        (overlap dst.toNat n.toNat b.toNat n.toNat = true ∧ dst ≠ b)) →
      exec (.vadd dst a n b) s = .next (s.failed 7))

/-! ## Arithmetic -/

/-- 00_scope.md R14: RNE32 of a real below the threshold is a nearest finite binary32 datum, even where
two are equally near; at or above the threshold it is the infinity of its sign. -/
def Obligations.RoundingIsNearestEven : Prop :=
  (∀ r : ℚ, |r| < 2 ^ 128 * (1 - 1 / 2 ^ 25) →
    isFinite32 (rne32 r) = true ∧
    ∀ y : Word, isFinite32 y = true →
      |val32 (rne32 r) - r| ≤ |val32 y - r| ∧
      (val32 y ≠ val32 (rne32 r) → |val32 (rne32 r) - r| = |val32 y - r| →
        (rne32 r).getLsbD 0 = false)) ∧
  (∀ r : ℚ, 2 ^ 128 * (1 - 1 / 2 ^ 25) ≤ r → rne32 r = 0x7F800000) ∧
  (∀ r : ℚ, r ≤ -(2 ^ 128 * (1 - 1 / 2 ^ 25)) → rne32 r = 0xFF800000)

/-- 00_scope.md R15, R18: binary32 addition: the rounded exact sum of finite data, the signs of exact
zero sums, NaN and infinities. -/
def Obligations.AdditionRules : Prop :=
  ∀ a b : Word,
    (isFinite32 a = true → isFinite32 b = true → val32 a + val32 b ≠ 0 →
      add32 a b = rne32 (val32 a + val32 b)) ∧
    (isFinite32 a = true → isFinite32 b = true → val32 a + val32 b = 0 →
      add32 a b = if a = 0x80000000 ∧ b = 0x80000000 then 0x80000000 else 0x00000000) ∧
    ((isNaN32 a = true ∨ isNaN32 b = true) → add32 a b = 0x7FC00000) ∧
    (isInf32 a = true → isInf32 b = true → sign32 a ≠ sign32 b → add32 a b = 0x7FC00000) ∧
    (isInf32 a = true → isFinite32 b = true ∨ a = b → add32 a b = a) ∧
    (isInf32 b = true → isFinite32 a = true ∨ a = b → add32 a b = b)

/-! ## RSCFG and RSFEED -/

/-- 44_resampler.md R280: a legal RSCFG sets every `rs` field and clears the histories, from any
state. -/
def Obligations.RscfgConfigures : Prop :=
  ∀ (ch sr dr : Word) (s : State),
    1 ≤ ch.toNat → ch.toNat ≤ s.params.chMax → 1 ≤ sr.toNat → sr.toNat ≤ 2 ^ 31 - 1 →
    1 ≤ dr.toNat → dr.toNat ≤ 2 ^ 31 - 1 →
    ∃ t, exec (.rscfg ch sr dr) s = .next t ∧ s.SucceedsTo t 0 0 ∧
      t.mem = s.mem ∧ t.draws = s.draws ∧
      t.rs.cfg = true ∧ t.rs.ch = ch.toNat ∧ t.rs.srcRate = sr.toNat ∧ t.rs.dstRate = dr.toNat ∧
      t.rs.posNum = 0 ∧ t.rs.pend = false ∧ t.rs.last = false ∧ t.rs.exh = false ∧
      t.rs.srcPtr = 0 ∧ t.rs.srcRem = 0 ∧
      t.rs.hist.length = s.params.chMax ∧
      ∀ h ∈ t.rs.hist, h.length = s.params.taps ∧ ∀ w ∈ h, w = 0x00000000

/-- 44_resampler.md R285: an accepted RSFEED sets the fed region, its length and LAST, and no other
state; an empty feed leaves src_ptr. -/
def Obligations.RsfeedAccepts : Prop :=
  ∀ (src len flags : Word) (s : State),
    s.rs.cfg = true → s.rs.last = false → s.rs.srcRem = 0 → flags.toNat ≤ 1 →
    len.toNat % s.rs.ch = 0 → s.InRange src.toNat len.toNat →
    ∃ t, exec (.rsfeed src len flags) s = .next t ∧
      s.SucceedsTo t (BitVec.ofNat 32 (len.toNat / s.rs.ch)) 0 ∧
      t.mem = s.mem ∧ t.draws = s.draws ∧
      t.rs = { s.rs with
        srcPtr := if len.toNat = 0 then s.rs.srcPtr else src.toNat, srcRem := len.toNat,
        last := decide (flags.toNat = 1) }

/-- 44_resampler.md R280, R285, R290, R292, R300, 60_exceptions.md R322: the errors of the resampler
commands, in order. -/
def Obligations.ResamplerErrorsInOrder : Prop :=
  ∀ (a b c : Word) (s : State),
    ((a.toNat = 0 ∨ s.params.chMax < a.toNat ∨ b.toNat = 0 ∨ 2 ^ 31 - 1 < b.toNat ∨ c.toNat = 0 ∨
      2 ^ 31 - 1 < c.toNat) → exec (.rscfg a b c) s = .next (s.failed 2)) ∧
    ((s.rs.cfg = false ∨ s.rs.last = true ∨ s.rs.srcRem ≠ 0) →
      exec (.rsfeed a b c) s = .next (s.failed 6)) ∧
    (s.rs.cfg = true → s.rs.last = false → s.rs.srcRem = 0 →
      (2 ≤ c.toNat → exec (.rsfeed a b c) s = .next (s.failed 2)) ∧
      (c.toNat ≤ 1 → b.toNat % s.rs.ch ≠ 0 → exec (.rsfeed a b c) s = .next (s.failed 5)) ∧
      (c.toNat ≤ 1 → b.toNat % s.rs.ch = 0 → ¬ s.InRange a.toNat b.toNat →
        exec (.rsfeed a b c) s = .next (s.failed 3))) ∧
    (s.rs.cfg = false → exec (.rsrun a b) s = .next (s.failed 6)) ∧
    (s.rs.cfg = true → ¬ s.InRange a.toNat (b.toNat * s.rs.ch) →
      exec (.rsrun a b) s = .next (s.failed 3)) ∧
    (s.rs.cfg = true → s.InRange a.toNat (b.toNat * s.rs.ch) →
      overlap a.toNat (b.toNat * s.rs.ch) s.rs.srcPtr s.rs.srcRem = true →
      exec (.rsrun a b) s = .next (s.failed 7))

/-! ## RSRUN -/

/-- 10_state.md R63, 44_resampler.md R297: a pull shifts one frame into the histories of the channels,
leaves every other channel's, and moves the fed region on by C words. -/
def Obligations.PullShiftsOneFrame : Prop :=
  ∀ (m : Memory) (p : Config.Params) (rs : Resampler) (vs : List Word),
    p.legal = true → rs.Sound p → rs.cfg = true → vs.length = rs.ch → m.holds rs.srcPtr vs → rs.ch ≤ rs.srcRem →
    ∃ rs', pull m rs = .ok rs' ∧ rs'.srcPtr = rs.srcPtr + rs.ch ∧ rs'.srcRem + rs.ch = rs.srcRem ∧
      rs' = { rs with hist := rs'.hist, srcPtr := rs'.srcPtr, srcRem := rs'.srcRem } ∧
      rs'.hist.length = rs.hist.length ∧
      (∀ c h h', rs.hist[c]? = some h → rs'.hist[c]? = some h' →
        (c < rs.ch → (∀ k, k + 1 < p.taps → h'[k]? = h[k + 1]?) ∧ h'[p.taps - 1]? = vs[c]?) ∧
        (rs.ch ≤ c → h' = h))

/-- 44_resampler.md R271, R275, R276, R290, R296-R299: RSRUN as a whole. From any sound configured state
that is not exhausted, RSRUN produces the frames whose pulls
the feed can supply, at most `max`; frame `n` is the output word of R276 for the histories after
`pullsAt n` pulls and the phase `phaseAt n`; the stop reason says which limit came first; the fed region
moves on by the frames pulled; and no byte outside the frames produced changes. Only the words of the
frames the run pulls, `xs`, need hold values (40_common.md R157). -/
def Obligations.RsrunProducesTheStream : Prop :=
  ∀ (dst max : Word) (s : State) (xs : List Word),
    s.params.legal = true → s.rs.Sound s.params → s.rs.cfg = true → s.rs.exh = false →
    s.InRange dst.toNat (max.toNat * s.rs.ch) →
    overlap dst.toNat (max.toNat * s.rs.ch) s.rs.srcPtr s.rs.srcRem = false →
    xs.length = s.rs.framesPulled max.toNat * s.rs.ch → s.mem.holds s.rs.srcPtr xs →
    ∃ t j reason, exec (.rsrun dst max) s = .next t ∧
      s.SucceedsTo t (BitVec.ofNat 32 j) reason ∧
      j ≤ max.toNat ∧ (∀ n < j, s.rs.pullsAt n ≤ s.rs.srcRem / s.rs.ch) ∧
      (j < max.toNat → s.rs.srcRem / s.rs.ch < s.rs.pullsAt j) ∧
      reason = (if j = max.toNat then 0 else if s.rs.last then 2 else 1) ∧
      s.sameOutside t dst.toNat (j * s.rs.ch) ∧
      (∀ n < j, ∀ c < s.rs.ch, ∃ h0 w, s.rs.hist[c]? = some h0 ∧
        t.mem.readWord (dst.toNat + n * s.rs.ch + c) = some w ∧
        IsOutputWord s.params.taps (s.rs.phaseAt n) s.rs.dstRate
          (pulledHistory s.params.taps s.rs.ch c (s.rs.pullsAt n) h0 xs) w) ∧
      t.rs.srcPtr = s.rs.srcPtr + s.rs.framesPulled max.toNat * s.rs.ch ∧
      t.rs.srcRem + s.rs.framesPulled max.toNat * s.rs.ch = s.rs.srcRem ∧
      t.rs.exh = decide (reason = 2) ∧ t.rs.pend = (if j = 0 ∧ reason = 0 then s.rs.pend else
        decide (reason ≠ 0)) ∧
      t.rs.cfg = true ∧ t.rs.ch = s.rs.ch ∧ t.rs.srcRate = s.rs.srcRate ∧
      t.rs.dstRate = s.rs.dstRate ∧ t.rs.last = s.rs.last

/-- 44_resampler.md R271, R290, R296-R299: where RSRUN leaves the resampler. With `p` the frames pulled,
those of the last output produced or, when it stopped for want of source, all that were fed: the fed
region moves on by `p` frames, the phase is the total phase less one unit a pull, each channel's history
holds the last T samples, and no other history changes. The words `xs` are those of the frames pulled;
no other word need hold a value. -/
def Obligations.RsrunLeavesTheResampler : Prop :=
  ∀ (dst max : Word) (s t : State) (xs : List Word) (p : Nat),
    s.params.legal = true → s.rs.Sound s.params → s.rs.cfg = true → s.rs.exh = false →
    xs.length = s.rs.framesPulled max.toNat * s.rs.ch → s.mem.holds s.rs.srcPtr xs →
    checkOf (.rsrun dst max) s = none → exec (.rsrun dst max) s = .next t →
    p = (if t.result1 ≠ 0 then s.rs.srcRem / s.rs.ch
      else if t.result0 = 0 then 0 else s.rs.pullsAt (t.result0.toNat - 1)) →
    t.rs.srcPtr = s.rs.srcPtr + p * s.rs.ch ∧ t.rs.srcRem + p * s.rs.ch = s.rs.srcRem ∧
    t.rs.posNum + p * s.rs.dstRate =
      (if t.result1 ≠ 0 then s.rs.totalPhase t.result0.toNat
      else if t.result0 = 0 then s.rs.posNum else s.rs.totalPhase (t.result0.toNat - 1)) ∧
    t.rs.hist.length = s.rs.hist.length ∧
    (∀ c h0, s.rs.hist[c]? = some h0 → t.rs.hist[c]? = some
      (if c < s.rs.ch then pulledHistory s.params.taps s.rs.ch c p h0 xs else h0))

/-- 44_resampler.md R278: with src_rate = dst_rate, right after RSCFG and one LAST feed of S frames, a
long enough RSRUN produces exactly S frames: T/2 of +0.0, then source frames 0 .. S − T/2 − 1. -/
def Obligations.IdentityRatioReproducesTheSource : Prop :=
  ∀ (dst max : Word) (s : State) (ch rate frames srcPtr : Nat) (xs : List Word),
    s.params.legal = true → 1 ≤ ch → ch ≤ s.params.chMax → 1 ≤ rate → rate ≤ 2 ^ 31 - 1 →
    s.rs = { configured s.params ch rate rate with
      last := true, srcPtr := srcPtr, srcRem := frames * ch } →
    frames < max.toNat → s.InRange dst.toNat (max.toNat * ch) →
    overlap dst.toNat (max.toNat * ch) srcPtr (frames * ch) = false →
    xs.length = frames * ch → s.mem.holds srcPtr xs →
    ∃ t, exec (.rsrun dst max) s = .next t ∧ s.SucceedsTo t (BitVec.ofNat 32 frames) 2 ∧
      s.sameOutside t dst.toNat (frames * ch) ∧ t.rs.exh = true ∧
      ∀ j < frames, ∀ c < ch, t.mem.readWord (dst.toNat + j * ch + c) = some
        (if j < s.params.taps / 2 then 0x00000000
        else xs.getD ((j - s.params.taps / 2) * ch + c) 0)

/-- 44_resampler.md R290, R296, R299: an exhausted resampler produces nothing more and keeps its state:
(0, 2) for max > 0, (0, 0) for max = 0. -/
def Obligations.ExhaustionIsSticky : Prop :=
  ∀ (dst max : Word) (s : State), s.rs.cfg = true → s.rs.exh = true → s.rs.srcRem = 0 →
    s.InRange dst.toNat (max.toNat * s.rs.ch) →
    ∃ t, exec (.rsrun dst max) s = .next t ∧
      s.SucceedsTo t 0 (if max.toNat = 0 then 0 else 2) ∧ t.rs = s.rs ∧ t.mem = s.mem

/-- 44_resampler.md R274, R276: at phase 0 the ideal interpolation is the reference tap H[T/2 − 1]
exactly. -/
def Obligations.IdealInterpolationAtZeroPhase : Prop :=
  ∀ (taps dstRate : ℕ) (h : List Word), taps % 2 = 0 → 2 ≤ taps → h.length = taps →
    idealInterp taps h 0 dstRate = (val32 (h.getD (taps / 2 - 1) 0) : ℝ)

/-! ## Uninitialised words -/

/-- 60_exceptions.md R325, 40_common.md R157: a command whose checks pass faults exactly when some word
it reads holds no value, and names the first such word in the order its pseudocode reads: CONV the signal,
then the kernel; POWER and NGEN the source; VADD each `a_i`, then `b_i`; RSRUN, from a sound resampler,
the frames it pulls. A command that reads no DMEM never faults. -/
def Obligations.FirstUninitialisedWordIsNamed : Prop :=
  ∀ (i : Instr) (s : State) (w : Nat), checkOf i s = none →
    (∀ dst max, i = .rsrun dst max → s.rs.Sound s.params) →
    (exec i s = .fault (.uninit w) ↔ s.mem.firstMissing (readOrder s i) = some w)

/-! ## The host port -/

/-- 20_memory.md R92, R96: an access that is not 32 bits wide at a multiple of 4 gets SLVERR, an aligned
one to an unmapped offset DECERR; both read 0 and change no state. -/
def Obligations.BadAccessesChangeNothing : Prop :=
  ∀ (s : State) (off : Offset) (width : Nat) (v : Word),
    (width ≠ 4 ∨ off.toNat % 4 ≠ 0 →
      hostAccess (.read off width) s = .next { s with port := some ⟨.slverr, some 0⟩ } ∧
      hostAccess (.write off width v) s = .next { s with port := some ⟨.slverr, some 0⟩ }) ∧
    (width = 4 → off.toNat % 4 = 0 → 0x100 ≤ off.toNat →
      (off.toNat < 0x1000000 ∨ 0x1000000 + 4 * s.params.memWords ≤ off.toNat) →
      hostAccess (.read off width) s = .next { s with port := some ⟨.decerr, some 0⟩ } ∧
      hostAccess (.write off width v) s = .next { s with port := some ⟨.decerr, some 0⟩ })

/-- 20_memory.md R98: accesses to DMEM word `w`: a write while BUSY = 1 is the model fault, else it
stores; a read returns the word when BUSY = 0 and it holds a value, and some word otherwise, and changes
no block state. -/
def Obligations.DmemAccesses : Prop :=
  ∀ (s : State) (off : Offset) (w : Nat) (v : Word),
    w < s.params.memWords → off.toNat = 0x1000000 + 4 * w →
    (s.busy = true → hostAccess (.write off 4 v) s = .fault (.hostWriteBusy w)) ∧
    (s.busy = false → ∃ t, hostAccess (.write off 4 v) s = .next t ∧
      t = { s with mem := t.mem, port := some ⟨.okay, none⟩ } ∧
      t.mem.readWord w = some v ∧ s.sameOutside t w 1) ∧
    (∃ x t, hostAccess (.read off 4) s = .next t ∧
      t = { s with port := some ⟨.okay, some x⟩, draws := t.draws } ∧
      (s.busy = false → ∀ y, s.mem.readWord w = some y → x = y))

/-- 20_memory.md R91: a host read of a DMEM word that was just written by the host returns it, and its
byte lanes lie in memory lowest lane first. Holding DMEM as bytes is the model's (log entry 7). -/
def Obligations.DmemIsLittleEndian : Prop :=
  ∀ (s t : State) (off : Offset) (w : Nat) (v : Word),
    w < s.params.memWords → off.toNat = 0x1000000 + 4 * w → s.busy = false →
    hostAccess (.write off 4 v) s = .next t →
    (∀ j < 4, t.mem.readByte (off.toNat + j) = some (v.extractLsb' (8 * j) 8)) ∧
    hostAccess (.read off 4) t = .next { t with port := some ⟨.okay, some v⟩ }

/-- 10_state.md R41-R57: what a read of each offset of the register page returns; the access changes no
block state (20_memory.md R97). -/
def Obligations.RegisterPageReads : Prop :=
  ∀ (s : State) (off : Offset), off.toNat < 0x100 → off.toNat % 4 = 0 →
    ∃ v, hostAccess (.read off 4) s = .next { s with port := some ⟨.okay, some v⟩ } ∧
      (off.toNat = 0x000 → v = 0x4E524431) ∧
      (off.toNat = 0x004 → s.params.legal = true →
        v.toNat = s.params.fftMaxLog2 + 2 ^ 8 * s.params.memWordsLog2 + 2 ^ 16 * s.params.chMax +
          2 ^ 24 * s.params.taps) ∧
      (off.toNat = 0x008 → v = if s.irqEn then 4 else 0) ∧
      (off.toNat = 0x00C → v = s.statusWord) ∧
      (off.toNat = 0x010 → v = s.cmd) ∧ (off.toNat = 0x014 → v = s.arg0) ∧
      (off.toNat = 0x018 → v = s.arg1) ∧ (off.toNat = 0x01C → v = s.arg2) ∧
      (off.toNat = 0x020 → v = s.arg3) ∧ (off.toNat = 0x024 → v = s.arg4) ∧
      (off.toNat = 0x028 → v = s.result0) ∧ (off.toNat = 0x02C → v = s.result1) ∧
      (off.toNat = 0x030 → v = BitVec.ofNat 32 s.rs.ch) ∧
      (off.toNat = 0x034 → v = BitVec.ofNat 32 s.rs.srcRate) ∧
      (off.toNat = 0x038 → v = BitVec.ofNat 32 s.rs.dstRate) ∧
      (off.toNat = 0x03C → v = BitVec.ofNat 32 s.rs.posNum) ∧
      (off.toNat = 0x040 → v = BitVec.ofNat 32 s.rs.srcPtr) ∧
      (off.toNat = 0x044 → v = BitVec.ofNat 32 s.rs.srcRem) ∧
      (0x048 ≤ off.toNat → v = 0)

/-- 10_state.md R48, R52: the layout of STATUS, with bits 11:8 views of `rs` and the reserved bits 0. -/
def Obligations.StatusLayout : Prop :=
  ∀ s : State, s.statusWord.toNat =
    s.busy.toNat + 2 * s.done.toNat + 4 * s.err.toNat + 16 * s.errcode.toNat +
      256 * s.rs.cfg.toNat + 512 * s.rs.pend.toNat + 1024 * s.rs.last.toNat +
      2048 * s.rs.exh.toNat

/-- 10_state.md R57, R58: a write to an RO register or a reserved offset completes with OKAY and changes
nothing. -/
def Obligations.ReadOnlyWritesIgnored : Prop :=
  ∀ (s : State) (off : Offset) (v : Word), off.toNat % 4 = 0 →
    (off.toNat = 0x000 ∨ off.toNat = 0x004 ∨ (0x028 ≤ off.toNat ∧ off.toNat < 0x100)) →
    hostAccess (.write off 4 v) s = .next { s with port := some ⟨.okay, none⟩ }

/-- 40_common.md R151, 10_state.md R53, R54: CMD and the ARGs take a host write while BUSY = 0 and
ignore it while BUSY = 1; either way the access completes with OKAY. -/
def Obligations.CommandRegisterWrites : Prop :=
  ∀ (s : State) (off : Offset) (v : Word), off.toNat % 4 = 0 → 0x010 ≤ off.toNat →
    off.toNat ≤ 0x024 →
    (s.busy = true → hostAccess (.write off 4 v) s = .next { s with port := some ⟨.okay, none⟩ }) ∧
    (s.busy = false → ∃ t, hostAccess (.write off 4 v) s = .next t ∧
      t = { s with cmd := t.cmd, arg0 := t.arg0, arg1 := t.arg1, arg2 := t.arg2, arg3 := t.arg3,
                   arg4 := t.arg4, port := some ⟨.okay, none⟩ } ∧
      t.cmd = (if off.toNat = 0x010 then v else s.cmd) ∧
      t.arg0 = (if off.toNat = 0x014 then v else s.arg0) ∧
      t.arg1 = (if off.toNat = 0x018 then v else s.arg1) ∧
      t.arg2 = (if off.toNat = 0x01C then v else s.arg2) ∧
      t.arg3 = (if off.toNat = 0x020 then v else s.arg3) ∧
      t.arg4 = (if off.toNat = 0x024 then v else s.arg4))

/-- 10_state.md R45, R46, 40_common.md R150: a CTRL write without SOFT_RESET sets IRQ_EN from bit 2 and
then makes the start request of bit 0, which is ignored while BUSY = 1. -/
def Obligations.ControlWrites : Prop :=
  ∀ (s : State) (v : Word), v.getLsbD 1 = false →
    hostAccess (.write 0x008 4 v) s = .next
      (if v.getLsbD 0 = true ∧ s.busy = false then
        { s with irqEn := v.getLsbD 2, busy := true, done := false, err := false, errcode := 0,
                 port := some ⟨.okay, none⟩ }
      else { s with irqEn := v.getLsbD 2, port := some ⟨.okay, none⟩ })

/-- 10_state.md R50: a STATUS write clears DONE where bit 1 is 1, ERR and ERRCODE where bit 2 is 1, and
ignores every other bit; an accepted start clears the three as well. -/
def Obligations.StatusWritesAcknowledge : Prop :=
  ∀ (s : State) (v : Word),
    hostAccess (.write 0x00C 4 v) s = .next
      { s with
        done := s.done && !v.getLsbD 1, err := s.err && !v.getLsbD 2,
        errcode := if v.getLsbD 2 then 0 else s.errcode, port := some ⟨.okay, none⟩ } ∧
    (s.busy = false → v.getLsbD 1 = false → v.getLsbD 0 = true →
      ∃ t, hostAccess (.write 0x008 4 v) s = .next t ∧
        t.done = false ∧ t.err = false ∧ t.errcode = 0)

/-- 70_reset_and_hazards.md R362-R364: a CTRL write with SOFT_RESET resets every register and `rs`,
whatever its other bits. While BUSY = 0 DMEM stays; while BUSY = 1 exactly the write set of the latched
command, by the table of R363, holds no value; it is empty for an ILLEGAL word or a command whose checks
would fail. -/
def Obligations.SoftResetDiscardsTheCommand : Prop :=
  ∀ (s : State) (v : Word), v.getLsbD 1 = true →
    ∃ t, hostAccess (.write 0x008 4 v) s = .next t ∧
      t = { State.resetOf s.params with
        mem := t.mem, inputs := s.inputs, draws := s.draws, port := some ⟨.okay, none⟩ } ∧
      (s.busy = false → t.mem = s.mem) ∧
      (s.busy = true →
        (∀ e, decode s.command = .error e → t.mem = s.mem) ∧
        (∀ i, decode s.command = .ok i →
          (∀ e, checkOf i s = some e → t.mem = s.mem) ∧
          (checkOf i s = none → ∀ base n,
            ((n = 0 ∧ (i = .nop ∨ (∃ a b, i = .power a b) ∨ (∃ a b c, i = .rscfg a b c) ∨
                ∃ a b c, i = .rsfeed a b c)) ∨
              (∃ dst len a b c, i = .fdes dst len a b c ∧ base = dst.toNat ∧ n = len.toNat) ∨
              (∃ dst a l b m, i = .conv dst a l b m ∧ base = dst.toNat ∧
                n = convOutLen l.toNat m.toNat) ∨
              (∃ dst a l b, i = .ngen dst a l b ∧ base = dst.toNat ∧ n = l.toNat) ∨
              (∃ dst a l b, i = .vadd dst a l b ∧ base = dst.toNat ∧ n = l.toNat) ∨
              (∃ dst max, i = .rsrun dst max ∧ base = dst.toNat ∧ n = max.toNat * s.rs.ch)) →
            s.sameOutside t base n ∧ ∀ j < n, t.mem.readWord (base + j) = none)))

/-- 40_common.md R150, R151, 20_memory.md R109: while a command is latched the host cannot disturb it.
A host access after which BUSY is still 1 leaves CMD, the ARGs, RESULTs, `rs` and DMEM as they were. -/
def Obligations.RunningCommandIsUndisturbed : Prop :=
  ∀ (a : Access) (s t : State), s.busy = true → hostAccess a s = .next t → t.busy = true →
    t.command = s.command ∧ t.result0 = s.result0 ∧ t.result1 = s.result1 ∧ t.rs = s.rs ∧
    t.mem = s.mem ∧ t.done = (s.done && t.done) ∧ t.params = s.params

/-- 60_exceptions.md R325: a Host step is never refused, and faults only by writing DMEM while
BUSY = 1. -/
def Obligations.HostFaultsExactlyOnBusyWrites : Prop :=
  ∀ (a : Access) (s : State),
    (∀ r, hostAccess a s ≠ .refused r) ∧
    (∀ f, hostAccess a s = .fault f ↔
      s.busy = true ∧ ∃ off v w, a = .write off 4 v ∧ w < s.params.memWords ∧
        off.toNat = 0x1000000 + 4 * w ∧ f = .hostWriteBusy w)

/-! ## Interrupt and reset -/

/-- 60_exceptions.md R330: irq is 1 exactly while IRQ_EN and DONE are both 1, as the host reads them. -/
def Obligations.InterruptIsALevel : Prop :=
  ∀ s : State, s.irq = (s.ctrlWord.getLsbD 2 && s.statusWord.getLsbD 1)

/-- 10_state.md R70: every register, `rs` field and DMEM cell right after a hardware reset, of an instance
with any parameters `p`. -/
def Obligations.ResetValues : Prop :=
  ∀ (p : Config.Params) (r : State), r = State.resetOf p →
    r.readReg .id = 0x4E524431 ∧ r.readReg .cap = capWord p ∧ r.irqEn = false ∧ r.busy = false ∧
    r.done = false ∧ r.err = false ∧ r.errcode = 0 ∧ r.statusWord = 0 ∧ r.cmd = 0 ∧
    r.arg0 = 0 ∧ r.arg1 = 0 ∧ r.arg2 = 0 ∧ r.arg3 = 0 ∧ r.arg4 = 0 ∧ r.result0 = 0 ∧ r.result1 = 0 ∧
    r.rs.cfg = false ∧ r.rs.pend = false ∧ r.rs.last = false ∧ r.rs.exh = false ∧ r.rs.ch = 0 ∧
    r.rs.srcRate = 0 ∧ r.rs.dstRate = 0 ∧ r.rs.posNum = 0 ∧ r.rs.srcPtr = 0 ∧ r.rs.srcRem = 0 ∧
    (r.rs.hist.length = p.chMax ∧
      ∀ h ∈ r.rs.hist, h.length = p.taps ∧ ∀ w ∈ h, w = 0x00000000) ∧
    (∀ w, r.mem.readWord w = none) ∧ r.irq = false

/-- The invariant holds at reset, for every instance with legal parameters. -/
def Obligations.ResetMeetsTheInvariant : Prop :=
  ∀ p : Config.Params, p.legal = true → (State.resetOf p).Inv

/-- Every step keeps the invariant: DMEM in canonical form, in its window and in whole words; ERRCODE
not 0 exactly when ERR = 1; no DONE or ERR while BUSY; `rs` unconfigured at its reset value or within
the bounds of 10_state.md R60 and R61. -/
def Obligations.EveryStepKeepsTheInvariant : Prop :=
  ∀ s t : State, s.Inv → step s = .next t → t.Inv

/-! ## Runs of a host program -/

/-- 70_reset_and_hazards.md R382: a host loop polling STATUS.BUSY terminates. In every run in which the
Engine is weakly fair, a host that stands at a `wait` (30_encoding.md R133) goes on to its next access, if
the Engine's step makes no model fault; by then that step has been made, once, and BUSY is 0. -/
def Obligations.PollingBusyTerminates : Prop :=
  ∀ (y : System) (sched : Nat → Agent) (t : State),
    y.host.prog[y.host.pc]? = some (.branch 0x00C 1 y.host.pc) → y.EngineFair sched →
    engineTurn y.block = .next t →
    ∃ k z, y.after sched k = .next z ∧ z.host.pc = y.host.pc + 1 ∧ z.host.prog = y.host.prog ∧
      z.block.busy = false ∧ z.block = { t with port := z.block.port }

/-! ## The ideal power -/

/-- 43_noise.md R231: for one finite word POWER is the ideal value rounded once; and of finite words the
ideal value is 0 exactly for a silent signal. That the empty signal has an ideal value, and that it is 0,
is the model's choice (log entry 23): R231's `(1/N)·Σ` has no value for N = 0. -/
def Obligations.PowerAgainstItsIdeal : Prop :=
  (∀ x : Word, isFinite32 x = true → powerOf [x] = rne32 (idealPower [x])) ∧
  (∀ xs : List Word, xs.all isFinite32 = true → (idealPower xs = 0 ↔ xs.all isZero32 = true))
end

