-- ==== Sys2Proof/Laws/Decode.lean ====
section
/-! SUPPORT. The fields of a command word as arithmetic, and what decoding can answer. -/

namespace Sys2Proof

theorem opcField_toNat (c : Word) : (opcField c).toNat = c.toNat % 256 := by
  simp [opcField, BitVec.extractLsb'_toNat]

theorem rsvField_toNat (c : Word) : (rsvField c).toNat = c.toNat / 256 := by
  have := c.isLt
  simp only [rsvField, BitVec.extractLsb'_toNat, Nat.shiftRight_eq_div_pow]
  omega

theorem rsvField_eq_zero_iff (c : Word) : rsvField c = 0 ↔ c.toNat / 256 = 0 := by
  rw [← rsvField_toNat]
  exact ⟨fun h => by rw [h]; rfl, fun h => BitVec.eq_of_toNat_eq (by simpa using h)⟩

/-- A word with RSV = 0 is its opcode. -/
theorem cmd_eq_of_fields {c : Word} {o : Nat} (h : rsvField c = 0) (ho : (opcField c).toNat = o) :
    c = BitVec.ofNat 32 o := by
  have h1 := (rsvField_eq_zero_iff c).1 h
  have h2 := opcField_toNat c
  refine BitVec.eq_of_toNat_eq ?_
  rw [BitVec.toNat_ofNat]
  omega

theorem decode_of_rsv_ne {c : Command} (h : rsvField c.cmd ≠ 0) : decode c = .error .reservedBits :=
  if_neg h

theorem decode_of_rsv_eq {c : Command} (h : rsvField c.cmd = 0) : decode c = decodeOpcode c :=
  if_pos h

/-- Everything an opcode can decode to. -/
theorem decodeOpcode_cases (c : Command) :
    ((opcField c.cmd).toNat = 0x00 ∧ decodeOpcode c = .ok .nop) ∨
    ((opcField c.cmd).toNat = 0x01 ∧
      decodeOpcode c = .ok (.fdes c.arg0 c.arg1 c.arg2 c.arg3 c.arg4)) ∨
    ((opcField c.cmd).toNat = 0x02 ∧
      decodeOpcode c = .ok (.conv c.arg0 c.arg1 c.arg2 c.arg3 c.arg4)) ∨
    ((opcField c.cmd).toNat = 0x03 ∧ decodeOpcode c = .ok (.power c.arg1 c.arg2)) ∨
    ((opcField c.cmd).toNat = 0x04 ∧ decodeOpcode c = .ok (.ngen c.arg0 c.arg1 c.arg2 c.arg3)) ∨
    ((opcField c.cmd).toNat = 0x05 ∧ decodeOpcode c = .ok (.vadd c.arg0 c.arg1 c.arg2 c.arg3)) ∨
    ((opcField c.cmd).toNat = 0x10 ∧ decodeOpcode c = .ok (.rscfg c.arg0 c.arg1 c.arg2)) ∨
    ((opcField c.cmd).toNat = 0x11 ∧ decodeOpcode c = .ok (.rsfeed c.arg1 c.arg2 c.arg3)) ∨
    ((opcField c.cmd).toNat = 0x12 ∧ decodeOpcode c = .ok (.rsrun c.arg0 c.arg2)) ∨
    (((6 ≤ (opcField c.cmd).toNat ∧ (opcField c.cmd).toNat ≤ 15) ∨ 19 ≤ (opcField c.cmd).toNat) ∧
      decodeOpcode c = .error .unassignedOpcode) := by
  unfold decodeOpcode
  have hl := (opcField c.cmd).isLt
  split <;> rename_i h <;> first | (simp [h]; done) | skip
  simp only [imp_false] at *
  iterate 9 refine .inr ?_
  exact ⟨by omega, by trivial⟩

end Sys2Proof
end

