-- ==== Sys2Proof/Laws/Float.lean ====
section
/-! SUPPORT. The soft-float primitives, each said once: rounding to an integer, the binade of a
magnitude, the fields and the value of an encoding. -/

namespace Sys2Proof.Machine

/-! ## Rounding to an integer -/

/-- `roundHalfEven` is a nearest integer, and even where two are equally near (00_scope.md R14). -/
theorem roundHalfEven_near (num : Nat) {den : Nat} (h : 0 < den) :
    2 * (roundHalfEven num den * den) ≤ 2 * num + den ∧
    2 * num ≤ 2 * (roundHalfEven num den * den) + den ∧
    ((2 * (roundHalfEven num den * den) = 2 * num + den ∨
      2 * num = 2 * (roundHalfEven num den * den) + den) → roundHalfEven num den % 2 = 0) := by
  have hdm := Nat.div_add_mod num den
  have hlt := Nat.mod_lt num h
  rw [Nat.mul_comm] at hdm
  unfold roundHalfEven
  dsimp only
  have hs : (num / den + 1) * den = num / den * den + den := Nat.succ_mul _ _
  split
  · omega
  · split
    · rw [hs]; omega
    · have hq : num / den % 2 = 0 ∨ num / den % 2 = 1 := by omega
      rcases hq with hq | hq <;> rw [hq]
      · rw [Nat.add_zero]; omega
      · rw [hs]; omega

/-- No integer is nearer than `roundHalfEven`, and an equally near other one means it is even. -/
theorem roundHalfEven_best (num : Nat) {den : Nat} (h : 0 < den) (j : ℤ) :
    |(roundHalfEven num den : ℤ) * den - num| ≤ |j * den - num| ∧
    (j ≠ roundHalfEven num den → |(roundHalfEven num den : ℤ) * den - num| = |j * den - num| →
      roundHalfEven num den % 2 = 0) := by
  obtain ⟨h1, h2, h3⟩ := roundHalfEven_near num h
  generalize roundHalfEven num den = q at *
  have hd : (0 : ℤ) < den := by exact_mod_cast h
  have e1 : 2 * ((q : ℤ) * den) ≤ 2 * num + den := by exact_mod_cast h1
  have e2 : (2 * num : ℤ) ≤ 2 * (q * den) + den := by exact_mod_cast h2
  have e3 : (2 * ((q : ℤ) * den) = 2 * num + den ∨ (2 * num : ℤ) = 2 * (q * den) + den) →
      q % 2 = 0 := fun h => h3 (by rcases h with h | h <;> [left; right] <;> exact_mod_cast h)
  rcases lt_trichotomy j (q : ℤ) with hj | hj | hj
  · have : (j + 1) * den ≤ (q : ℤ) * den := mul_le_mul_of_nonneg_right hj hd.le
    rw [add_mul, one_mul] at this
    rw [abs_of_nonpos (by omega : j * (den : ℤ) - num ≤ 0)]
    rcases abs_cases ((q : ℤ) * den - num) with ⟨h, _⟩ | ⟨h, _⟩ <;> rw [h] <;>
      exact ⟨by omega, fun _ he => e3 (by omega)⟩
  · exact ⟨by rw [hj], fun hne => absurd hj hne⟩
  · have : ((q : ℤ) + 1) * den ≤ j * den := mul_le_mul_of_nonneg_right hj hd.le
    rw [add_mul, one_mul] at this
    rw [abs_of_nonneg (by omega : 0 ≤ j * (den : ℤ) - num)]
    rcases abs_cases ((q : ℤ) * den - num) with ⟨h, _⟩ | ⟨h, _⟩ <;> rw [h] <;>
      exact ⟨by omega, fun _ he => e3 (by omega)⟩

/-! ## The binade of a magnitude -/

/-- `2^e ≤ num/den < 2^(e+1)` for `e = floorLog2 num den`. -/
theorem floorLog2_bounds {num den : Nat} (hn : 0 < num) (hd : 0 < den) :
    (2 : ℚ) ^ floorLog2 num den ≤ (num : ℚ) / den ∧
    (num : ℚ) / den < (2 : ℚ) ^ (floorLog2 num den + 1) := by
  have hdq : (0 : ℚ) < den := by exact_mod_cast hd
  have n1 : (2 : ℚ) ^ (num.log2 : ℤ) ≤ num := by
    rw [zpow_natCast]; exact_mod_cast Nat.log2_self_le (by omega)
  have n2 : (num : ℚ) < (2 : ℚ) ^ ((num.log2 : ℤ) + 1) := by
    rw [← Nat.cast_succ, zpow_natCast]; exact_mod_cast Nat.lt_log2_self
  have d1 : (2 : ℚ) ^ (den.log2 : ℤ) ≤ den := by
    rw [zpow_natCast]; exact_mod_cast Nat.log2_self_le (by omega)
  have d2 : (den : ℚ) < (2 : ℚ) ^ ((den.log2 : ℤ) + 1) := by
    rw [← Nat.cast_succ, zpow_natCast]; exact_mod_cast Nat.lt_log2_self
  have hup : (num : ℚ) / den < (2 : ℚ) ^ ((num.log2 : ℤ) - den.log2 + 1) := by
    rw [div_lt_iff₀ hdq]
    refine n2.trans_le ?_
    calc (2 : ℚ) ^ ((num.log2 : ℤ) + 1)
        = (2 : ℚ) ^ ((num.log2 : ℤ) - den.log2 + 1) * 2 ^ (den.log2 : ℤ) := by
          rw [← zpow_add₀ two_ne_zero]; congr 1; ring
      _ ≤ _ := mul_le_mul_of_nonneg_left d1 (by positivity)
  have hlo : (2 : ℚ) ^ ((num.log2 : ℤ) - den.log2 - 1) ≤ (num : ℚ) / den := by
    rw [le_div_iff₀ hdq]
    refine le_trans ?_ n1
    calc (2 : ℚ) ^ ((num.log2 : ℤ) - den.log2 - 1) * den
        ≤ (2 : ℚ) ^ ((num.log2 : ℤ) - den.log2 - 1) * 2 ^ ((den.log2 : ℤ) + 1) :=
          mul_le_mul_of_nonneg_left d2.le (by positivity)
      _ = _ := by rw [← zpow_add₀ two_ne_zero]; congr 1; ring
  have hcmp : ∀ e : ℤ, (den * 2 ^ e.toNat ≤ num * 2 ^ (-e).toNat) ↔
      (2 : ℚ) ^ e ≤ (num : ℚ) / den := by
    intro e
    rw [le_div_iff₀ hdq]
    rcases le_total 0 e with he | he
    · obtain ⟨k, rfl⟩ := Int.eq_ofNat_of_zero_le he
      have : (-(k : ℤ)).toNat = 0 := by omega
      rw [this, Int.toNat_natCast, zpow_natCast, mul_comm, pow_zero, mul_one]
      norm_cast
    · obtain ⟨k, rfl⟩ : ∃ k : ℕ, e = -(k : ℤ) := ⟨(-e).toNat, by omega⟩
      have : (-(k : ℤ)).toNat = 0 := by omega
      rw [this, neg_neg, Int.toNat_natCast, pow_zero, mul_one, zpow_neg, zpow_natCast,
        inv_mul_le_iff₀ (by positivity), mul_comm]
      norm_cast
  unfold floorLog2
  dsimp only
  split
  · rename_i h
    exact ⟨(hcmp _).1 h, hup⟩
  · rename_i h
    refine ⟨hlo, ?_⟩
    rw [hcmp, not_le] at h
    rwa [sub_add_cancel]

/-! ## Encodings -/

theorem binary32_infBits : binary32.infBits = 0x7F800000 := by decide

theorem binary64_infBits : binary64.infBits = 0x7FF0000000000000 := by decide

/-- The value of a magnitude's encoding, written as a quantum exponent `k` and a significand `m`: a
subnormal, a normal datum, or a significand that carried into the next binade. -/
theorem FloatFormat.val_of_quantum (f : FloatFormat) {k m : Nat}
    (hm : (k = 0 ∧ m < 2 ^ f.fracBits) ∨ (2 ^ f.fracBits ≤ m ∧ m ≤ 2 ^ (f.fracBits + 1)))
    (hfin : k * 2 ^ f.fracBits + m < f.infBits) :
    f.isFinite (k * 2 ^ f.fracBits + m) = true ∧
    f.val (k * 2 ^ f.fracBits + m) = (m : ℚ) * 2 ^ k / 2 ^ (f.bias + f.fracBits) * 2 := by
  have hF : 0 < 2 ^ f.fracBits := by positivity
  have hE : 0 < 2 ^ f.expBits := by positivity
  have hpow : 2 ^ (f.expBits + f.fracBits) = 2 ^ f.expBits * 2 ^ f.fracBits := pow_add _ _ _
  have hlt : k * 2 ^ f.fracBits + m < 2 ^ (f.expBits + f.fracBits) := by
    refine hfin.trans_le ?_
    unfold FloatFormat.infBits FloatFormat.expTop
    rw [hpow]
    exact Nat.mul_le_mul_right _ (Nat.sub_le _ _)
  have hsign : f.sign (k * 2 ^ f.fracBits + m) = false := by
    unfold FloatFormat.sign FloatFormat.signBit
    rw [Nat.div_eq_of_lt hlt]
    rfl
  have hexpo : ∀ n, n < 2 ^ (f.expBits + f.fracBits) → f.expo n = n / 2 ^ f.fracBits := by
    intro n hn
    unfold FloatFormat.expo
    refine Nat.mod_eq_of_lt ?_
    rw [Nat.div_lt_iff_lt_mul hF, ← hpow]
    exact hn
  have htop : ∀ n, n < f.infBits → n / 2 ^ f.fracBits < f.expTop := by
    intro n hn
    rw [Nat.div_lt_iff_lt_mul hF]
    exact hn
  have hval : ∀ e fr, fr < 2 ^ f.fracBits → k * 2 ^ f.fracBits + m = e * 2 ^ f.fracBits + fr →
      f.expo (k * 2 ^ f.fracBits + m) = e ∧ f.frac (k * 2 ^ f.fracBits + m) = fr := by
    intro e fr hfr he
    rw [hexpo _ hlt]
    unfold FloatFormat.frac
    rw [he]
    constructor
    · rw [Nat.mul_comm, Nat.mul_add_div hF, Nat.div_eq_of_lt hfr, Nat.add_zero]
    · rw [Nat.mul_comm, Nat.mul_add_mod, Nat.mod_eq_of_lt hfr]
  have key : ∀ e fr, f.expo (k * 2 ^ f.fracBits + m) = e → f.frac (k * 2 ^ f.fracBits + m) = fr →
      (if e = 0 then fr else 2 ^ f.fracBits + fr) * 2 ^ max e 1 = m * 2 ^ (k + 1) →
      f.isFinite (k * 2 ^ f.fracBits + m) = true ∧
      f.val (k * 2 ^ f.fracBits + m) = (m : ℚ) * 2 ^ k / 2 ^ (f.bias + f.fracBits) * 2 := by
    intro e fr he hfr hmag
    constructor
    · unfold FloatFormat.isFinite
      rw [hexpo _ hlt]
      have := htop _ hfin
      simp only [bne_iff_ne, ne_eq]
      omega
    · unfold FloatFormat.val FloatFormat.signif FloatFormat.scaleExp
      rw [hsign, he, hfr]
      dsimp only
      rw [hmag, Rat.mkRat_eq_div]
      push_cast
      rw [pow_succ]
      ring
  rcases hm with ⟨rfl, hm⟩ | ⟨hm1, hm2⟩
  · obtain ⟨a, b⟩ := hval 0 m hm (by ring)
    exact key 0 m a b (by simp)
  · rcases Nat.lt_or_ge m (2 ^ (f.fracBits + 1)) with h | h
    · obtain ⟨a, b⟩ := hval (k + 1) (m - 2 ^ f.fracBits) (by rw [pow_succ] at h; omega)
        (by rw [Nat.succ_mul]; omega)
      refine key _ _ a b ?_
      rw [if_neg (by omega), Nat.max_eq_left (by omega), Nat.add_sub_cancel' hm1]
    · obtain rfl : m = 2 ^ (f.fracBits + 1) := le_antisymm hm2 h
      obtain ⟨a, b⟩ := hval (k + 2) 0 hF (by rw [pow_succ]; ring)
      refine key _ _ a b ?_
      rw [if_neg (by omega), Nat.max_eq_left (by omega), Nat.add_zero]
      ring

end Sys2Proof.Machine
end

