-- ==== Sys2Proof/Laws/Memory.lean ====
section
/-! SUPPORT. Memory laws: read after write, the canonical form, the window and whole words, for bytes,
words and ranges. -/

namespace Sys2Proof.Machine

/-! ## Bytes -/

@[simp] theorem Memory.readByte_nil (k : Nat) : Memory.readByte [] k = none := rfl

@[simp] theorem Memory.readByte_writeByte_same (m : Memory) (k : Nat) (v : Byte) :
    (m.writeByte k v).readByte k = some v := by
  induction m with
  | nil => simp [Memory.writeByte, Memory.readByte]
  | cons c m ih =>
    obtain ⟨a, b⟩ := c
    simp only [Memory.writeByte]
    split
    · simp [Memory.readByte]
    · split
      · simp [Memory.readByte]
      · rename_i h1 h2
        simp [Memory.readByte, Ne.symm h2, ih]

theorem Memory.readByte_writeByte_other (m : Memory) {k j : Nat} (v : Byte) (h : j ≠ k) :
    (m.writeByte k v).readByte j = m.readByte j := by
  induction m with
  | nil => simp [Memory.writeByte, Memory.readByte, Ne.symm h]
  | cons c m ih =>
    obtain ⟨a, b⟩ := c
    simp only [Memory.writeByte]
    split
    · simp [Memory.readByte, Ne.symm h]
    · split
      · rename_i h2
        subst h2
        simp [Memory.readByte, Ne.symm h]
      · simp [Memory.readByte, ih]

@[simp] theorem Memory.readByte_eraseByte_same (m : Memory) (k : Nat) :
    (m.eraseByte k).readByte k = none := by
  induction m with
  | nil => rfl
  | cons c m ih =>
    obtain ⟨a, b⟩ := c
    simp only [Memory.eraseByte]
    split
    · exact ih
    · rename_i h
      simp [Memory.readByte, h, ih]

theorem Memory.readByte_eraseByte_other (m : Memory) {k j : Nat} (h : j ≠ k) :
    (m.eraseByte k).readByte j = m.readByte j := by
  induction m with
  | nil => rfl
  | cons c m ih =>
    obtain ⟨a, b⟩ := c
    simp only [Memory.eraseByte]
    split
    · rename_i h2
      subst h2
      simp [Memory.readByte, Ne.symm h, ih]
    · simp [Memory.readByte, ih]

/-! ## The canonical form -/

theorem Memory.risesFrom_mono {lo lo' : Nat} (h : lo' ≤ lo) {m : Memory}
    (hm : m.risesFrom lo = true) : m.risesFrom lo' = true := by
  cases m with
  | nil => rfl
  | cons c m =>
    obtain ⟨a, b⟩ := c
    simp only [Memory.risesFrom, Bool.and_eq_true, decide_eq_true_eq] at hm ⊢
    exact ⟨le_trans h hm.1, hm.2⟩

theorem Memory.risesFrom_writeByte {lo k : Nat} (v : Byte) {m : Memory}
    (hm : m.risesFrom lo = true) (hk : lo ≤ k) : (m.writeByte k v).risesFrom lo = true := by
  induction m generalizing lo with
  | nil => simp [Memory.writeByte, Memory.risesFrom, hk]
  | cons c m ih =>
    obtain ⟨a, b⟩ := c
    simp only [Memory.risesFrom, Bool.and_eq_true, decide_eq_true_eq] at hm
    simp only [Memory.writeByte]
    split
    · rename_i h
      simp [Memory.risesFrom, hk, hm.2]
      omega
    · split
      · rename_i h
        subst h
        simp [Memory.risesFrom, hk, hm.2]
      · simp only [Memory.risesFrom, Bool.and_eq_true, decide_eq_true_eq]
        exact ⟨hm.1, ih hm.2 (by omega)⟩

theorem Memory.risesFrom_eraseByte {lo : Nat} (k : Nat) {m : Memory}
    (hm : m.risesFrom lo = true) : (m.eraseByte k).risesFrom lo = true := by
  induction m generalizing lo with
  | nil => rfl
  | cons c m ih =>
    obtain ⟨a, b⟩ := c
    simp only [Memory.risesFrom, Bool.and_eq_true, decide_eq_true_eq] at hm
    simp only [Memory.eraseByte]
    split
    · exact Memory.risesFrom_mono (by omega) (ih hm.2)
    · simp only [Memory.risesFrom, Bool.and_eq_true, decide_eq_true_eq]
      exact ⟨hm.1, ih hm.2⟩

theorem Memory.wf_nil : Memory.wf [] = true := rfl

theorem Memory.wf_writeByte {m : Memory} (k : Nat) (v : Byte) (h : m.wf = true) :
    (m.writeByte k v).wf = true := Memory.risesFrom_writeByte v h (Nat.zero_le k)

theorem Memory.wf_eraseByte {m : Memory} (k : Nat) (h : m.wf = true) :
    (m.eraseByte k).wf = true := Memory.risesFrom_eraseByte k h

theorem Memory.wf_writeWord {m : Memory} (w : Nat) (v : Word) (h : m.wf = true) :
    (m.writeWord w v).wf = true :=
  Memory.wf_writeByte _ _ (Memory.wf_writeByte _ _ (Memory.wf_writeByte _ _ (Memory.wf_writeByte _ _ h)))

theorem Memory.wf_clearWord {m : Memory} (w : Nat) (h : m.wf = true) : (m.clearWord w).wf = true :=
  Memory.wf_eraseByte _ (Memory.wf_eraseByte _ (Memory.wf_eraseByte _ (Memory.wf_eraseByte _ h)))

theorem Memory.wf_writeWords {m : Memory} (base : Nat) (vs : List Word) (h : m.wf = true) :
    (m.writeWords base vs).wf = true := by
  induction vs generalizing m base with
  | nil => exact h
  | cons v vs ih => exact ih (base + 1) (Memory.wf_writeWord base v h)

theorem Memory.wf_clearWords {m : Memory} (base n : Nat) (h : m.wf = true) :
    (m.clearWords base n).wf = true := by
  induction n generalizing m base with
  | zero => exact h
  | succ n ih => exact ih (base + 1) (Memory.wf_clearWord base h)

/-- Two canonical memories that read alike are equal data. -/
theorem Memory.readByte_eq_none_of_risesFrom {lo k : Nat} {m : Memory} (hm : m.risesFrom lo = true)
    (hk : k < lo) : m.readByte k = none := by
  induction m generalizing lo with
  | nil => rfl
  | cons c m ih =>
    obtain ⟨a, b⟩ := c
    simp only [Memory.risesFrom, Bool.and_eq_true, decide_eq_true_eq] at hm
    simp only [Memory.readByte]
    rw [if_neg (by omega)]
    exact ih hm.2 (by omega)

theorem Memory.ext_of_risesFrom {lo : Nat} {m m' : Memory} (hm : m.risesFrom lo = true)
    (hm' : m'.risesFrom lo = true) (h : ∀ k, m.readByte k = m'.readByte k) : m = m' := by
  induction m generalizing lo m' with
  | nil =>
    cases m' with
    | nil => rfl
    | cons c m' =>
      have := h c.1
      simp [Memory.readByte] at this
  | cons c m ih =>
    obtain ⟨a, b⟩ := c
    cases m' with
    | nil =>
      have := h a
      simp [Memory.readByte] at this
    | cons c' m' =>
      obtain ⟨a', b'⟩ := c'
      simp only [Memory.risesFrom, Bool.and_eq_true, decide_eq_true_eq] at hm hm'
      have haa : a = a' := by
        rcases Nat.lt_trichotomy a a' with hlt | heq | hgt
        · have h1 := h a
          simp only [Memory.readByte, if_true] at h1
          rw [if_neg (by omega),
            Memory.readByte_eq_none_of_risesFrom hm'.2 (by omega)] at h1
          exact absurd h1 (by simp)
        · exact heq
        · have h1 := h a'
          simp only [Memory.readByte, if_true] at h1
          rw [if_neg (by omega),
            Memory.readByte_eq_none_of_risesFrom hm.2 (by omega)] at h1
          exact absurd h1.symm (by simp)
      subst haa
      have hb : b = b' := by simpa [Memory.readByte] using h a
      subst hb
      congr 1
      refine ih hm.2 hm'.2 fun k => ?_
      by_cases hk : a = k
      · subst hk
        rw [Memory.readByte_eq_none_of_risesFrom hm.2 (by omega),
          Memory.readByte_eq_none_of_risesFrom hm'.2 (by omega)]
      · simpa [Memory.readByte, hk] using h k

/-! ## Words -/

theorem wordOfLanes_byteLane (v : Word) :
    wordOfLanes (byteLane v 0) (byteLane v 1) (byteLane v 2) (byteLane v 3) = v := by
  apply BitVec.eq_of_toNat_eq
  simp only [wordOfLanes, byteLane, BitVec.toNat_append, BitVec.extractLsb'_toNat,
    Nat.shiftRight_eq_div_pow]
  have := v.isLt
  rw [← Nat.shiftLeft_add_eq_or_of_lt (by omega), ← Nat.shiftLeft_add_eq_or_of_lt (by omega),
    ← Nat.shiftLeft_add_eq_or_of_lt (by omega)]
  simp only [Nat.shiftLeft_eq]
  omega

/-- A byte is one of the four of word `w`. -/
abbrev inWord (w k : Nat) : Prop := wordAddr w ≤ k ∧ k < wordAddr w + 4

theorem Memory.readByte_writeWord_other (m : Memory) {w k : Nat} (v : Word) (h : ¬ inWord w k) :
    (m.writeWord w v).readByte k = m.readByte k := by
  have h0 : k ≠ wordAddr w := by rintro rfl; exact h ⟨by omega, by omega⟩
  have h1 : k ≠ wordAddr w + 1 := by rintro rfl; exact h ⟨by omega, by omega⟩
  have h2 : k ≠ wordAddr w + 2 := by rintro rfl; exact h ⟨by omega, by omega⟩
  have h3 : k ≠ wordAddr w + 3 := by rintro rfl; exact h ⟨by omega, by omega⟩
  simp only [Memory.writeWord]
  rw [Memory.readByte_writeByte_other _ _ h3, Memory.readByte_writeByte_other _ _ h2,
    Memory.readByte_writeByte_other _ _ h1, Memory.readByte_writeByte_other _ _ h0]

theorem Memory.readByte_writeWord_lane (m : Memory) (w : Nat) (v : Word) {j : Nat} (h : j < 4) :
    (m.writeWord w v).readByte (wordAddr w + j) = some (byteLane v j) := by
  simp only [Memory.writeWord]
  have h' : j = 0 ∨ j = 1 ∨ j = 2 ∨ j = 3 := by omega
  rcases h' with rfl | rfl | rfl | rfl
  · rw [Memory.readByte_writeByte_other _ _ (by omega), Memory.readByte_writeByte_other _ _ (by omega),
      Memory.readByte_writeByte_other _ _ (by omega)]
    simp
  · rw [Memory.readByte_writeByte_other _ _ (by omega), Memory.readByte_writeByte_other _ _ (by omega)]
    simp
  · rw [Memory.readByte_writeByte_other _ _ (by omega)]
    simp
  · simp

theorem Memory.readWord_congr {m m' : Memory} {w : Nat}
    (h : ∀ k, inWord w k → m'.readByte k = m.readByte k) : m'.readWord w = m.readWord w := by
  simp only [Memory.readWord]
  rw [h (wordAddr w) ⟨by omega, by omega⟩, h (wordAddr w + 1) ⟨by omega, by omega⟩,
    h (wordAddr w + 2) ⟨by omega, by omega⟩, h (wordAddr w + 3) ⟨by omega, by omega⟩]

/-- The bytes of different words are different. -/
theorem not_inWord_of_ne {w w' k : Nat} (hw : w ≠ w') (h : inWord w k) : ¬ inWord w' k := by
  rintro ⟨h1, h2⟩
  obtain ⟨h3, h4⟩ := h
  simp only [wordAddr] at *
  omega

@[simp] theorem Memory.readWord_writeWord_same (m : Memory) (w : Nat) (v : Word) :
    (m.writeWord w v).readWord w = some v := by
  have h0 := m.readByte_writeWord_lane w v (j := 0) (by omega)
  have h1 := m.readByte_writeWord_lane w v (j := 1) (by omega)
  have h2 := m.readByte_writeWord_lane w v (j := 2) (by omega)
  have h3 := m.readByte_writeWord_lane w v (j := 3) (by omega)
  rw [Nat.add_zero] at h0
  simp only [Memory.readWord, h0, h1, h2, h3, wordOfLanes_byteLane]

theorem Memory.readWord_writeWord_other (m : Memory) {w w' : Nat} (v : Word) (h : w' ≠ w) :
    (m.writeWord w v).readWord w' = m.readWord w' :=
  Memory.readWord_congr fun _ hk => m.readByte_writeWord_other v (not_inWord_of_ne h hk)

theorem Memory.readByte_clearWord_other (m : Memory) {w k : Nat} (h : ¬ inWord w k) :
    (m.clearWord w).readByte k = m.readByte k := by
  have h0 : k ≠ wordAddr w := by rintro rfl; exact h ⟨by omega, by omega⟩
  have h1 : k ≠ wordAddr w + 1 := by rintro rfl; exact h ⟨by omega, by omega⟩
  have h2 : k ≠ wordAddr w + 2 := by rintro rfl; exact h ⟨by omega, by omega⟩
  have h3 : k ≠ wordAddr w + 3 := by rintro rfl; exact h ⟨by omega, by omega⟩
  simp only [Memory.clearWord]
  rw [Memory.readByte_eraseByte_other _ h3, Memory.readByte_eraseByte_other _ h2,
    Memory.readByte_eraseByte_other _ h1, Memory.readByte_eraseByte_other _ h0]

theorem Memory.readByte_clearWord_lane (m : Memory) (w : Nat) {j : Nat} (h : j < 4) :
    (m.clearWord w).readByte (wordAddr w + j) = none := by
  simp only [Memory.clearWord]
  have h' : j = 0 ∨ j = 1 ∨ j = 2 ∨ j = 3 := by omega
  rcases h' with rfl | rfl | rfl | rfl
  · rw [Memory.readByte_eraseByte_other _ (by omega), Memory.readByte_eraseByte_other _ (by omega),
      Memory.readByte_eraseByte_other _ (by omega)]
    simp
  · rw [Memory.readByte_eraseByte_other _ (by omega), Memory.readByte_eraseByte_other _ (by omega)]
    simp
  · rw [Memory.readByte_eraseByte_other _ (by omega)]
    simp
  · simp

@[simp] theorem Memory.readWord_clearWord_same (m : Memory) (w : Nat) :
    (m.clearWord w).readWord w = none := by
  have h0 := m.readByte_clearWord_lane w (j := 0) (by omega)
  rw [Nat.add_zero] at h0
  simp [Memory.readWord, h0]

theorem Memory.readWord_clearWord_other (m : Memory) {w w' : Nat} (h : w' ≠ w) :
    (m.clearWord w).readWord w' = m.readWord w' :=
  Memory.readWord_congr fun _ hk => m.readByte_clearWord_other (not_inWord_of_ne h hk)

/-! ## Ranges -/

/-- A byte lies outside the words `base .. base + n - 1`. -/
abbrev outsideRange (base n k : Nat) : Prop := k < wordAddr base ∨ wordAddr (base + n) ≤ k

theorem Memory.readByte_writeWords_outside (m : Memory) {base k : Nat} (vs : List Word)
    (h : outsideRange base vs.length k) : (m.writeWords base vs).readByte k = m.readByte k := by
  induction vs generalizing m base with
  | nil => rfl
  | cons v vs ih =>
    simp only [List.length_cons, outsideRange, wordAddr] at h
    simp only [Memory.writeWords]
    rw [ih _ (by simp only [outsideRange, wordAddr]; omega),
      Memory.readByte_writeWord_other _ _ (by simp only [inWord, wordAddr]; omega)]

theorem Memory.readWord_writeWords_before (m : Memory) {base w : Nat} (vs : List Word)
    (h : w < base) : (m.writeWords base vs).readWord w = m.readWord w :=
  Memory.readWord_congr fun k hk => m.readByte_writeWords_outside vs (by
    simp only [inWord, wordAddr, outsideRange] at *
    omega)

theorem Memory.readWord_writeWords_outside (m : Memory) {base w : Nat} (vs : List Word)
    (h : w < base ∨ base + vs.length ≤ w) : (m.writeWords base vs).readWord w = m.readWord w :=
  Memory.readWord_congr fun k hk => m.readByte_writeWords_outside vs (by
    simp only [inWord, wordAddr, outsideRange] at *
    omega)

theorem Memory.readWord_writeWords_inside (m : Memory) (base : Nat) (vs : List Word) {i : Nat}
    (h : i < vs.length) : (m.writeWords base vs).readWord (base + i) = some vs[i] := by
  induction vs generalizing m base i with
  | nil => simp at h
  | cons v vs ih =>
    simp only [Memory.writeWords]
    cases i with
    | zero => rw [Nat.add_zero, Memory.readWord_writeWords_before _ _ (by omega)]; simp
    | succ i =>
      have := ih (m.writeWord base v) (base + 1) (i := i) (by simpa using h)
      rw [show base + (i + 1) = base + 1 + i by omega, this]
      simp

theorem Memory.readByte_clearWords_outside (m : Memory) {base n k : Nat}
    (h : outsideRange base n k) : (m.clearWords base n).readByte k = m.readByte k := by
  induction n generalizing m base with
  | zero => rfl
  | succ n ih =>
    simp only [outsideRange, wordAddr] at h
    simp only [Memory.clearWords]
    rw [ih _ (by simp only [outsideRange, wordAddr]; omega),
      Memory.readByte_clearWord_other _ (by simp only [inWord, wordAddr]; omega)]

theorem Memory.readByte_clearWords_inside (m : Memory) {base n k : Nat} (h1 : wordAddr base ≤ k)
    (h2 : k < wordAddr (base + n)) : (m.clearWords base n).readByte k = none := by
  induction n generalizing m base with
  | zero => simp only [wordAddr] at *; omega
  | succ n ih =>
    simp only [Memory.clearWords]
    by_cases hk : wordAddr (base + 1) ≤ k
    · exact ih _ hk (by simp only [wordAddr] at *; omega)
    · rw [Memory.readByte_clearWords_outside _ (Or.inl (by omega))]
      obtain ⟨j, rfl⟩ := Nat.exists_eq_add_of_le h1
      exact m.readByte_clearWord_lane base (by simp only [wordAddr] at *; omega)

theorem Memory.readWord_clearWords_inside (m : Memory) {base n i : Nat} (h : i < n) :
    (m.clearWords base n).readWord (base + i) = none := by
  have := m.readByte_clearWords_inside (base := base) (n := n) (k := wordAddr (base + i))
    (by simp only [wordAddr]; omega) (by simp only [wordAddr]; omega)
  simp [Memory.readWord, this]

/-! ## The window and whole words -/

theorem Memory.inWindow_nil (p : Config.Params) : Memory.inWindow p [] := by
  intro k h
  simp at h

theorem Memory.wholeWords_nil : Memory.wholeWords [] := by
  intro w j _
  simp

theorem Memory.Sound_nil (p : Config.Params) : Memory.Sound p [] :=
  ⟨Memory.wf_nil, Memory.inWindow_nil p, Memory.wholeWords_nil⟩

theorem Memory.inWindow_writeWord {p : Config.Params} {m : Memory} {w : Nat} (v : Word)
    (h : m.inWindow p) (hw : w < p.memWords) : (m.writeWord w v).inWindow p := by
  intro k hk
  by_cases hin : inWord w k
  · simp only [inWord, wordAddr] at hin
    omega
  · rw [Memory.readByte_writeWord_other _ _ hin] at hk
    exact h k hk

theorem Memory.wholeWords_writeWord {m : Memory} (w : Nat) (v : Word) (h : m.wholeWords) :
    (m.writeWord w v).wholeWords := by
  intro w' j hj
  by_cases hw : w' = w
  · subst hw
    have h0 := m.readByte_writeWord_lane w' v (j := 0) (by omega)
    rw [Nat.add_zero] at h0
    rw [Memory.readByte_writeWord_lane _ _ _ hj, h0]
    simp
  · rw [Memory.readByte_writeWord_other _ _ (not_inWord_of_ne hw ⟨by omega, by omega⟩),
      Memory.readByte_writeWord_other _ _ (not_inWord_of_ne hw ⟨by omega, by omega⟩)]
    exact h w' j hj

theorem Memory.Sound_writeWord {p : Config.Params} {m : Memory} {w : Nat} (v : Word)
    (h : m.Sound p) (hw : w < p.memWords) : (m.writeWord w v).Sound p :=
  ⟨Memory.wf_writeWord w v h.wf, Memory.inWindow_writeWord v h.window hw,
    Memory.wholeWords_writeWord w v h.words⟩

/-- Writing a range inside DMEM keeps DMEM sound. -/
theorem Memory.Sound_writeWords {p : Config.Params} {m : Memory} {base : Nat} (vs : List Word)
    (h : m.Sound p) (hr : vs = [] ∨ base + vs.length ≤ p.memWords) : (m.writeWords base vs).Sound p := by
  induction vs generalizing m base with
  | nil => exact h
  | cons v vs ih =>
    have hr' : base + (vs.length + 1) ≤ p.memWords := by simpa using hr
    exact ih (Memory.Sound_writeWord v h (by omega)) (Or.inr (by omega))

theorem Memory.Sound_clearWord {p : Config.Params} {m : Memory} (w : Nat) (h : m.Sound p) :
    (m.clearWord w).Sound p := by
  refine ⟨Memory.wf_clearWord w h.wf, fun k hk => ?_, fun w' j hj => ?_⟩
  · by_cases hin : inWord w k
    · obtain ⟨j, rfl⟩ := Nat.exists_eq_add_of_le hin.1
      rw [Memory.readByte_clearWord_lane _ _ (by simp only [inWord] at hin; omega)] at hk
      exact absurd rfl hk
    · rw [Memory.readByte_clearWord_other _ hin] at hk
      exact h.window k hk
  · by_cases hw : w' = w
    · subst hw
      have h0 := m.readByte_clearWord_lane w' (j := 0) (by omega)
      rw [Nat.add_zero] at h0
      rw [Memory.readByte_clearWord_lane _ _ hj, h0]
    · rw [Memory.readByte_clearWord_other _ (not_inWord_of_ne hw ⟨by omega, by omega⟩),
        Memory.readByte_clearWord_other _ (not_inWord_of_ne hw ⟨by omega, by omega⟩)]
      exact h.words w' j hj

/-- Emptying a range keeps DMEM sound. -/
theorem Memory.Sound_clearWords {p : Config.Params} {m : Memory} (base n : Nat) (h : m.Sound p) :
    (m.clearWords base n).Sound p := by
  induction n generalizing m base with
  | zero => exact h
  | succ n ih => exact ih (base + 1) (Memory.Sound_clearWord base h)

/-! ## Reading ranges -/

/-- What a successful range read returns: the words in index order. -/
theorem Memory.readWords_ok {m : Memory} {base n : Nat} {vs : List Word}
    (h : m.readWords base n = .ok vs) :
    vs.length = n ∧ ∀ i (hi : i < vs.length), m.readWord (base + i) = some vs[i] := by
  induction n generalizing base vs with
  | zero => simp only [Memory.readWords, Except.ok.injEq] at h; subst h; simp
  | succ n ih =>
    simp only [Memory.readWords] at h
    split at h
    · exact absurd h (by simp)
    · rename_i v hv
      split at h
      · rename_i vs' hvs
        simp only [Except.ok.injEq] at h
        subst h
        obtain ⟨hl, hw⟩ := ih hvs
        refine ⟨by simp [hl], fun i hi => ?_⟩
        cases i with
        | zero => simpa using hv
        | succ i =>
          have := hw i (by simpa using hi)
          rw [show base + (i + 1) = base + 1 + i by omega, this]
          simp
      · exact absurd h (by simp)

/-- A range whose words all hold values is read. -/
theorem Memory.readWords_of_holds {m : Memory} {base : Nat} {vs : List Word}
    (h : ∀ i (hi : i < vs.length), m.readWord (base + i) = some vs[i]) :
    m.readWords base vs.length = .ok vs := by
  induction vs generalizing base with
  | nil => rfl
  | cons v vs ih =>
    have h0 : m.readWord base = some v := h 0 (Nat.succ_pos _)
    have h1 := ih (base := base + 1) fun i hi => by
      have := h (i + 1) (by simpa using hi)
      rw [show base + 1 + i = base + (i + 1) by omega, this]
      simp
    simp [Memory.readWords, h0, h1]

/-- A failing range read names the first word that holds no value. -/
theorem Memory.readWords_error {m : Memory} {base n w : Nat}
    (h : m.readWords base n = .error w) :
    base ≤ w ∧ w < base + n ∧ m.readWord w = none ∧
      ∀ u, base ≤ u → u < w → m.readWord u ≠ none := by
  induction n generalizing base with
  | zero => simp [Memory.readWords] at h
  | succ n ih =>
    simp only [Memory.readWords] at h
    split at h
    · rename_i hn
      simp only [Except.error.injEq] at h
      subst h
      exact ⟨le_refl _, by omega, hn, fun u h1 h2 => by omega⟩
    · rename_i v hv
      split at h
      · exact absurd h (by simp)
      · rename_i w' hw'
        simp only [Except.error.injEq] at h
        subst h
        obtain ⟨h1, h2, h3, h4⟩ := ih hw'
        refine ⟨by omega, by omega, h3, fun u hu1 hu2 => ?_⟩
        rcases Nat.lt_or_ge base u with hlt | hge
        · exact h4 u (by omega) hu2
        · have : u = base := by omega
          subst this
          simp [hv]

/-- What a successful pair read returns. -/
theorem Memory.readPairs_ok {m : Memory} {a b n : Nat} {ps : List (Word × Word)}
    (h : m.readPairs a b n = .ok ps) :
    ps.length = n ∧ ∀ i (hi : i < ps.length),
      m.readWord (a + i) = some ps[i].1 ∧ m.readWord (b + i) = some ps[i].2 := by
  induction n generalizing a b ps with
  | zero => simp only [Memory.readPairs, Except.ok.injEq] at h; subst h; simp
  | succ n ih =>
    simp only [Memory.readPairs] at h
    split at h
    · exact absurd h (by simp)
    · rename_i x hx
      split at h
      · exact absurd h (by simp)
      · rename_i y hy
        split at h
        · rename_i ps' hps
          simp only [Except.ok.injEq] at h
          subst h
          obtain ⟨hl, hw⟩ := ih hps
          refine ⟨by simp [hl], fun i hi => ?_⟩
          cases i with
          | zero => exact ⟨by simpa using hx, by simpa using hy⟩
          | succ i =>
            have := hw i (by simpa using hi)
            rw [show a + (i + 1) = a + 1 + i by omega, show b + (i + 1) = b + 1 + i by omega]
            simpa using this
        · exact absurd h (by simp)

/-- Two buffers whose words all hold values are read in pairs. -/
theorem Memory.readPairs_of_holds {m : Memory} {a b : Nat} {xs ys : List Word}
    (hl : ys.length = xs.length)
    (hx : ∀ i (hi : i < xs.length), m.readWord (a + i) = some xs[i])
    (hy : ∀ i (hi : i < ys.length), m.readWord (b + i) = some ys[i]) :
    m.readPairs a b xs.length = .ok (xs.zip ys) := by
  induction xs generalizing a b ys with
  | nil => rfl
  | cons x xs ih =>
    cases ys with
    | nil => simp at hl
    | cons y ys =>
      have hx0 : m.readWord a = some x := hx 0 (Nat.succ_pos _)
      have hy0 : m.readWord b = some y := hy 0 (Nat.succ_pos _)
      have h1 := ih (a := a + 1) (b := b + 1) (ys := ys) (by simpa using hl)
        (fun i hi => by
          have := hx (i + 1) (by simpa using hi)
          rw [show a + 1 + i = a + (i + 1) by omega, this]
          simp)
        (fun i hi => by
          have := hy (i + 1) (by simpa using hi)
          rw [show b + 1 + i = b + (i + 1) by omega, this]
          simp)
      simp [Memory.readPairs, hx0, hy0, h1]

end Sys2Proof.Machine
end

