-- ==== Sys2Proof/Laws/State.lean ====
section
/-! SUPPORT. One lemma per field per update of the state, so that no proof unfolds a record update. -/

namespace Sys2Proof.Machine

variable (s : State)

/-! `State.complete` -/

@[simp] theorem State.complete_irqEn (r0 r1 : Word) : (s.complete r0 r1).irqEn = s.irqEn := rfl
@[simp] theorem State.complete_busy (r0 r1 : Word) : (s.complete r0 r1).busy = false := rfl
@[simp] theorem State.complete_done (r0 r1 : Word) : (s.complete r0 r1).done = true := rfl
@[simp] theorem State.complete_err (r0 r1 : Word) : (s.complete r0 r1).err = s.err := rfl
@[simp] theorem State.complete_errcode (r0 r1 : Word) : (s.complete r0 r1).errcode = s.errcode := rfl
@[simp] theorem State.complete_cmd (r0 r1 : Word) : (s.complete r0 r1).cmd = s.cmd := rfl
@[simp] theorem State.complete_arg0 (r0 r1 : Word) : (s.complete r0 r1).arg0 = s.arg0 := rfl
@[simp] theorem State.complete_arg1 (r0 r1 : Word) : (s.complete r0 r1).arg1 = s.arg1 := rfl
@[simp] theorem State.complete_arg2 (r0 r1 : Word) : (s.complete r0 r1).arg2 = s.arg2 := rfl
@[simp] theorem State.complete_arg3 (r0 r1 : Word) : (s.complete r0 r1).arg3 = s.arg3 := rfl
@[simp] theorem State.complete_arg4 (r0 r1 : Word) : (s.complete r0 r1).arg4 = s.arg4 := rfl
@[simp] theorem State.complete_result0 (r0 r1 : Word) : (s.complete r0 r1).result0 = r0 := rfl
@[simp] theorem State.complete_result1 (r0 r1 : Word) : (s.complete r0 r1).result1 = r1 := rfl
@[simp] theorem State.complete_rs (r0 r1 : Word) : (s.complete r0 r1).rs = s.rs := rfl
@[simp] theorem State.complete_mem (r0 r1 : Word) : (s.complete r0 r1).mem = s.mem := rfl
@[simp] theorem State.complete_params (r0 r1 : Word) : (s.complete r0 r1).params = s.params := rfl
@[simp] theorem State.complete_inputs (r0 r1 : Word) : (s.complete r0 r1).inputs = s.inputs := rfl
@[simp] theorem State.complete_port (r0 r1 : Word) : (s.complete r0 r1).port = s.port := rfl
@[simp] theorem State.complete_draws (r0 r1 : Word) : (s.complete r0 r1).draws = s.draws := rfl

/-! `State.completeError` -/

@[simp] theorem State.completeError_irqEn (e : ErrCode) : (s.completeError e).irqEn = s.irqEn := rfl
@[simp] theorem State.completeError_busy (e : ErrCode) : (s.completeError e).busy = false := rfl
@[simp] theorem State.completeError_done (e : ErrCode) : (s.completeError e).done = true := rfl
@[simp] theorem State.completeError_err (e : ErrCode) : (s.completeError e).err = true := rfl
@[simp] theorem State.completeError_errcode (e : ErrCode) : (s.completeError e).errcode = e.code := rfl
@[simp] theorem State.completeError_cmd (e : ErrCode) : (s.completeError e).cmd = s.cmd := rfl
@[simp] theorem State.completeError_arg0 (e : ErrCode) : (s.completeError e).arg0 = s.arg0 := rfl
@[simp] theorem State.completeError_arg1 (e : ErrCode) : (s.completeError e).arg1 = s.arg1 := rfl
@[simp] theorem State.completeError_arg2 (e : ErrCode) : (s.completeError e).arg2 = s.arg2 := rfl
@[simp] theorem State.completeError_arg3 (e : ErrCode) : (s.completeError e).arg3 = s.arg3 := rfl
@[simp] theorem State.completeError_arg4 (e : ErrCode) : (s.completeError e).arg4 = s.arg4 := rfl
@[simp] theorem State.completeError_result0 (e : ErrCode) : (s.completeError e).result0 = 0 := rfl
@[simp] theorem State.completeError_result1 (e : ErrCode) : (s.completeError e).result1 = 0 := rfl
@[simp] theorem State.completeError_rs (e : ErrCode) : (s.completeError e).rs = s.rs := rfl
@[simp] theorem State.completeError_mem (e : ErrCode) : (s.completeError e).mem = s.mem := rfl
@[simp] theorem State.completeError_params (e : ErrCode) : (s.completeError e).params = s.params := rfl
@[simp] theorem State.completeError_inputs (e : ErrCode) : (s.completeError e).inputs = s.inputs := rfl
@[simp] theorem State.completeError_port (e : ErrCode) : (s.completeError e).port = s.port := rfl
@[simp] theorem State.completeError_draws (e : ErrCode) : (s.completeError e).draws = s.draws := rfl

/-! `State.store` -/

@[simp] theorem State.store_irqEn (base : Nat) (vs : List Word) : (s.store base vs).irqEn = s.irqEn := rfl
@[simp] theorem State.store_busy (base : Nat) (vs : List Word) : (s.store base vs).busy = s.busy := rfl
@[simp] theorem State.store_done (base : Nat) (vs : List Word) : (s.store base vs).done = s.done := rfl
@[simp] theorem State.store_err (base : Nat) (vs : List Word) : (s.store base vs).err = s.err := rfl
@[simp] theorem State.store_errcode (base : Nat) (vs : List Word) : (s.store base vs).errcode = s.errcode := rfl
@[simp] theorem State.store_cmd (base : Nat) (vs : List Word) : (s.store base vs).cmd = s.cmd := rfl
@[simp] theorem State.store_arg0 (base : Nat) (vs : List Word) : (s.store base vs).arg0 = s.arg0 := rfl
@[simp] theorem State.store_arg1 (base : Nat) (vs : List Word) : (s.store base vs).arg1 = s.arg1 := rfl
@[simp] theorem State.store_arg2 (base : Nat) (vs : List Word) : (s.store base vs).arg2 = s.arg2 := rfl
@[simp] theorem State.store_arg3 (base : Nat) (vs : List Word) : (s.store base vs).arg3 = s.arg3 := rfl
@[simp] theorem State.store_arg4 (base : Nat) (vs : List Word) : (s.store base vs).arg4 = s.arg4 := rfl
@[simp] theorem State.store_result0 (base : Nat) (vs : List Word) : (s.store base vs).result0 = s.result0 := rfl
@[simp] theorem State.store_result1 (base : Nat) (vs : List Word) : (s.store base vs).result1 = s.result1 := rfl
@[simp] theorem State.store_rs (base : Nat) (vs : List Word) : (s.store base vs).rs = s.rs := rfl
@[simp] theorem State.store_mem (base : Nat) (vs : List Word) : (s.store base vs).mem = s.mem.writeWords base vs := rfl
@[simp] theorem State.store_params (base : Nat) (vs : List Word) : (s.store base vs).params = s.params := rfl
@[simp] theorem State.store_inputs (base : Nat) (vs : List Word) : (s.store base vs).inputs = s.inputs := rfl
@[simp] theorem State.store_port (base : Nat) (vs : List Word) : (s.store base vs).port = s.port := rfl
@[simp] theorem State.store_draws (base : Nat) (vs : List Word) : (s.store base vs).draws = s.draws := rfl

/-! `State.draw` -/

@[simp] theorem State.draw_irqEn (n : Nat) : (s.draw n).irqEn = s.irqEn := rfl
@[simp] theorem State.draw_busy (n : Nat) : (s.draw n).busy = s.busy := rfl
@[simp] theorem State.draw_done (n : Nat) : (s.draw n).done = s.done := rfl
@[simp] theorem State.draw_err (n : Nat) : (s.draw n).err = s.err := rfl
@[simp] theorem State.draw_errcode (n : Nat) : (s.draw n).errcode = s.errcode := rfl
@[simp] theorem State.draw_cmd (n : Nat) : (s.draw n).cmd = s.cmd := rfl
@[simp] theorem State.draw_arg0 (n : Nat) : (s.draw n).arg0 = s.arg0 := rfl
@[simp] theorem State.draw_arg1 (n : Nat) : (s.draw n).arg1 = s.arg1 := rfl
@[simp] theorem State.draw_arg2 (n : Nat) : (s.draw n).arg2 = s.arg2 := rfl
@[simp] theorem State.draw_arg3 (n : Nat) : (s.draw n).arg3 = s.arg3 := rfl
@[simp] theorem State.draw_arg4 (n : Nat) : (s.draw n).arg4 = s.arg4 := rfl
@[simp] theorem State.draw_result0 (n : Nat) : (s.draw n).result0 = s.result0 := rfl
@[simp] theorem State.draw_result1 (n : Nat) : (s.draw n).result1 = s.result1 := rfl
@[simp] theorem State.draw_rs (n : Nat) : (s.draw n).rs = s.rs := rfl
@[simp] theorem State.draw_mem (n : Nat) : (s.draw n).mem = s.mem := rfl
@[simp] theorem State.draw_params (n : Nat) : (s.draw n).params = s.params := rfl
@[simp] theorem State.draw_inputs (n : Nat) : (s.draw n).inputs = s.inputs := rfl
@[simp] theorem State.draw_port (n : Nat) : (s.draw n).port = s.port := rfl
@[simp] theorem State.draw_draws (n : Nat) : (s.draw n).draws = s.draws + n := rfl

/-! `State.setRs` -/

@[simp] theorem State.setRs_irqEn (rs : Resampler) : (s.setRs rs).irqEn = s.irqEn := rfl
@[simp] theorem State.setRs_busy (rs : Resampler) : (s.setRs rs).busy = s.busy := rfl
@[simp] theorem State.setRs_done (rs : Resampler) : (s.setRs rs).done = s.done := rfl
@[simp] theorem State.setRs_err (rs : Resampler) : (s.setRs rs).err = s.err := rfl
@[simp] theorem State.setRs_errcode (rs : Resampler) : (s.setRs rs).errcode = s.errcode := rfl
@[simp] theorem State.setRs_cmd (rs : Resampler) : (s.setRs rs).cmd = s.cmd := rfl
@[simp] theorem State.setRs_arg0 (rs : Resampler) : (s.setRs rs).arg0 = s.arg0 := rfl
@[simp] theorem State.setRs_arg1 (rs : Resampler) : (s.setRs rs).arg1 = s.arg1 := rfl
@[simp] theorem State.setRs_arg2 (rs : Resampler) : (s.setRs rs).arg2 = s.arg2 := rfl
@[simp] theorem State.setRs_arg3 (rs : Resampler) : (s.setRs rs).arg3 = s.arg3 := rfl
@[simp] theorem State.setRs_arg4 (rs : Resampler) : (s.setRs rs).arg4 = s.arg4 := rfl
@[simp] theorem State.setRs_result0 (rs : Resampler) : (s.setRs rs).result0 = s.result0 := rfl
@[simp] theorem State.setRs_result1 (rs : Resampler) : (s.setRs rs).result1 = s.result1 := rfl
@[simp] theorem State.setRs_rs (rs : Resampler) : (s.setRs rs).rs = rs := rfl
@[simp] theorem State.setRs_mem (rs : Resampler) : (s.setRs rs).mem = s.mem := rfl
@[simp] theorem State.setRs_params (rs : Resampler) : (s.setRs rs).params = s.params := rfl
@[simp] theorem State.setRs_inputs (rs : Resampler) : (s.setRs rs).inputs = s.inputs := rfl
@[simp] theorem State.setRs_port (rs : Resampler) : (s.setRs rs).port = s.port := rfl
@[simp] theorem State.setRs_draws (rs : Resampler) : (s.setRs rs).draws = s.draws := rfl

/-! `State.respond` -/

@[simp] theorem State.respond_irqEn (resp : BusResp) (rdata : Option Word) : (s.respond resp rdata).irqEn = s.irqEn := rfl
@[simp] theorem State.respond_busy (resp : BusResp) (rdata : Option Word) : (s.respond resp rdata).busy = s.busy := rfl
@[simp] theorem State.respond_done (resp : BusResp) (rdata : Option Word) : (s.respond resp rdata).done = s.done := rfl
@[simp] theorem State.respond_err (resp : BusResp) (rdata : Option Word) : (s.respond resp rdata).err = s.err := rfl
@[simp] theorem State.respond_errcode (resp : BusResp) (rdata : Option Word) : (s.respond resp rdata).errcode = s.errcode := rfl
@[simp] theorem State.respond_cmd (resp : BusResp) (rdata : Option Word) : (s.respond resp rdata).cmd = s.cmd := rfl
@[simp] theorem State.respond_arg0 (resp : BusResp) (rdata : Option Word) : (s.respond resp rdata).arg0 = s.arg0 := rfl
@[simp] theorem State.respond_arg1 (resp : BusResp) (rdata : Option Word) : (s.respond resp rdata).arg1 = s.arg1 := rfl
@[simp] theorem State.respond_arg2 (resp : BusResp) (rdata : Option Word) : (s.respond resp rdata).arg2 = s.arg2 := rfl
@[simp] theorem State.respond_arg3 (resp : BusResp) (rdata : Option Word) : (s.respond resp rdata).arg3 = s.arg3 := rfl
@[simp] theorem State.respond_arg4 (resp : BusResp) (rdata : Option Word) : (s.respond resp rdata).arg4 = s.arg4 := rfl
@[simp] theorem State.respond_result0 (resp : BusResp) (rdata : Option Word) : (s.respond resp rdata).result0 = s.result0 := rfl
@[simp] theorem State.respond_result1 (resp : BusResp) (rdata : Option Word) : (s.respond resp rdata).result1 = s.result1 := rfl
@[simp] theorem State.respond_rs (resp : BusResp) (rdata : Option Word) : (s.respond resp rdata).rs = s.rs := rfl
@[simp] theorem State.respond_mem (resp : BusResp) (rdata : Option Word) : (s.respond resp rdata).mem = s.mem := rfl
@[simp] theorem State.respond_params (resp : BusResp) (rdata : Option Word) : (s.respond resp rdata).params = s.params := rfl
@[simp] theorem State.respond_inputs (resp : BusResp) (rdata : Option Word) : (s.respond resp rdata).inputs = s.inputs := rfl
@[simp] theorem State.respond_port (resp : BusResp) (rdata : Option Word) : (s.respond resp rdata).port = some { resp := resp, rdata := rdata } := rfl
@[simp] theorem State.respond_draws (resp : BusResp) (rdata : Option Word) : (s.respond resp rdata).draws = s.draws := rfl

/-! `State.abort` -/

@[simp] theorem State.abort_irqEn : s.abort.irqEn = s.irqEn := rfl
@[simp] theorem State.abort_busy : s.abort.busy = s.busy := rfl
@[simp] theorem State.abort_done : s.abort.done = s.done := rfl
@[simp] theorem State.abort_err : s.abort.err = s.err := rfl
@[simp] theorem State.abort_errcode : s.abort.errcode = s.errcode := rfl
@[simp] theorem State.abort_cmd : s.abort.cmd = s.cmd := rfl
@[simp] theorem State.abort_arg0 : s.abort.arg0 = s.arg0 := rfl
@[simp] theorem State.abort_arg1 : s.abort.arg1 = s.arg1 := rfl
@[simp] theorem State.abort_arg2 : s.abort.arg2 = s.arg2 := rfl
@[simp] theorem State.abort_arg3 : s.abort.arg3 = s.arg3 := rfl
@[simp] theorem State.abort_arg4 : s.abort.arg4 = s.arg4 := rfl
@[simp] theorem State.abort_result0 : s.abort.result0 = s.result0 := rfl
@[simp] theorem State.abort_result1 : s.abort.result1 = s.result1 := rfl
@[simp] theorem State.abort_rs : s.abort.rs = s.rs := rfl
@[simp] theorem State.abort_mem : s.abort.mem = s.mem.clearWords s.pendingWrites.1 s.pendingWrites.2 := rfl
@[simp] theorem State.abort_params : s.abort.params = s.params := rfl
@[simp] theorem State.abort_inputs : s.abort.inputs = s.inputs := rfl
@[simp] theorem State.abort_port : s.abort.port = s.port := rfl
@[simp] theorem State.abort_draws : s.abort.draws = s.draws := rfl

/-! `State.resetRegisters` -/

@[simp] theorem State.resetRegisters_irqEn : s.resetRegisters.irqEn = false := rfl
@[simp] theorem State.resetRegisters_busy : s.resetRegisters.busy = false := rfl
@[simp] theorem State.resetRegisters_done : s.resetRegisters.done = false := rfl
@[simp] theorem State.resetRegisters_err : s.resetRegisters.err = false := rfl
@[simp] theorem State.resetRegisters_errcode : s.resetRegisters.errcode = 0 := rfl
@[simp] theorem State.resetRegisters_cmd : s.resetRegisters.cmd = 0 := rfl
@[simp] theorem State.resetRegisters_arg0 : s.resetRegisters.arg0 = 0 := rfl
@[simp] theorem State.resetRegisters_arg1 : s.resetRegisters.arg1 = 0 := rfl
@[simp] theorem State.resetRegisters_arg2 : s.resetRegisters.arg2 = 0 := rfl
@[simp] theorem State.resetRegisters_arg3 : s.resetRegisters.arg3 = 0 := rfl
@[simp] theorem State.resetRegisters_arg4 : s.resetRegisters.arg4 = 0 := rfl
@[simp] theorem State.resetRegisters_result0 : s.resetRegisters.result0 = 0 := rfl
@[simp] theorem State.resetRegisters_result1 : s.resetRegisters.result1 = 0 := rfl
@[simp] theorem State.resetRegisters_rs : s.resetRegisters.rs = Resampler.reset s.params := rfl
@[simp] theorem State.resetRegisters_mem : s.resetRegisters.mem = s.mem := rfl
@[simp] theorem State.resetRegisters_params : s.resetRegisters.params = s.params := rfl
@[simp] theorem State.resetRegisters_inputs : s.resetRegisters.inputs = s.inputs := rfl
@[simp] theorem State.resetRegisters_port : s.resetRegisters.port = s.port := rfl
@[simp] theorem State.resetRegisters_draws : s.resetRegisters.draws = s.draws := rfl

/-! `State.hardwareReset` -/

@[simp] theorem State.hardwareReset_irqEn : s.hardwareReset.irqEn = false := rfl
@[simp] theorem State.hardwareReset_busy : s.hardwareReset.busy = false := rfl
@[simp] theorem State.hardwareReset_done : s.hardwareReset.done = false := rfl
@[simp] theorem State.hardwareReset_err : s.hardwareReset.err = false := rfl
@[simp] theorem State.hardwareReset_errcode : s.hardwareReset.errcode = 0 := rfl
@[simp] theorem State.hardwareReset_cmd : s.hardwareReset.cmd = 0 := rfl
@[simp] theorem State.hardwareReset_arg0 : s.hardwareReset.arg0 = 0 := rfl
@[simp] theorem State.hardwareReset_arg1 : s.hardwareReset.arg1 = 0 := rfl
@[simp] theorem State.hardwareReset_arg2 : s.hardwareReset.arg2 = 0 := rfl
@[simp] theorem State.hardwareReset_arg3 : s.hardwareReset.arg3 = 0 := rfl
@[simp] theorem State.hardwareReset_arg4 : s.hardwareReset.arg4 = 0 := rfl
@[simp] theorem State.hardwareReset_result0 : s.hardwareReset.result0 = 0 := rfl
@[simp] theorem State.hardwareReset_result1 : s.hardwareReset.result1 = 0 := rfl
@[simp] theorem State.hardwareReset_rs : s.hardwareReset.rs = Resampler.reset s.params := rfl
@[simp] theorem State.hardwareReset_mem : s.hardwareReset.mem = [] := rfl
@[simp] theorem State.hardwareReset_params : s.hardwareReset.params = s.params := rfl
@[simp] theorem State.hardwareReset_inputs : s.hardwareReset.inputs = s.inputs := rfl
@[simp] theorem State.hardwareReset_port : s.hardwareReset.port = none := rfl
@[simp] theorem State.hardwareReset_draws : s.hardwareReset.draws = s.draws := rfl

/-! Conditional updates -/

theorem State.start_of_busy (h : s.busy = true) : s.start = s := by simp [State.start, h]

theorem State.start_of_idle (h : s.busy = false) :
    s.start = { s with busy := true, done := false, err := false, errcode := 0 } := by
  simp [State.start, h]

theorem State.whenIdle_of_busy (t : State) (h : s.busy = true) : s.whenIdle t = s := by
  simp [State.whenIdle, h]

theorem State.whenIdle_of_idle (t : State) (h : s.busy = false) : s.whenIdle t = t := by
  simp [State.whenIdle, h]

end Sys2Proof.Machine
end

