-- ==== Sys2Proof/Laws/Ops.lean ====
section
/-! SUPPORT. What each shared operation of the command lifecycle can do, said once: the tests, the
checks, and every outcome of a command. -/

namespace Sys2Proof.Machine

/-! ## Tests -/

theorem inRange_iff (p : Config.Params) (base n : Nat) :
    inRange p base n = true ↔ n = 0 ∨ base + n ≤ p.memWords := by
  simp [inRange]

theorem inRange_eq_false_iff (p : Config.Params) (base n : Nat) :
    inRange p base n = false ↔ ¬ (n = 0 ∨ base + n ≤ p.memWords) := by
  rw [← Bool.not_eq_true, inRange_iff]

theorem overlap_iff (b1 n1 b2 n2 : Nat) :
    overlap b1 n1 b2 n2 = true ↔ 0 < n1 ∧ 0 < n2 ∧ b1 < b2 + n2 ∧ b2 < b1 + n1 := by
  simp [overlap, and_assoc]

/-- Two ranges overlap exactly when they share a word (20_memory.md R102). -/
theorem overlap_iff_shared (b1 n1 b2 n2 : Nat) :
    overlap b1 n1 b2 n2 = true ↔ ∃ w, b1 ≤ w ∧ w < b1 + n1 ∧ b2 ≤ w ∧ w < b2 + n2 := by
  rw [overlap_iff]
  exact ⟨fun h => ⟨max b1 b2, by omega, by omega, by omega, by omega⟩, fun ⟨w, h⟩ => by omega⟩

theorem flagLast_iff {flags : Word} (h : flags.toNat ≤ 1) :
    flagLast flags = decide (flags.toNat = 1) := by
  have : flags = 0 ∨ flags = 1 := by
    rcases Nat.le_one_iff_eq_zero_or_eq_one.1 h with h | h
    · exact .inl (BitVec.eq_of_toNat_eq h)
    · exact .inr (BitVec.eq_of_toNat_eq h)
  rcases this with rfl | rfl <;> decide

theorem flagsReserved_eq_zero_iff (flags : Word) : flagsReserved flags = 0 ↔ flags.toNat ≤ 1 := by
  have hl := flags.isLt
  have : (flagsReserved flags).toNat = flags.toNat / 2 := by
    simp only [flagsReserved, BitVec.extractLsb'_toNat, Nat.shiftRight_eq_div_pow]
    omega
  constructor
  · intro h
    rw [h] at this
    have : 0 = flags.toNat / 2 := this
    omega
  · intro h
    refine BitVec.eq_of_toNat_eq ?_
    rw [this]
    show _ = 0
    omega

/-! ## Lengths of a convolution -/

theorem convOutLen_eq {n m : Nat} (h : 1 ≤ n + m) : convOutLen n m = n + m - 1 := by
  unfold convOutLen
  rw [if_neg (by omega)]

theorem convOutLen_zero : convOutLen 0 0 = 0 := rfl

/-! ## Checks -/

@[simp] theorem firstError_nil : firstError [] = none := rfl

theorem firstError_cons_true (e : ErrCode) (cs : Checks) : firstError ((true, e) :: cs) = some e := rfl

theorem firstError_cons_false (e : ErrCode) (cs : Checks) :
    firstError ((false, e) :: cs) = firstError cs := rfl

theorem firstError_eq_none_iff (cs : Checks) : firstError cs = none ↔ ∀ c ∈ cs, c.1 = false := by
  induction cs with
  | nil => simp
  | cons c cs ih =>
    obtain ⟨b, e⟩ := c
    cases b <;> simp [firstError, ih]

theorem firstError_mem {cs : Checks} {e : ErrCode} (h : firstError cs = some e) :
    (true, e) ∈ cs := by
  induction cs with
  | nil => simp at h
  | cons c cs ih =>
    obtain ⟨b, e'⟩ := c
    cases b
    · exact List.mem_cons_of_mem _ (ih h)
    · obtain rfl : e' = e := by simpa [firstError] using h
      simp

/-- No command raises E_ILLEGAL: that is the decoder's (60_exceptions.md R321). -/
theorem checkOf_ne_illegal (i : Instr) (s : State) : checkOf i s ≠ some .illegal := by
  intro h
  cases i <;>
    first
    | (simp [checkOf] at h; done)
    | simpa [checkOf, checkFdes, checkConv, checkPower, checkNgen, checkVadd, checkRscfg, checkRsfeed,
        checkRsrun] using firstError_mem h

/-- The codes of the errors a command's own checks raise are 2 to 7. -/
theorem checkOf_code {i : Instr} {s : State} {e : ErrCode} (h : checkOf i s = some e) :
    2 ≤ e.code.toNat ∧ e.code.toNat ≤ 7 := by
  cases e
  · exact absurd h (checkOf_ne_illegal i s)
  all_goals decide

/-- A command that passes its checks writes inside DMEM. -/
theorem writeRange_inRange {i : Instr} {s : State} (h : checkOf i s = none) :
    inRange s.params (writeRange i s).1 (writeRange i s).2 = true := by
  cases i <;> first
    | rfl
    | (simp only [checkOf, checkFdes, checkConv, checkNgen, checkVadd,
        checkRsrun, firstError_eq_none_iff] at h
       simp_all [writeRange])

/-! ## Outcomes -/

/-- Everything a command can do: fail a check, with no effect beside the report; read a word that holds
no value; or store words, replace `rs`, take free values and report two results. -/
theorem exec_cases (i : Instr) (s : State) :
    (∃ e, checkOf i s = some e ∧ exec i s = .next (s.completeError e)) ∨
    (checkOf i s = none ∧ ∃ w, exec i s = .fault (.uninit w)) ∨
    (checkOf i s = none ∧ ∃ base vs rs n r0 r1,
      exec i s = .next ((((s.store base vs).setRs rs).draw n).complete r0 r1)) := by
  cases i <;> simp only [exec, checkOf]
  · exact .inr (.inr ⟨trivial, 0, [], s.rs, 0, 0, 0, rfl⟩)
  · unfold execFdes; split
    · rename_i e h; exact .inl ⟨_, h, rfl⟩
    · rename_i h; exact .inr (.inr ⟨h, _, _, s.rs, 0, _, _, rfl⟩)
  · unfold execConv; split
    · rename_i e h; exact .inl ⟨_, h, rfl⟩
    · rename_i h
      split
      · exact .inr (.inl ⟨h, _, rfl⟩)
      · split
        · exact .inr (.inl ⟨h, _, rfl⟩)
        · exact .inr (.inr ⟨h, _, _, s.rs, _, _, _, rfl⟩)
  · unfold execPower; split
    · rename_i e h; exact .inl ⟨_, h, rfl⟩
    · rename_i h
      split
      · exact .inr (.inl ⟨h, _, rfl⟩)
      · exact .inr (.inr ⟨h, 0, [], s.rs, 0, _, _, rfl⟩)
  · unfold execNgen; split
    · rename_i e h; exact .inl ⟨_, h, rfl⟩
    · rename_i h
      split
      · exact .inr (.inl ⟨h, _, rfl⟩)
      · exact .inr (.inr ⟨h, _, _, s.rs, _, _, _, rfl⟩)
  · unfold execVadd; split
    · rename_i e h; exact .inl ⟨_, h, rfl⟩
    · rename_i h
      split
      · exact .inr (.inl ⟨h, _, rfl⟩)
      · exact .inr (.inr ⟨h, _, _, s.rs, 0, _, _, rfl⟩)
  · unfold execRscfg; split
    · rename_i e h; exact .inl ⟨_, h, rfl⟩
    · rename_i h; exact .inr (.inr ⟨h, 0, [], configured s.params _ _ _, 0, 0, 0, rfl⟩)
  · unfold execRsfeed; split
    · rename_i e h; exact .inl ⟨_, h, rfl⟩
    · rename_i h; exact .inr (.inr ⟨h, 0, [], fed s.rs _ _ _, 0, natWord _, 0, rfl⟩)
  · unfold execRsrun; split
    · rename_i e h; exact .inl ⟨_, h, rfl⟩
    · rename_i h
      split
      · exact .inr (.inl ⟨h, _, rfl⟩)
      · exact .inr (.inr ⟨h, _, _, _, _, _, _, rfl⟩)

/-- A command whose check fails completes with that error. -/
theorem exec_of_check_some {i : Instr} {s : State} {e : ErrCode} (h : checkOf i s = some e) :
    exec i s = .next (s.completeError e) := by
  rcases exec_cases i s with ⟨e', h', hx⟩ | ⟨h', _⟩ | ⟨h', _⟩ <;> rw [h] at h'
  · obtain rfl := Option.some.inj h'; exact hx
  · cases h'
  · cases h'

/-! ## The start and the resets -/

/-- What a start request does. -/
theorem State.start_cases (s : State) :
    (s.busy = true ∧ s.start = s) ∨
    (s.busy = false ∧
      s.start = { s with busy := true, done := false, err := false, errcode := 0 }) := by
  unfold State.start
  cases h : s.busy <;> simp

/-- The write set of the latched command lies inside DMEM. -/
theorem State.pendingWrites_inRange (s : State) :
    inRange s.params s.pendingWrites.1 s.pendingWrites.2 = true := by
  unfold State.pendingWrites
  split
  · rfl
  · split
    · rfl
    · rename_i h; exact writeRange_inRange h

theorem State.softReset_mem (s : State) :
    s.softReset.mem =
      if s.busy then s.mem.clearWords s.pendingWrites.1 s.pendingWrites.2 else s.mem := by
  unfold State.softReset
  cases s.busy <;> rfl

theorem State.softReset_eq (s : State) :
    s.softReset = { State.resetOf s.params with
      mem := s.softReset.mem, inputs := s.inputs, port := s.port, draws := s.draws } := by
  unfold State.softReset
  cases s.busy <;> rfl

theorem State.writeStatus_eq (v : Word) (s : State) :
    s.writeStatus v = { s with
      done := s.done && !v.getLsbD 1, err := s.err && !v.getLsbD 2,
      errcode := if v.getLsbD 2 then 0 else s.errcode } := by
  unfold State.writeStatus State.ackDone State.ackErr
  cases v.getLsbD 1 <;> cases v.getLsbD 2 <;> simp

/-- The memory right after reset is in its canonical form, and sound. -/
theorem reset_mem_wf : State.reset.mem.wf = true := rfl

end Sys2Proof.Machine
end

