-- ==== Sys2Proof/Laws/Host.lean ====
section
/-! SUPPORT. What a host access can do: the regions of the aperture and every outcome of the port. -/

namespace Sys2Proof.Machine

theorem aligned_iff (off : Offset) (width : Nat) :
    aligned off width = true ↔ width = 4 ∧ off.toNat % 4 = 0 := by
  simp [aligned]

theorem regionOf_register (p : Config.Params) {off : Nat} (h : off < 0x100) :
    regionOf p off = .register (off / 4) := if_pos h

theorem regionOf_dmem (p : Config.Params) {w : Nat} (h : w < p.memWords) :
    regionOf p (dmemBase + 4 * w) = .dmem w := by
  unfold regionOf
  rw [if_neg (by unfold dmemBase; omega), if_pos (by omega)]
  congr 1
  omega

theorem regionOf_unmapped (p : Config.Params) {off : Nat} (h1 : 0x100 ≤ off)
    (h2 : off < dmemBase ∨ dmemBase + 4 * p.memWords ≤ off) : regionOf p off = .unmapped := by
  unfold regionOf
  rw [if_neg (by omega), if_neg (by omega)]

/-- The offsets of a DMEM word. -/
theorem regionOf_eq_dmem {p : Config.Params} {off w : Nat} (h4 : off % 4 = 0)
    (h : regionOf p off = .dmem w) : w < p.memWords ∧ off = dmemBase + 4 * w := by
  have hb : dmemBase % 4 = 0 := rfl
  unfold regionOf at h
  split at h
  · cases h
  · split at h
    · injection h with h
      omega
    · cases h

theorem regAt_none {k : Nat} (h : 18 ≤ k) : regAt k = none := by
  unfold regAt
  split <;> first | omega | rfl

/-- Everything a register write can do to the block's state. -/
theorem State.writeReg_cases (s : State) (r : Reg) (v : Word) :
    s.writeReg r v = s ∨ s.writeReg r v = s.softReset ∨
    s.writeReg r v = { s with irqEn := v.getLsbD 2 } ∨
    s.writeReg r v = ({ s with irqEn := v.getLsbD 2 } : State).start ∨
    s.writeReg r v = s.writeStatus v ∨
    (s.busy = false ∧
      (s.writeReg r v = { s with cmd := v } ∨ s.writeReg r v = { s with arg0 := v } ∨
        s.writeReg r v = { s with arg1 := v } ∨ s.writeReg r v = { s with arg2 := v } ∨
        s.writeReg r v = { s with arg3 := v } ∨ s.writeReg r v = { s with arg4 := v })) := by
  have idle : ∀ t : State, s.whenIdle t = s ∨ (s.busy = false ∧ s.whenIdle t = t) := by
    intro t
    unfold State.whenIdle
    cases s.busy <;> simp
  cases r with
  | ctrl =>
    simp only [State.writeReg, State.writeCtrl]
    split
    · exact .inr (.inl rfl)
    · split
      · exact .inr (.inr (.inr (.inl rfl)))
      · exact .inr (.inr (.inl rfl))
  | status => exact .inr (.inr (.inr (.inr (.inl rfl))))
  | cmd | arg0 | arg1 | arg2 | arg3 | arg4 =>
    simp only [State.writeReg]
    first
    | exact (idle { s with cmd := v }).imp_right fun h =>
        .inr (.inr (.inr (.inr ⟨h.1, .inl h.2⟩)))
    | exact (idle { s with arg0 := v }).imp_right fun h =>
        .inr (.inr (.inr (.inr ⟨h.1, .inr (.inl h.2)⟩)))
    | exact (idle { s with arg1 := v }).imp_right fun h =>
        .inr (.inr (.inr (.inr ⟨h.1, .inr (.inr (.inl h.2))⟩)))
    | exact (idle { s with arg2 := v }).imp_right fun h =>
        .inr (.inr (.inr (.inr ⟨h.1, .inr (.inr (.inr (.inl h.2)))⟩)))
    | exact (idle { s with arg3 := v }).imp_right fun h =>
        .inr (.inr (.inr (.inr ⟨h.1, .inr (.inr (.inr (.inr (.inl h.2))))⟩)))
    | exact (idle { s with arg4 := v }).imp_right fun h =>
        .inr (.inr (.inr (.inr ⟨h.1, .inr (.inr (.inr (.inr (.inr h.2))))⟩)))
  | _ => exact .inl rfl

/-- Everything a host access can do: be a model fault, or change the block as a register write does,
store one DMEM word, or take a free value, and set the port's response. -/
theorem hostAccess_cases (a : Access) (s : State) :
    (s.busy = true ∧ ∃ w, w < s.params.memWords ∧ hostAccess a s = .fault (.hostWriteBusy w)) ∨
    (∃ t resp rdata, hostAccess a s = .next (t.respond resp rdata) ∧
      (t = s ∨ t = s.draw 1 ∨ (∃ r v, t = s.writeReg r v) ∨
        (s.busy = false ∧ ∃ w v, w < s.params.memWords ∧ t = s.store w [v]))) := by
  cases a with
  | read off width =>
    refine .inr ?_
    simp only [hostAccess, hostRead]
    split
    · split
      · unfold State.readPage
        split <;> exact ⟨_, _, _, rfl, .inl rfl⟩
      · unfold State.readDmem
        split
        · exact ⟨_, _, _, rfl, .inl rfl⟩
        · exact ⟨s.draw 1, _, _, rfl, .inr (.inl rfl)⟩
      · exact ⟨_, _, _, rfl, .inl rfl⟩
    · exact ⟨_, _, _, rfl, .inl rfl⟩
  | write off width v =>
    simp only [hostAccess, hostWrite]
    split
    · rename_i ha
      split
      · unfold State.writePage
        split
        · exact .inr ⟨_, _, _, rfl, .inr (.inr (.inl ⟨_, _, rfl⟩))⟩
        · exact .inr ⟨_, _, _, rfl, .inl rfl⟩
      · rename_i w hw
        have := regionOf_eq_dmem ((aligned_iff _ _).1 ha).2 hw
        unfold State.writeDmem
        cases hb : s.busy
        · exact .inr ⟨_, _, _, rfl, .inr (.inr (.inr ⟨rfl, w, v, this.1, rfl⟩))⟩
        · exact .inl ⟨rfl, w, this.1, rfl⟩
      · exact .inr ⟨_, _, _, rfl, .inl rfl⟩
    · exact .inr ⟨_, _, _, rfl, .inl rfl⟩

end Sys2Proof.Machine
end

