-- ==== Sys2Proof/Laws/HostRun.lean ====
section
/-! SUPPORT. Runs of a host beside the block: one more step, a run that is over, a run in two parts. -/

namespace Sys2Proof.Machine

@[simp] theorem System.run_nil (y : System) : System.run [] y = .next y := rfl

theorem System.run_of_finished {y : System} (h : y.finished = true) (l : List Agent) :
    y.run l = .next y := by
  cases l with
  | nil => rfl
  | cons a l => simp [System.run, h]

theorem System.run_cons {y : System} (h : y.finished = false) (a : Agent) (l : List Agent) :
    y.run (a :: l) = match y.turn a with
      | .next z => z.run l
      | .fault f => .fault f
      | .refused r => .refused r := by
  rw [System.run, h]
  rfl

/-- A run goes on from where its first part ended. -/
theorem System.run_append {y z : System} {l : List Agent} (h : y.run l = .next z) (l' : List Agent) :
    y.run (l ++ l') = z.run l' := by
  induction l generalizing y with
  | nil => cases h; rfl
  | cons a l ih =>
    cases hf : y.finished
    · rw [System.run_cons hf] at h
      rw [List.cons_append, System.run_cons hf]
      cases ht : y.turn a with
      | next y' => rw [ht] at h; exact ih h
      | fault f => rw [ht] at h; cases h
      | refused r => rw [ht] at h; cases h
    · rw [System.run_of_finished hf] at h ⊢
      injection h with h
      rw [← h, System.run_of_finished hf]

@[simp] theorem System.after_zero (sched : Nat → Agent) (y : System) : y.after sched 0 = .next y := rfl

/-- One more step of a run that is not over. -/
theorem System.after_succ {sched : Nat → Agent} {k : Nat} {y z : System}
    (h : y.after sched k = .next z) (hf : z.finished = false) :
    y.after sched (k + 1) = z.turn (sched k) := by
  unfold System.after at h ⊢
  rw [List.range_succ, List.map_append, System.run_append h]
  simp only [List.map_cons, List.map_nil]
  rw [System.run_cons hf]
  cases z.turn (sched k) <;> rfl

/-- A run that is over stays where it ended. -/
theorem System.after_finished {sched : Nat → Agent} {k : Nat} {y z : System}
    (h : y.after sched k = .next z) (hf : z.finished = true) :
    y.after sched (k + 1) = .next z := by
  unfold System.after at h ⊢
  rw [List.range_succ, List.map_append, System.run_append h, System.run_of_finished hf]

end Sys2Proof.Machine
end

