-- ==== Sys2Proof/Laws/PerInstr.lean ====
section
/-! SUPPORT. Statements made per command, one lemma a constructor (LAWS.json). -/

namespace Sys2Proof.Laws

/-- Where the encoder puts a command's parts (30_encoding.md R120, R123, R129): RSV is 0, each operand
stands in its argument register, and every argument register the command ignores holds 0. -/
def OperandPlaces.Statement (i : Instr) : Prop :=
  let c := encode i
  rsvField c.cmd = 0 ∧ c.cmd = i.cmdWord ∧
  ∀ k < 5, [c.arg0, c.arg1, c.arg2, c.arg3, c.arg4].getD k 0 =
    (((Machine.usedArgs i).find? (fun kv => kv.1 == k)).map Prod.snd).getD 0

theorem OperandPlaces.nop : OperandPlaces.Statement .nop := by
  refine ⟨by decide, rfl, fun k hk => ?_⟩
  interval_cases k <;> rfl

theorem OperandPlaces.fdes (dst len low high rate : Word) :
    OperandPlaces.Statement (.fdes dst len low high rate) := by
  refine ⟨by dsimp only [encode, Instr.cmdWord]; decide, rfl, fun k hk => ?_⟩
  interval_cases k <;> rfl

theorem OperandPlaces.conv (dst sig n ker m : Word) :
    OperandPlaces.Statement (.conv dst sig n ker m) := by
  refine ⟨by dsimp only [encode, Instr.cmdWord]; decide, rfl, fun k hk => ?_⟩
  interval_cases k <;> rfl

theorem OperandPlaces.power (src n : Word) : OperandPlaces.Statement (.power src n) := by
  refine ⟨by dsimp only [encode, Instr.cmdWord]; decide, rfl, fun k hk => ?_⟩
  interval_cases k <;> rfl

theorem OperandPlaces.ngen (dst src n snr : Word) :
    OperandPlaces.Statement (.ngen dst src n snr) := by
  refine ⟨by dsimp only [encode, Instr.cmdWord]; decide, rfl, fun k hk => ?_⟩
  interval_cases k <;> rfl

theorem OperandPlaces.vadd (dst a n b : Word) : OperandPlaces.Statement (.vadd dst a n b) := by
  refine ⟨by dsimp only [encode, Instr.cmdWord]; decide, rfl, fun k hk => ?_⟩
  interval_cases k <;> rfl

theorem OperandPlaces.rscfg (ch srcRate dstRate : Word) :
    OperandPlaces.Statement (.rscfg ch srcRate dstRate) := by
  refine ⟨by dsimp only [encode, Instr.cmdWord]; decide, rfl, fun k hk => ?_⟩
  interval_cases k <;> rfl

theorem OperandPlaces.rsfeed (src len flags : Word) :
    OperandPlaces.Statement (.rsfeed src len flags) := by
  refine ⟨by dsimp only [encode, Instr.cmdWord]; decide, rfl, fun k hk => ?_⟩
  interval_cases k <;> rfl

theorem OperandPlaces.rsrun (dst max : Word) : OperandPlaces.Statement (.rsrun dst max) := by
  refine ⟨by dsimp only [encode, Instr.cmdWord]; decide, rfl, fun k hk => ?_⟩
  interval_cases k <;> rfl

end Sys2Proof.Laws
end

