-- ==== Sys2Proof/Laws/Reads.lean ====
section
/-! SUPPORT. The first word without a value in an order of reads, and the range reads that name it. -/

namespace Sys2Proof.Machine

@[simp] theorem Memory.firstMissing_nil (m : Memory) : m.firstMissing [] = none := rfl

theorem Memory.firstMissing_cons (m : Memory) (w : Nat) (ws : List Nat) :
    m.firstMissing (w :: ws) = if m.readWord w = none then some w else m.firstMissing ws := by
  unfold Memory.firstMissing
  cases h : m.readWord w <;> simp [h]

theorem Memory.firstMissing_append (m : Memory) (ws us : List Nat) :
    m.firstMissing (ws ++ us) = (m.firstMissing ws).or (m.firstMissing us) := by
  unfold Memory.firstMissing
  exact List.find?_append

/-- A first missing word is one of the order, and holds no value. -/
theorem Memory.firstMissing_some {m : Memory} {ws : List Nat} {w : Nat}
    (h : m.firstMissing ws = some w) : w ∈ ws ∧ m.readWord w = none :=
  ⟨List.mem_of_find?_eq_some h, by simpa using List.find?_some h⟩

theorem Memory.firstMissing_eq_none {m : Memory} {ws : List Nat} :
    m.firstMissing ws = none ↔ ∀ w ∈ ws, m.readWord w ≠ none := by
  simp [Memory.firstMissing]

/-- Where a range read stops. -/
theorem Memory.readWords_error_iff (m : Memory) (base n w : Nat) :
    m.readWords base n = .error w ↔ m.firstMissing (List.range' base n) = some w := by
  induction n generalizing base with
  | zero => simp [Memory.readWords]
  | succ n ih =>
    rw [List.range'_succ, Memory.firstMissing_cons, ← Nat.add_comm 1 base, Nat.add_comm 1 base]
    simp only [Memory.readWords]
    cases h : m.readWord base with
    | none => simp
    | some v =>
      have := ih (base + 1)
      cases hr : m.readWords (base + 1) n <;> simp_all

/-- Where a pair read stops. -/
theorem Memory.readPairs_error_iff (m : Memory) (a b n w : Nat) :
    m.readPairs a b n = .error w ↔
      m.firstMissing ((List.range n).flatMap (fun i => [a + i, b + i])) = some w := by
  induction n generalizing a b with
  | zero => simp [Memory.readPairs]
  | succ n ih =>
    have e : (List.range (n + 1)).flatMap (fun i => [a + i, b + i]) =
        a :: b :: (List.range n).flatMap (fun i => [a + 1 + i, b + 1 + i]) := by
      rw [List.range_succ_eq_map, List.flatMap_cons, List.flatMap_map]
      simp [Nat.add_assoc, Nat.add_comm 1]
    rw [e, Memory.firstMissing_cons, Memory.firstMissing_cons]
    simp only [Memory.readPairs]
    cases ha : m.readWord a with
    | none => simp
    | some x =>
      cases hb : m.readWord b with
      | none => simp
      | some y =>
        have := ih (a + 1) (b + 1)
        cases hr : m.readPairs (a + 1) (b + 1) n <;> simp_all

end Sys2Proof.Machine
end

