-- ==== Sys2Proof/Laws/Resampler.lean ====
section
/-! SUPPORT. What a pull, the pull loop and a step of the resampler can do, said once. -/

namespace Sys2Proof.Machine

/-! ## Histories -/

theorem shiftIn_length {h : History} (v : Word) (hh : 1 ≤ h.length) :
    (shiftIn h v).length = h.length := by
  simp only [shiftIn, List.length_append, List.length_drop, List.length_singleton]
  omega

@[simp] theorem shiftFrame_length (hs : List History) (vs : List Word) :
    (shiftFrame hs vs).length = hs.length := by
  induction hs generalizing vs with
  | nil => cases vs <;> rfl
  | cons h hs ih => cases vs <;> simp [shiftFrame, ih]

/-- Channel `c` takes the frame's sample `c`; a channel the frame does not reach keeps its history. -/
theorem shiftFrame_getElem? (hs : List History) (vs : List Word) (c : Nat) :
    (shiftFrame hs vs)[c]? =
      match hs[c]?, vs[c]? with
      | some h, some v => some (shiftIn h v)
      | some h, none => some h
      | none, _ => none := by
  induction hs generalizing vs c with
  | nil => cases vs <;> simp [shiftFrame]
  | cons h hs ih =>
    cases vs with
    | nil => simp only [shiftFrame]; cases (h :: hs)[c]? <;> simp
    | cons v vs =>
      cases c with
      | zero => simp [shiftFrame]
      | succ c => simp [shiftFrame, ih]

theorem shiftFrame_shape {n : Nat} (hn : 1 ≤ n) {hs : List History} (vs : List Word)
    (h : ∀ x ∈ hs, x.length = n) : ∀ x ∈ shiftFrame hs vs, x.length = n := by
  induction hs generalizing vs with
  | nil => cases vs <;> simp [shiftFrame]
  | cons a hs ih =>
    have ha : a.length = n := h a (by simp)
    have ht : ∀ x ∈ hs, x.length = n := fun x hx => h x (by simp [hx])
    cases vs with
    | nil => simpa [shiftFrame, ha] using ht
    | cons v vs =>
      intro x hx
      rcases List.mem_cons.1 hx with rfl | hx
      · rw [shiftIn_length v (by omega), ha]
      · exact ih vs ht x hx

/-! ## Pull -/

/-- A pull that answers shifts in the frame at `src_ptr` and moves the fed region on; nothing else of
`rs` changes (44_resampler.md R297). -/
theorem pull_ok {m : Memory} {rs rs' : Resampler} (h : pull m rs = .ok rs') :
    ∃ vs, m.readWords rs.srcPtr rs.ch = .ok vs ∧
      rs' = { rs with
        hist := shiftFrame rs.hist vs, srcPtr := rs.srcPtr + rs.ch, srcRem := rs.srcRem - rs.ch } := by
  unfold pull at h
  split at h
  · cases h
  · rename_i vs hv
    injection h with h
    exact ⟨vs, hv, h.symm⟩

theorem pull_error {m : Memory} {rs : Resampler} {w : Nat} (h : pull m rs = .error w) :
    m.readWords rs.srcPtr rs.ch = .error w := by
  unfold pull at h
  split at h
  · rename_i w' hw
    injection h with h
    rw [← h]; exact hw
  · cases h

/-! ## The fields no step changes -/

/-- What a pull, a step and a run keep of `rs`. -/
structure Resampler.SameStream (rs rs' : Resampler) : Prop where
  cfg : rs'.cfg = rs.cfg
  ch : rs'.ch = rs.ch
  srcRate : rs'.srcRate = rs.srcRate
  dstRate : rs'.dstRate = rs.dstRate
  last : rs'.last = rs.last

theorem Resampler.SameStream.refl (rs : Resampler) : rs.SameStream rs := ⟨rfl, rfl, rfl, rfl, rfl⟩

theorem Resampler.SameStream.trans {a b c : Resampler} (h : a.SameStream b) (h' : b.SameStream c) :
    a.SameStream c :=
  ⟨h'.cfg.trans h.cfg, h'.ch.trans h.ch, h'.srcRate.trans h.srcRate, h'.dstRate.trans h.dstRate,
    h'.last.trans h.last⟩

theorem pull_sameStream {m : Memory} {rs rs' : Resampler} (h : pull m rs = .ok rs') :
    rs.SameStream rs' := by
  obtain ⟨vs, _, rfl⟩ := pull_ok h
  exact ⟨rfl, rfl, rfl, rfl, rfl⟩

theorem advancePhase_sameStream (rs : Resampler) : rs.SameStream (advancePhase rs) := by
  unfold advancePhase
  split <;> exact ⟨rfl, rfl, rfl, rfl, rfl⟩

theorem pullLoop_sameStream {m : Memory} {k : Nat} {rs rs' : Resampler} {e : PullEnd}
    (h : pullLoop m k rs = .ok (e, rs')) : rs.SameStream rs' := by
  induction k generalizing rs with
  | zero =>
    simp only [pullLoop, Except.ok.injEq, Prod.mk.injEq] at h
    obtain ⟨_, rfl⟩ := h
    exact .refl _
  | succ k ih =>
    simp only [pullLoop] at h
    split at h
    · split at h <;> (simp only [Except.ok.injEq, Prod.mk.injEq] at h; obtain ⟨_, rfl⟩ := h)
      · exact ⟨rfl, rfl, rfl, rfl, rfl⟩
      · exact .refl _
    · split at h
      · cases h
      · rename_i rs1 hp
        have h1 := pull_sameStream hp
        exact h1.trans ((⟨rfl, rfl, rfl, rfl, rfl⟩ :
          rs1.SameStream { rs1 with posNum := rs1.posNum - rs1.dstRate }).trans (ih h))

theorem rsStep_sameStream {m : Memory} {taps d : Nat} {rs rs' : Resampler} {r : StepResult}
    (h : rsStep m taps d rs = .ok (r, rs')) : rs.SameStream rs' := by
  unfold rsStep at h
  split at h
  · simp only [Except.ok.injEq, Prod.mk.injEq] at h
    obtain ⟨_, rfl⟩ := h
    exact .refl _
  · simp only at h
    split at h
    · cases h
    all_goals
      rename_i rs2 hl
      simp only [Except.ok.injEq, Prod.mk.injEq] at h
      obtain ⟨_, rfl⟩ := h
      have := (advancePhase_sameStream rs).trans (pullLoop_sameStream hl)
      first | exact this | exact this.trans ⟨rfl, rfl, rfl, rfl, rfl⟩

theorem rsRunLoop_sameStream {m : Memory} {taps k d : Nat} {rs : Resampler} {r : RunResult}
    (h : rsRunLoop m taps k d rs = .ok r) : rs.SameStream r.rs := by
  induction k generalizing d rs r with
  | zero =>
    simp only [rsRunLoop, Except.ok.injEq] at h
    subst h
    exact .refl _
  | succ k ih =>
    simp only [rsRunLoop] at h
    split at h
    · cases h
    · rename_i hs
      injection h with h
      subst h
      exact rsStep_sameStream hs
    · rename_i hs
      injection h with h
      subst h
      exact rsStep_sameStream hs
    · rename_i hs
      split at h
      · cases h
      · rename_i r' hr
        injection h with h
        subst h
        have hr' := ih hr
        exact (rsStep_sameStream hs).trans ⟨hr'.cfg, hr'.ch, hr'.srcRate, hr'.dstRate, hr'.last⟩

/-! ## Output -/

@[simp] theorem outputFrame_length (taps posNum dstRate d : Nat) (hs : List History) :
    (outputFrame taps posNum dstRate d hs).length = hs.length := by
  induction hs generalizing d with
  | nil => rfl
  | cons h hs ih => simp [outputFrame, ih]

theorem outputFrame_getElem? (taps posNum dstRate d : Nat) (hs : List History) (c : Nat) :
    (outputFrame taps posNum dstRate d hs)[c]? =
      (hs[c]?).map (outputWord taps posNum dstRate (d + c)) := by
  induction hs generalizing d c with
  | nil => simp [outputFrame]
  | cons h hs ih =>
    cases c with
    | zero => simp [outputFrame]
    | succ c => simp only [outputFrame, List.getElem?_cons_succ, ih]; congr 2; omega

/-- At phase 0 the output is the reference tap (44_resampler.md R276). -/
theorem outputWord_zero_phase (taps dstRate d : Nat) (h : History) :
    outputWord taps 0 dstRate d h = h.getD (taps / 2 - 1) 0 := rfl

/-! ## The pull loop -/

/-- How the pull loop ends. With `f` whole frames fed and `k` turns, it pulls `min k f` frames; it is
ready when all turns were made, and stops for want of source otherwise (44_resampler.md R296). -/
theorem pullLoop_ok {m : Memory} {k f : Nat} {rs rs' : Resampler} {e : PullEnd}
    (hch : 1 ≤ rs.ch) (hf : rs.srcRem = f * rs.ch) (h : pullLoop m k rs = .ok (e, rs')) :
    rs'.srcRem = (f - min k f) * rs.ch ∧ rs'.srcPtr = rs.srcPtr + min k f * rs.ch ∧
      rs'.posNum = rs.posNum - min k f * rs.dstRate ∧ rs'.pend = rs.pend ∧
      (e = .ready ↔ k ≤ f) ∧ (e = .needSrc ↔ f < k ∧ rs.last = false) ∧
      (e = .exhausted ↔ f < k ∧ rs.last = true) ∧
      (rs'.exh = if e = .exhausted then true else rs.exh) := by
  induction k generalizing rs f with
  | zero =>
    simp only [pullLoop, Except.ok.injEq, Prod.mk.injEq] at h
    obtain ⟨rfl, rfl⟩ := h
    simp [hf]
  | succ k ih =>
    simp only [pullLoop] at h
    split at h
    · rename_i h0
      have hf0 : f = 0 := by
        rcases Nat.eq_zero_or_pos f with h | h
        · exact h
        · have := Nat.mul_pos h hch; omega
      subst hf0
      split at h <;> (simp only [Except.ok.injEq, Prod.mk.injEq] at h; obtain ⟨rfl, rfl⟩ := h) <;>
        simp_all
    · rename_i h0
      split at h
      · cases h
      · rename_i rs1 hp
        obtain ⟨vs, _, rfl⟩ := pull_ok hp
        obtain ⟨g, rfl⟩ : ∃ g, f = g + 1 := by
          cases f with
          | zero => simp [hf] at h0
          | succ g => exact ⟨g, rfl⟩
        have hg : rs.srcRem - rs.ch = g * rs.ch := by rw [hf, Nat.succ_mul]; omega
        obtain ⟨a1, a2, a3, a4, a5, a6, a7, a8⟩ := ih (rs := { rs with
          hist := shiftFrame rs.hist vs, srcPtr := rs.srcPtr + rs.ch, srcRem := rs.srcRem - rs.ch,
          posNum := rs.posNum - rs.dstRate }) (f := g) hch hg h
        refine ⟨?_, ?_, ?_, a4, ?_, ?_, ?_, a8⟩
        · rw [a1]; congr 1; omega
        · rw [a2, Nat.add_min_add_right, Nat.succ_mul]; dsimp only; omega
        · rw [a3, Nat.add_min_add_right, Nat.succ_mul]; dsimp only; omega
        · rw [a5]; omega
        · rw [a6]; simp
        · rw [a7]; simp

theorem pullLoop_shape {m : Memory} {p : Config.Params} (ht : 1 ≤ p.taps) {k : Nat}
    {rs rs' : Resampler} {e : PullEnd} (hs : rs.histShape p)
    (h : pullLoop m k rs = .ok (e, rs')) : rs'.histShape p := by
  induction k generalizing rs with
  | zero =>
    simp only [pullLoop, Except.ok.injEq, Prod.mk.injEq] at h
    obtain ⟨_, rfl⟩ := h
    exact hs
  | succ k ih =>
    simp only [pullLoop] at h
    split at h
    · split at h <;> (simp only [Except.ok.injEq, Prod.mk.injEq] at h; obtain ⟨_, rfl⟩ := h) <;>
        exact hs
    · split at h
      · cases h
      · rename_i rs1 hp
        obtain ⟨vs, _, rfl⟩ := pull_ok hp
        exact ih (rs := { rs with
          hist := shiftFrame rs.hist vs, srcPtr := rs.srcPtr + rs.ch, srcRem := rs.srcRem - rs.ch,
          posNum := rs.posNum - rs.dstRate })
          ⟨(shiftFrame_length _ _).trans hs.1, shiftFrame_shape ht vs hs.2⟩ h

end Sys2Proof.Machine
end

