-- ==== Sys2Proof/Laws/Stream.lean ====
section
/-! SUPPORT. The stream seen from a run's start: which frames a run has pulled, what its histories hold,
and what one step does to them. -/

namespace Sys2Proof.Machine

/-! ## One channel -/

theorem pulledHistory_length (taps ch c p : Nat) (h0 : History) (xs : List Word) :
    (pulledHistory taps ch c p h0 xs).length = taps := by
  simp [pulledHistory]

theorem pulledHistory_zero {taps ch c : Nat} {h0 : History} (xs : List Word)
    (h : h0.length = taps) : pulledHistory taps ch c 0 h0 xs = h0 := by
  refine List.ext_getElem (by simp [pulledHistory, h]) fun k h1 h2 => ?_
  have hk : k < taps := by omega
  simp [pulledHistory, hk, h2]

/-- One more pull shifts the channel's sample of the next frame in. -/
theorem pulledHistory_succ {taps ch c p : Nat} (ht : 1 ≤ taps) (h0 : History) (xs : List Word) :
    pulledHistory taps ch c (p + 1) h0 xs =
      shiftIn (pulledHistory taps ch c p h0 xs) (xs.getD (p * ch + c) 0) := by
  have hl := pulledHistory_length taps ch c p h0 xs
  refine List.ext_getElem ?_ fun k h1 h2 => ?_
  · rw [shiftIn_length _ (by omega), hl, pulledHistory_length]
  · rw [pulledHistory_length] at h1
    simp only [shiftIn]
    by_cases hk : k + 1 < taps
    · rw [List.getElem_append_left (by simp [hl]; omega), List.getElem_drop]
      simp only [pulledHistory, List.getElem_map, List.getElem_range]
      have e : p + 1 + k = p + (1 + k) := by omega
      rw [e]
    · rw [List.getElem_append_right (by simp [hl]; omega)]
      simp only [pulledHistory, List.getElem_map, List.getElem_range, List.getElem_singleton]
      rw [if_neg (by omega)]
      congr 3
      omega

/-! ## A run's resampler state after some pulls -/

/-- `rs` is `rs0` after `p` pulls of the fed words `xs`, whatever its phase. -/
structure Resampler.AfterPulls (taps : Nat) (rs0 : Resampler) (xs : List Word) (p : Nat)
    (rs : Resampler) : Prop where
  same : rs0.SameStream rs
  srcPtr : rs.srcPtr = rs0.srcPtr + p * rs0.ch
  srcRem : rs.srcRem = rs0.srcRem - p * rs0.ch
  bound : p * rs0.ch ≤ rs0.srcRem
  histLength : rs.hist.length = rs0.hist.length
  pulled : ∀ c < rs0.ch, ∀ h0, rs0.hist[c]? = some h0 →
    rs.hist[c]? = some (pulledHistory taps rs0.ch c p h0 xs)
  kept : ∀ c, rs0.ch ≤ c → rs.hist[c]? = rs0.hist[c]?

theorem Resampler.AfterPulls.zero {taps : Nat} {rs0 : Resampler} (xs : List Word)
    (h : ∀ x ∈ rs0.hist, x.length = taps) : rs0.AfterPulls taps xs 0 rs0 :=
  { same := .refl _, srcPtr := by simp, srcRem := by simp, bound := by simp, histLength := rfl,
    pulled := fun c _ h0 hc => by
      rw [hc, pulledHistory_zero xs (h h0 (List.mem_of_getElem? hc))],
    kept := fun _ _ => rfl }

/-- Changing the phase and the flags of a step leaves the pulls as they are. -/
theorem Resampler.AfterPulls.congr {taps p : Nat} {rs0 rs rs' : Resampler} {xs : List Word}
    (h : rs0.AfterPulls taps xs p rs) (hs : rs.SameStream rs') (h1 : rs'.srcPtr = rs.srcPtr)
    (h2 : rs'.srcRem = rs.srcRem) (h3 : rs'.hist = rs.hist) : rs0.AfterPulls taps xs p rs' :=
  { same := h.same.trans hs, srcPtr := h1.trans h.srcPtr, srcRem := h2.trans h.srcRem,
    bound := h.bound, histLength := by rw [h3, h.histLength],
    pulled := fun c hc h0 he => by rw [h3]; exact h.pulled c hc h0 he,
    kept := fun c hc => by rw [h3]; exact h.kept c hc }

/-- With a whole frame left whose words hold values, a pull answers, and one more frame is pulled. -/
theorem Resampler.AfterPulls.pull {m : Memory} {taps p : Nat} {rs0 rs : Resampler} {xs : List Word}
    (ht : 1 ≤ taps) (hx : (p + 1) * rs0.ch ≤ xs.length) (hm : m.holds rs0.srcPtr xs)
    (h : rs0.AfterPulls taps xs p rs) (hp : (p + 1) * rs0.ch ≤ rs0.srcRem) :
    ∃ rs', Machine.pull m rs = .ok rs' ∧ rs0.AfterPulls taps xs (p + 1) rs' ∧
      rs'.posNum = rs.posNum ∧ rs'.pend = rs.pend ∧ rs'.exh = rs.exh := by
  have hch := h.same.ch
  have hsucc : (p + 1) * rs0.ch = p * rs0.ch + rs0.ch := Nat.succ_mul _ _
  have hv : m.readWords rs.srcPtr rs.ch = .ok ((xs.drop (p * rs0.ch)).take rs0.ch) := by
    have hl : ((xs.drop (p * rs0.ch)).take rs0.ch).length = rs0.ch := by simp; omega
    have := Memory.readWords_of_holds (m := m) (base := rs.srcPtr)
      (vs := (xs.drop (p * rs0.ch)).take rs0.ch) fun i hi => by
        have := hm (p * rs0.ch + i) (by omega)
        rw [h.srcPtr, Nat.add_assoc, this]
        simp
    rw [hl] at this
    rw [hch]
    exact this
  refine ⟨{ rs with
    hist := shiftFrame rs.hist ((xs.drop (p * rs0.ch)).take rs0.ch),
    srcPtr := rs.srcPtr + rs.ch, srcRem := rs.srcRem - rs.ch },
    by simp only [Machine.pull, hv], ?_, rfl, rfl, rfl⟩
  refine { same := h.same.trans ⟨rfl, rfl, rfl, rfl, rfl⟩, srcPtr := ?_, srcRem := ?_, bound := hp,
           histLength := (shiftFrame_length _ _).trans h.histLength, pulled := ?_, kept := ?_ }
  · show rs.srcPtr + rs.ch = _
    rw [h.srcPtr, hch]; omega
  · show rs.srcRem - rs.ch = _
    rw [h.srcRem, hch]; omega
  · intro c hc h0 he
    show (shiftFrame _ _)[c]? = _
    rw [shiftFrame_getElem?, h.pulled c hc h0 he, pulledHistory_succ ht]
    have e : ((xs.drop (p * rs0.ch)).take rs0.ch)[c]? = some (xs.getD (p * rs0.ch + c) 0) := by
      rw [List.getElem?_take_of_lt hc, List.getElem?_drop,
        List.getElem?_eq_getElem (by omega), List.getD_eq_getElem _ _ (by omega)]
    rw [e]
  · intro c hc
    show (shiftFrame _ _)[c]? = _
    rw [shiftFrame_getElem?, ← h.kept c hc]
    have e : ((xs.drop (p * rs0.ch)).take rs0.ch)[c]? = none := by
      rw [List.getElem?_eq_none_iff]; simp; omega
    rw [e]
    cases rs.hist[c]? <;> rfl

/-- The pull loop with `k` turns, `p` of the fed region's `f` frames already pulled: if the frames it
reaches hold values, it pulls `min k (f - p)` more, and says whether the turns were all made. -/
theorem Resampler.AfterPulls.pullLoop {m : Memory} {taps f k p : Nat} {rs0 rs : Resampler}
    {xs : List Word} (ht : 1 ≤ taps) (hch : 1 ≤ rs0.ch) (hf : rs0.srcRem = f * rs0.ch)
    (hx : min (p + k) f * rs0.ch ≤ xs.length) (hm : m.holds rs0.srcPtr xs)
    (h : rs0.AfterPulls taps xs p rs) (hp : p ≤ f) (he : rs.exh = false) :
    ∃ e rs', Machine.pullLoop m k rs = .ok (e, rs') ∧ rs'.pend = rs.pend ∧
      (p + k ≤ f → e = .ready ∧ rs0.AfterPulls taps xs (p + k) rs' ∧ rs'.exh = false ∧
        rs'.posNum = rs.posNum - k * rs0.dstRate) ∧
      (f < p + k → e = (if rs0.last then PullEnd.exhausted else .needSrc) ∧
        rs0.AfterPulls taps xs f rs' ∧ rs'.exh = rs0.last ∧
        rs'.posNum = rs.posNum - (f - p) * rs0.dstRate) := by
  induction k generalizing p rs with
  | zero =>
    exact ⟨.ready, rs, rfl, rfl, fun _ => ⟨rfl, h, he, by simp⟩, fun h' => by omega⟩
  | succ k ih =>
    rcases Nat.lt_or_ge p f with hlt | hge
    · have hle : (p + 1) * rs0.ch ≤ rs0.srcRem := by rw [hf]; exact Nat.mul_le_mul_right _ hlt
      have hx1 : (p + 1) * rs0.ch ≤ xs.length :=
        (Nat.mul_le_mul_right _ (by omega : p + 1 ≤ min (p + (k + 1)) f)).trans hx
      obtain ⟨rs1, h1, h2, h3, h4, h5⟩ := h.pull ht hx1 hm hle
      have hne : rs.srcRem ≠ 0 := by
        have : (p + 1) * rs0.ch = p * rs0.ch + rs0.ch := Nat.succ_mul p rs0.ch
        rw [h.srcRem]; omega
      have h2' : rs0.AfterPulls taps xs (p + 1) { rs1 with posNum := rs1.posNum - rs1.dstRate } :=
        h2.congr ⟨rfl, rfl, rfl, rfl, rfl⟩ rfl rfl rfl
      obtain ⟨e, rs', a1, a2, a3, a4⟩ := ih (by rwa [Nat.add_right_comm]) h2' hlt (h5.trans he)
      refine ⟨e, rs', ?_, a2.trans h4, fun hk => ?_, fun hk => ?_⟩
      · simp only [Machine.pullLoop, if_neg hne, h1, a1]
      · obtain ⟨b1, b2, b3, b4⟩ := a3 (by omega)
        refine ⟨b1, by rwa [Nat.add_right_comm] at b2, b3, ?_⟩
        have : (k + 1) * rs0.dstRate = k * rs0.dstRate + rs0.dstRate := Nat.succ_mul k rs0.dstRate
        rw [b4]
        dsimp only
        rw [h2.same.dstRate, h3]
        omega
      · obtain ⟨b1, b2, b3, b4⟩ := a4 (by omega)
        refine ⟨b1, b2, b3, ?_⟩
        have : (f - p) * rs0.dstRate = (f - (p + 1)) * rs0.dstRate + rs0.dstRate := by
          rw [← Nat.succ_mul]; congr 1; omega
        rw [b4]
        dsimp only
        rw [h2.same.dstRate, h3]
        omega
    · obtain rfl : p = f := by omega
      have h0 : rs.srcRem = 0 := by rw [h.srcRem, hf]; omega
      cases hl : rs0.last
      · refine ⟨.needSrc, rs, ?_, rfl, fun hk => by omega, fun _ => ⟨rfl, h, he, by simp⟩⟩
        simp [Machine.pullLoop, h0, h.same.last, hl]
      · refine ⟨.exhausted, { rs with exh := true }, ?_, rfl, fun hk => by omega, fun _ =>
          ⟨rfl, h.congr ⟨rfl, rfl, rfl, rfl, rfl⟩ rfl rfl rfl, rfl, by simp⟩⟩
        simp [Machine.pullLoop, h0, h.same.last, hl]

/-! ## A step of a run -/

/-- `rs` is where a run from `rs0` stands before its output `n`, with `p` frames pulled: the phase the
step starts its pulls with is the total phase less one unit a pull. -/
structure Resampler.BeforeOutput (taps : Nat) (rs0 : Resampler) (xs : List Word) (n p : Nat)
    (rs : Resampler) : Prop where
  pulls : rs0.AfterPulls taps xs p rs
  phase : (advancePhase rs).posNum + p * rs0.dstRate = rs0.totalPhase n
  exh : rs.exh = false

theorem Resampler.BeforeOutput.start {taps : Nat} {rs0 : Resampler} (xs : List Word)
    (h : ∀ x ∈ rs0.hist, x.length = taps) (he : rs0.exh = false) :
    rs0.BeforeOutput taps xs 0 0 rs0 := by
  refine ⟨.zero xs h, ?_, he⟩
  unfold Resampler.totalPhase advancePhase
  cases rs0.pend <;> simp

/-- A step of a run whose frames hold values: it produces output `n` exactly when the feed can supply its pulls, and else stops
with every fed frame pulled and the increment pending (44_resampler.md R296). -/
theorem Resampler.BeforeOutput.step {m : Memory} {taps f n p d : Nat} {rs0 rs : Resampler}
    {xs : List Word} (ht : 1 ≤ taps) (hch : 1 ≤ rs0.ch) (hd : 1 ≤ rs0.dstRate)
    (hf : rs0.srcRem = f * rs0.ch) (hx : min (rs0.pullsAt n) f * rs0.ch ≤ xs.length)
    (hm : m.holds rs0.srcPtr xs) (hp : p ≤ f) (h : rs0.BeforeOutput taps xs n p rs) :
    (rs0.pullsAt n ≤ f → ∃ rs', rs0.BeforeOutput taps xs (n + 1) (rs0.pullsAt n) rs' ∧
      rs'.pend = false ∧ rs'.posNum = rs0.phaseAt n ∧
      rsStep m taps d rs = .ok (.out (outputFrame taps (rs0.phaseAt n) rs0.dstRate d
        (rs'.hist.take rs0.ch)), rs')) ∧
    (f < rs0.pullsAt n → ∃ rs', rs0.AfterPulls taps xs f rs' ∧ rs'.pend = true ∧
      rs'.exh = rs0.last ∧ rs'.posNum + f * rs0.dstRate = rs0.totalPhase n ∧
      rsStep m taps d rs = .ok (if rs0.last then .exhausted else .needSrc, rs')) := by
  have hadv := advancePhase_sameStream rs
  have hA : rs0.AfterPulls taps xs p (advancePhase rs) := by
    unfold advancePhase
    split
    · exact h.pulls
    · exact h.pulls.congr ⟨rfl, rfl, rfl, rfl, rfl⟩ rfl rfl rfl
  have hpend : (advancePhase rs).pend = true := by
    unfold advancePhase
    split
    · assumption
    · rfl
  have hexh : (advancePhase rs).exh = false := by
    unfold advancePhase
    split <;> exact h.exh
  have hk : (advancePhase rs).posNum / (advancePhase rs).dstRate = rs0.pullsAt n - p := by
    rw [hA.same.dstRate]
    unfold Resampler.pullsAt
    rw [← h.phase, Nat.add_mul_div_right _ _ hd, Nat.add_sub_cancel]
  have hle : p ≤ rs0.pullsAt n := by
    unfold Resampler.pullsAt
    rw [Nat.le_div_iff_mul_le hd, ← h.phase]
    omega
  have hdm : rs0.phaseAt n + rs0.pullsAt n * rs0.dstRate = rs0.totalPhase n := by
    unfold Resampler.phaseAt Resampler.pullsAt
    rw [Nat.mul_comm]
    exact Nat.mod_add_div _ _
  obtain ⟨e, rs2, a1, a2, a3, a4⟩ := hA.pullLoop (k := rs0.pullsAt n - p) ht hch hf
    (by rwa [Nat.add_sub_cancel' hle]) hm hp hexh
  have hstep : ∀ r rs', (match Machine.pullLoop m (rs0.pullsAt n - p) (advancePhase rs) with
      | .error w => .error w
      | .ok (.needSrc, rs2) => .ok (StepResult.needSrc, rs2)
      | .ok (.exhausted, rs2) => .ok (.exhausted, rs2)
      | .ok (.ready, rs2) =>
        .ok (.out (outputFrame taps rs2.posNum rs2.dstRate d (rs2.hist.take rs2.ch)),
          { rs2 with pend := false })) = Except.ok (r, rs') → rsStep m taps d rs = .ok (r, rs') := by
    intro r rs' hr
    unfold rsStep
    rw [h.exh]
    simp only [Bool.false_eq_true, if_false, hk]
    exact hr
  have hsub := Nat.sub_mul (rs0.pullsAt n) p rs0.dstRate
  have hmul : p * rs0.dstRate ≤ rs0.pullsAt n * rs0.dstRate := Nat.mul_le_mul_right _ hle
  have hph := h.phase
  constructor
  · intro hn
    obtain ⟨rfl, b2, b3, b4⟩ := a3 (by omega)
    rw [Nat.add_sub_cancel' hle] at b2
    have hpos : rs2.posNum = rs0.phaseAt n := by rw [b4]; omega
    have hout : rs0.AfterPulls taps xs (rs0.pullsAt n) { rs2 with pend := false } :=
      b2.congr ⟨rfl, rfl, rfl, rfl, rfl⟩ rfl rfl rfl
    refine ⟨{ rs2 with pend := false }, ⟨hout, ?_, b3⟩, rfl, hpos, hstep _ _ ?_⟩
    · show rs2.posNum + rs2.srcRate + _ = _
      rw [hpos, b2.same.srcRate]
      unfold Resampler.totalPhase at hdm ⊢
      rw [Nat.succ_mul]
      omega
    · simp only [a1]
      rw [hpos, b2.same.dstRate, b2.same.ch]
  · intro hn
    obtain ⟨rfl, b2, b3, b4⟩ := a4 (by omega)
    refine ⟨rs2, b2, a2.trans hpend, b3, ?_, hstep _ _ ?_⟩
    · have h1 := Nat.sub_mul f p rs0.dstRate
      have h2 : p * rs0.dstRate ≤ f * rs0.dstRate := Nat.mul_le_mul_right _ hp
      have h3 : f * rs0.dstRate ≤ rs0.pullsAt n * rs0.dstRate := Nat.mul_le_mul_right _ hn.le
      rw [b4]; omega
    · simp only [a1]
      cases rs0.last <;> rfl

end Sys2Proof.Machine
end

