-- ==== Sys2Proof/Tests/Slice0.lean ====
section
/-! SUPPORT. Tests from the spec's own words and vectors (95_test_vectors.md names F1, P2, A5 ... and the
encodings of 30_encoding.md), and for every statement of Certificates/Slice0/Obligations.lean a witness
that meets its hypotheses, clause by clause. -/

namespace Sys2Proof.Tests

open Sys2Proof.Machine

/-! ## A small bench -/

/-- A small legal instance: 1024 words, FFT_MAX 16, two channels, four taps. -/
def small : Config.Params := { memWordsLog2 := 10, fftMaxLog2 := 4, chMax := 2, taps := 4 }

/-- The small instance after reset. -/
def bench : State := State.resetOf small

/-- The bench with DMEM words `ws` from word 0. -/
def benchMem (ws : List Word) : State := { bench with mem := Memory.writeWords [] 0 ws }

/-- The bench with a command latched and running. -/
def running (c : Command) : State :=
  { bench with
    cmd := c.cmd, arg0 := c.arg0, arg1 := c.arg1, arg2 := c.arg2, arg3 := c.arg3, arg4 := c.arg4,
    busy := true }

/-- The bench configured for `ch` channels at the identity ratio, `words` fed from word 0. -/
def streaming (ch : Nat) (last : Bool) (ws : List Word) : State :=
  { benchMem ws with
    rs := { configured small ch 48000 48000 with last := last, srcRem := ws.length } }

/-- Three one-channel frames fed, of which only the first holds a value. -/
def sparse : State := { streaming 1 false [5, 6, 7] with mem := (benchMem [5]).mem }

/-- The state an outcome leaves, if it is a next state. -/
def after : Outcome → Option State
  | .next t => some t
  | .fault _ => none
  | .refused _ => none

/-- Whether an outcome is a next state. -/
def completes (o : Outcome) : Bool := (after o).isSome

theorem exists_of_completes {o : Outcome} (h : completes o = true) : ∃ t, o = .next t := by
  cases o with
  | next t => exact ⟨t, rfl⟩
  | fault _ => cases h
  | refused _ => cases h

/-- What a word reads as after an outcome. -/
def wordAfter (o : Outcome) (w : Nat) : Option Word := (after o).bind (fun t => t.mem.readWord w)

/-- STATUS after an outcome. -/
def statusAfter (o : Outcome) : Option Word := (after o).map State.statusWord

/-- RESULT0 and RESULT1 after an outcome. -/
def resultsAfter (o : Outcome) : Option (Word × Word) := (after o).map (fun t => (t.result0, t.result1))

/-- What a host read returned. -/
def readData (o : Outcome) : Option Word := (after o).map State.portData

/-! ## Decoding: words written out from 30_encoding.md R123, R124 -/

theorem test_decode_nop : decode ⟨0x00000000, 1, 2, 3, 4, 5⟩ = .ok .nop := by decide

theorem test_decode_fdes :
    decode ⟨0x00000001, 0x100, 3, 0, 2000, 8000⟩ = .ok (.fdes 0x100 3 0 2000 8000) := by decide

theorem test_decode_conv :
    decode ⟨0x00000002, 0x200, 0x000, 3, 0x100, 2⟩ = .ok (.conv 0x200 0x000 3 0x100 2) := by decide

theorem test_decode_power : decode ⟨0x00000003, 9, 0x010, 4, 7, 8⟩ = .ok (.power 0x010 4) := by decide

theorem test_decode_ngen :
    decode ⟨0x00000004, 0x100, 0x000, 4, 0x41200000, 6⟩ = .ok (.ngen 0x100 0x000 4 0x41200000) := by
  decide

theorem test_decode_vadd :
    decode ⟨0x00000005, 0x200, 0x000, 4, 0x100, 6⟩ = .ok (.vadd 0x200 0x000 4 0x100) := by decide

theorem test_decode_rscfg :
    decode ⟨0x00000010, 2, 44100, 48000, 6, 7⟩ = .ok (.rscfg 2 44100 48000) := by decide

theorem test_decode_rsfeed :
    decode ⟨0x00000011, 6, 0x040, 24, 1, 7⟩ = .ok (.rsfeed 0x040 24 1) := by decide

theorem test_decode_rsrun : decode ⟨0x00000012, 0x100, 6, 30, 7, 8⟩ = .ok (.rsrun 0x100 30) := by decide

/-- Numbered bits: CMD in bits 31:0, ARG0 in bits 63:32, ARG1 in bits 95:64, ARG2 in bits 127:96. -/
theorem test_decode_table_word :
    decodeTableWord 128 0x0000001E_00000006_00000100_00000012 = some (.rsrun 0x100 30) := by decide

/-- L2 to L5: unassigned opcodes and reserved bits are ILLEGAL. -/
theorem test_decode_illegal :
    decode ⟨0x00000006, 0, 0, 0, 0, 0⟩ = .error .unassignedOpcode ∧
    decode ⟨0x0000000F, 0, 0, 0, 0, 0⟩ = .error .unassignedOpcode ∧
    decode ⟨0x00000013, 0, 0, 0, 0, 0⟩ = .error .unassignedOpcode ∧
    decode ⟨0x000000FF, 0, 0, 0, 0, 0⟩ = .error .unassignedOpcode ∧
    decode ⟨0x00000100, 0, 0, 0, 0, 0⟩ = .error .reservedBits ∧
    decode ⟨0xFFFFFF01, 0, 0, 0, 0, 0⟩ = .error .reservedBits := by decide

/-! ## Well-formedness: an ill-formed term for each check -/

theorem test_wellFormed_accepts :
    Instr.wellFormed (.fdes 0 3 0 2000 8000) = true ∧ Instr.wellFormed (.ngen 0 0 4 0x41200000) = true ∧
    Instr.wellFormed (.rscfg 255 0x7FFFFFFF 1) = true ∧ Instr.wellFormed (.rsfeed 0 4 1) = true := by
  decide

theorem test_wellFormed_refuses_even_length :
    Instr.wellFormed (.fdes 0 4 0 2000 8000) = false ∧
    Instr.wellFormed (.fdes 0 0 0 2000 8000) = false := by decide

theorem test_wellFormed_refuses_zero_rate : Instr.wellFormed (.fdes 0 3 0 2000 0) = false := by decide

theorem test_wellFormed_refuses_nonfinite_snr :
    Instr.wellFormed (.ngen 0 0 4 0x7F800000) = false ∧
    Instr.wellFormed (.ngen 0 0 4 0x7FC00000) = false := by decide

theorem test_wellFormed_refuses_channel_count :
    Instr.wellFormed (.rscfg 0 1 1) = false ∧ Instr.wellFormed (.rscfg 256 1 1) = false := by decide

theorem test_wellFormed_refuses_rates :
    Instr.wellFormed (.rscfg 1 0 1) = false ∧ Instr.wellFormed (.rscfg 1 0x80000000 1) = false ∧
    Instr.wellFormed (.rscfg 1 1 0) = false ∧ Instr.wellFormed (.rscfg 1 1 0x80000000) = false := by
  decide

theorem test_wellFormed_refuses_flag_bits : Instr.wellFormed (.rsfeed 0 4 3) = false := by decide

/-! ## The assembly of 30_encoding.md R135, and the lifecycle -/

/-- `power 0x010, 4` under `.ien 1` expands to ARG1, ARG2, CMD, CTRL and the wait. -/
theorem test_assemble_power :
    assemble [.ien true, .command (.power 0x010 4) false] = some
      [.write 0x018 0x010, .write 0x01C 4, .write 0x010 3, .write 0x008 5, .branch 0x00C 1 4] := by
  decide

/-- R134: the first, and the last word whose offset the aperture has; the next has none. -/
theorem test_assemble_dmem :
    assemble [.dmem 0x10 [.num 7, .num 8]] = some [.write 0x1000040 7, .write 0x1000044 8] ∧
    assemble [.dmem 0x3FFFFF [.num 7]] = some [.write 0x1FFFFFC 7] ∧
    assemble [.dmem 0x3FFFFF [.num 7, .num 8]] = none ∧ assemble [.dmem 0x400002 [.num 1]] = none := by
  decide

/-- R25: a run ends with the host's last access, here a START, so a later Engine turn is no part of it. -/
theorem test_run_ends_at_last_access :
    System.run [.host, .engine] (System.boot [.write 0x008 1] bench) =
      System.run [.host] (System.boot [.write 0x008 1] bench) := rfl

/-- L1: NOP from reset. -/
theorem test_nop : statusAfter (exec .nop State.reset) = some 0x00000002 := by decide

/-- L2: an unassigned opcode completes with E_ILLEGAL. -/
theorem test_illegal :
    statusAfter (step (running ⟨0x00000006, 0, 0, 0, 0, 0⟩)) = some 0x00000016 := by decide

/-- L6, L7: acknowledging. -/
theorem test_acknowledge :
    ((bench.completeError .illegal).writeStatus 4).statusWord = 0x00000002 ∧
    ((bench.completeError .illegal).writeStatus 6).statusWord = 0x00000000 := by decide

/-- L12, L13, L17: ID, CAP and a reserved offset. -/
theorem test_register_reads :
    readData (hostAccess (.read 0x000 4) State.reset) = some 0x4E524431 ∧
    readData (hostAccess (.read 0x004 4) State.reset) = some 0x10081514 ∧
    readData (hostAccess (.read 0x048 4) State.reset) = some 0 := by decide

/-- L14, L15, L16, L18: bus errors. -/
theorem test_bus_errors :
    (after (hostAccess (.read 0x002 4) State.reset)).bind State.port = some ⟨.slverr, some 0⟩ ∧
    (after (hostAccess (.read 0x000 2) State.reset)).bind State.port = some ⟨.slverr, some 0⟩ ∧
    (after (hostAccess (.read 0x100 4) State.reset)).bind State.port = some ⟨.decerr, some 0⟩ ∧
    (after (hostAccess (.read 0x1800000 4) State.reset)).bind State.port = some ⟨.decerr, some 0⟩ := by
  decide

/-- A command given as one number runs in the very next step: VADD with n = 0. -/
theorem test_withFetchWord :
    statusAfter (step (State.reset.withFetchWord 192 5)) = some 0x00000002 := by decide

/-! ## Commands, against the vectors of 95_test_vectors.md -/

/-- F1 and F2: the exact centre tap, of either sign. -/
theorem test_fdes_centre :
    wordAfter (exec (.fdes 0x100 1 0 1000 8000) bench) 0x100 = some 0x3E800000 ∧
    wordAfter (exec (.fdes 0x100 1 3000 1000 8000) bench) 0x100 = some 0xBF000000 := by decide +kernel

/-- F9 and F12 (the range scaled to the bench): E_PARAM, then E_RANGE. -/
theorem test_fdes_errors :
    statusAfter (exec (.fdes 0x100 0 0 1000 8000) bench) = some 0x26 ∧
    statusAfter (exec (.fdes 1022 3 0 1000 8000) bench) = some 0x36 := by decide

/-- V1's lengths, and V9's E_LENGTH scaled to the bench. -/
theorem test_conv_lengths :
    resultsAfter (exec (.conv 8 0 3 3 3) (benchMem
      [0x3F800000, 0, 0, 0x3F800000, 0x40000000, 0x40400000])) = some (5, 8) ∧
    statusAfter (exec (.conv 0 0 9 0 9) bench) = some 0x46 := by decide

/-- P2, P4 and P6. -/
theorem test_power :
    powerOf [0x3F800000, 0xBF800000, 0x3F800000, 0xBF800000] = 0x3F800000 ∧
    powerOf [0x40400000, 0x40800000] = 0x41480000 ∧
    powerOf [0x3F800000, 0x40000000, 0x40400000] = 0x40955555 := by decide +kernel

/-- P8 to P12. -/
theorem test_power_special :
    powerOf [0x7149F2CA, 0x7149F2CA] = 0x7F800000 ∧ powerOf [0x7FC00001] = 0x7FC00000 ∧
    powerOf [0xFF800000] = 0x7F800000 ∧ powerOf [0x80000000] = 0x00000000 ∧
    powerOf [0x00000001] = 0x00000000 := by decide +kernel

/-- G1: a silent input. -/
theorem test_ngen_silent :
    wordAfter (exec (.ngen 8 0 3 0x41200000) (benchMem [0, 0x80000000, 0])) 9 = some 0x00000000 ∧
    resultsAfter (exec (.ngen 8 0 3 0x41200000) (benchMem [0, 0x80000000, 0])) = some (0, 0) := by
  decide +kernel

/-- G6: a NaN snr is E_PARAM. -/
theorem test_ngen_snr : statusAfter (exec (.ngen 8 0 3 0x7FC00000) bench) = some 0x26 := by decide

/-- A2, A5, A7, A10 and A12. -/
theorem test_vadd_sums :
    add32 0x7F7FFFFF 0x7F7FFFFF = 0x7F800000 ∧ add32 0x3F800000 0x33800000 = 0x3F800000 ∧
    add32 0x3F800000 0x34400000 = 0x3F800002 ∧ add32 0x3FC00000 0xBFC00000 = 0x00000000 ∧
    add32 0x7FC00001 0x3F800000 = 0x7FC00000 := by decide +kernel

/-- In place is allowed, a partial overlap is E_OVERLAP. -/
theorem test_vadd_overlap :
    wordAfter (exec (.vadd 0 0 2 0) (benchMem [0x3F800000, 0x40000000])) 1 = some 0x40800000 ∧
    statusAfter (exec (.vadd 1 0 4 0x10) bench) = some 0x76 := by decide +kernel

/-- The example of R280, in the small instance. -/
theorem test_rscfg :
    (after (exec (.rscfg 2 44100 48000) bench)).map (fun t => (t.rs.ch, t.rs.srcRate, t.rs.dstRate)) =
      some (2, 44100, 48000) ∧
    statusAfter (exec (.rscfg 3 1 1) bench) = some 0x26 := by decide

/-- The example of R285: E_MALFORMED, then two frames. -/
theorem test_rsfeed :
    statusAfter (exec (.rsfeed 0 3 1) (streaming 2 false [])) = some 0x156 ∧
    resultsAfter (exec (.rsfeed 0 4 1) (streaming 2 false [])) = some (2, 0) := by decide

/-- R1, scaled to T = 4: two frames of +0.0, then the source, then exhaustion. -/
theorem test_rsrun_identity :
    (wordAfter (exec (.rsrun 0x100 8) (streaming 1 true [5, 6, 7])) 0x101,
      wordAfter (exec (.rsrun 0x100 8) (streaming 1 true [5, 6, 7])) 0x102,
      resultsAfter (exec (.rsrun 0x100 8) (streaming 1 true [5, 6, 7])),
      statusAfter (exec (.rsrun 0x100 8) (streaming 1 true [5, 6, 7]))) =
    (some 0, some 5, some (3, 2), some 0xF02) := by decide

/-- R5: NEED_SRC leaves the increment pending. -/
theorem test_rsrun_need_src :
    (resultsAfter (exec (.rsrun 0x100 4) (streaming 1 false [5, 6])),
      statusAfter (exec (.rsrun 0x100 4) (streaming 1 false [5, 6]))) =
    (some (2, 1), some 0x302) := by decide

/-! ## Witnesses: the hypotheses of every statement that has some are met -/

theorem benchMem_holds (ws : List Word) : (benchMem ws).mem.holds 0 ws :=
  fun _ h => Memory.readWord_writeWords_inside [] 0 ws h

theorem streaming_sound {ch : Nat} (last : Bool) {ws : List Word} (h1 : 1 ≤ ch) (h2 : ch ≤ 2)
    (h3 : ws.length % ch = 0) (h4 : ws.length ≤ 1024) :
    (streaming ch last ws).rs.Sound (streaming ch last ws).params :=
  { shape := ⟨rfl, show ∀ h ∈ Resampler.zeroHist small, h.length = 4 by decide⟩
    unconfigured := (fun h => by cases h)
    configured := fun _ =>
      { ch_pos := h1, ch_le := h2, src_pos := (show 1 ≤ 48000 by decide),
        src_le := (show 48000 ≤ maxRate by decide), dst_pos := (show 1 ≤ 48000 by decide),
        dst_le := (show 48000 ≤ maxRate by decide), pos_idle := fun _ => (show 0 < 48000 by decide),
        pos_pend := (fun h => by cases h), whole_frames := h3,
        region := (show 0 + ws.length ≤ 1024 by omega), exhausted := (fun h => by cases h) } }

theorem small_legal : small.legal = true := by decide

theorem witness_DecodeEncodeAgree :
    decode ⟨0x00000010, 2, 44100, 48000, 6, 7⟩ = .ok (.rscfg 2 44100 48000) ∧
    (2, (48000 : Word)) ∈ usedArgs (.rscfg 2 44100 48000) := by decide

theorem witness_StepRunsDecodedCommand :
    let s := running ⟨3, 0, 0, 0, 0, 0⟩
    let u := running ⟨0x100, 0, 0, 0, 0, 0⟩
    (s.busy = true ∧ decode s.command = .ok (.power 0 0) ∧ s.inputs = []) ∧
    (s.busy = true ∧ decode ({ s with inputs := [.engine] } : State).command = .ok (.power 0 0)) ∧
    (u.busy = true ∧ decode u.command = .error .reservedBits ∧ u.inputs = []) := by decide

theorem witness_OtherTurnsOfTheStep :
    ({ bench with inputs := [.host (.read 0 4)] } : State).inputs = .host (.read 0 4) :: [] ∧
    ({ bench with inputs := [.hardwareReset] } : State).inputs = .hardwareReset :: [] ∧
    (bench.busy = false ∧ bench.inputs = []) ∧
    (bench.busy = false ∧ ({ bench with inputs := [.engine] } : State).inputs = .engine :: []) := by
  decide

/-- POWER does not use ARG0, ARG3 and ARG4. -/
theorem witness_HostSequenceLatchesTheCommand :
    bench.busy = false ∧ 0 ∉ (usedArgs (.power 1 2)).map Prod.fst ∧
      4 ∉ (usedArgs (.power 1 2)).map Prod.fst := by decide

/-- POWER ignores ARG0, ARG3 and ARG4: two sets of argument values, one command. -/
theorem witness_IgnoredArgumentsNeverMatter :
    decode (running ⟨3, 0, 8, 2, 0, 0⟩).command = .ok (.power 8 2) ∧
    decode ((running ⟨3, 0, 8, 2, 0, 0⟩).withArgs 9 8 2 7 6).command = .ok (.power 8 2) := by decide

theorem witness_EveryCompletionSignals :
    (∃ t, exec .nop bench = .next t) ∧ ∃ t, exec (.fdes 0 4 0 0 0) bench = .next t :=
  ⟨exists_of_completes (by decide), exists_of_completes (by decide)⟩

theorem witness_FailureHasNoOtherEffect :
    bench.err = false ∧ exec (.fdes 0 4 0 0 0) bench = .next (bench.failed 2) ∧
      (bench.failed 2).err = true := ⟨rfl, rfl, rfl⟩

theorem witness_FaultsAreUninitialisedReads :
    exec (.power 7 1) bench = .fault (.uninit 7) := rfl

theorem witness_FdesWritesDesignedTaps :
    (3 : Word).toNat % 2 = 1 ∧ (8000 : Word).toNat ≠ 0 ∧
      bench.InRange (1021 : Word).toNat (3 : Word).toNat := ⟨by decide, by decide, .inr (by decide)⟩

theorem witness_FdesErrorsInOrder :
    (0 : Word).toNat % 2 = 0 ∧ ((3 : Word).toNat % 2 = 1 ∧ (0 : Word).toNat = 0) ∧
    ((3 : Word).toNat % 2 = 1 ∧ (1 : Word).toNat ≠ 0 ∧
      ¬ bench.InRange (1022 : Word).toNat (3 : Word).toNat) :=
  ⟨by decide, by decide, by decide, by decide, by unfold State.InRange; decide⟩

/-- For IdealCentreTap and IdealTapsSymmetric. -/
theorem witness_IdealTaps : (1 : ℕ) % 2 = 1 ∧ (3 : ℕ) % 2 = 1 ∧ 0 < 3 ∧ 2 < 3 := by decide

/-- CONV at the top of DMEM, finite operands, neither all zeros. -/
theorem witness_ConvWritesOutput :
    let xs : List Word := [0x3F800000, 0x40000000]
    let s := benchMem xs
    xs.length = (2 : Word).toNat ∧ s.InRange (0 : Word).toNat (2 : Word).toNat ∧
    s.InRange (1021 : Word).toNat (convOutLen (2 : Word).toNat (2 : Word).toNat) ∧
    convFftLen (convOutLen (2 : Word).toNat (2 : Word).toNat) ≤ s.params.fftMax ∧
    s.mem.holds (0 : Word).toNat xs ∧ xs.all isFinite32 = true ∧ xs.all isZero32 = false :=
  ⟨by decide, .inr (by decide), .inr (by decide), by decide, benchMem_holds _, by decide, by decide⟩

/-- A zero kernel of either sign, and an empty one. -/
theorem witness_ConvZeroOperandIsExact :
    let s := benchMem [0x3F800000, 0x80000000]
    s.mem.holds 0 [0x3F800000] ∧ s.mem.holds 1 [0x80000000] ∧ s.mem.holds 0 [] ∧
    ([0x80000000] : List Word).all isZero32 = true ∧ ([] : List Word).all isZero32 = true ∧
    ([0x3F800000] : List Word).all isFinite32 = true ∧
    checkOf (.conv 5 0 1 1 1) s = none ∧ checkOf (.conv 5 0 1 0 0) s = none := by
  unfold Memory.holds
  decide

theorem witness_ConvErrorsInOrder :
    ¬ bench.InRange 1023 2 ∧ bench.InRange 1022 2 ∧ bench.InRange 0 9 ∧
    ¬ bench.InRange 1022 (convOutLen 2 2) ∧ bench.InRange 0 (convOutLen 9 9) ∧
    bench.params.fftMax < convFftLen (convOutLen 9 9) := by
  unfold State.InRange
  decide

theorem witness_TransformLengthIsNextPowerOfTwo : 1 ≤ 0 + 1 ∧ 1 ≤ (1 : ℕ) := by decide

theorem witness_FftConvolutionIsDirect :
    1 ≤ ([0x3F800000, 0x40000000] : List Word).length ∧ 1 ≤ ([0x3F800000] : List Word).length ∧
    1 < convOutLen 2 1 := by decide

theorem witness_PowerReportsMeanSquare :
    ([0x3F800000] : List Word).length = (1 : Word).toNat ∧
    (benchMem [0x3F800000]).InRange (0 : Word).toNat (1 : Word).toNat ∧
    (benchMem [0x3F800000]).mem.holds (0 : Word).toNat [0x3F800000] ∧
    bench.InRange (5000 : Word).toNat (0 : Word).toNat ∧ bench.mem.holds (5000 : Word).toNat [] :=
  ⟨by decide, .inr (by decide), benchMem_holds _, .inl (by decide), fun _ h => by cases h⟩

theorem witness_SquareIsExact : isFinite32 0x7F7FFFFF = true ∧ isFinite32 0x00000001 = true := by
  decide

/-- For PowerSpecialResults and PowerNeverNegative. -/
theorem witness_PowerSpecialResults :
    ([0x80000000] : List Word).length < 2 ^ 32 ∧ ([0x80000000] : List Word).all isZero32 = true ∧
    ([0x7F800000, 0x7FC00001] : List Word).any isNaN32 = true ∧
    (([0xFF800000] : List Word).any isNaN32 = false ∧
      ([0xFF800000] : List Word).any isInf32 = true) := by decide

/-- For NgenScalesGaussianDraws, NgenSilentInput and NgenNonFinitePower: a finite power that is not zero,
+0, and an infinite one. -/
theorem witness_Ngen :
    isFinite32 0x41200000 = true ∧ (benchMem [0x3F800000]).InRange (0 : Word).toNat (1 : Word).toNat ∧
    (benchMem [0x3F800000]).InRange (1023 : Word).toNat (1 : Word).toNat ∧
    (benchMem [0x3F800000]).mem.holds 0 [0x3F800000] ∧
    (isFinite32 (powerOf [0x3F800000]) = true ∧ isZero32 (powerOf [0x3F800000]) = false) ∧
    ((benchMem [0x80000000]).mem.holds 0 [0x80000000] ∧ isZero32 (powerOf [0x80000000]) = true) ∧
    ((benchMem [0x7F800000]).mem.holds 0 [0x7F800000] ∧ isFinite32 (powerOf [0x7F800000]) = false) :=
  ⟨by decide, .inr (by decide), .inr (by decide), benchMem_holds _,
    ⟨by decide +kernel, by decide +kernel⟩, ⟨benchMem_holds _, by decide +kernel⟩,
    benchMem_holds _, by decide +kernel⟩

/-- The destination equal to one input and clear of the other; and n = 0 anywhere. -/
theorem witness_VaddWritesSums :
    let s := benchMem [0x3F800000, 0x40000000]
    s.InRange (1 : Word).toNat (1 : Word).toNat ∧ s.InRange (0 : Word).toNat (1 : Word).toNat ∧
    (overlap (1 : Word).toNat 1 (1 : Word).toNat 1 = true → (1 : Word) = 1) ∧
    (overlap (1 : Word).toNat 1 (0 : Word).toNat 1 = true → (1 : Word) = 0) ∧
    s.mem.holds 1 [0x40000000] ∧ s.mem.holds 0 [0x3F800000] ∧ bench.InRange 5000 0 :=
  ⟨.inr (by decide), .inr (by decide), fun _ => rfl, by decide, by unfold Memory.holds; decide,
    by unfold Memory.holds; decide, .inl rfl⟩

theorem witness_NoiseErrorsInOrder :
    ¬ bench.InRange (1023 : Word).toNat (2 : Word).toNat ∧ isFinite32 0x7F800000 = false ∧
    isFinite32 0x7F7FFFFF = true ∧ bench.InRange (1 : Word).toNat (4 : Word).toNat ∧
    bench.InRange (0 : Word).toNat (4 : Word).toNat ∧
    overlap (1 : Word).toNat (4 : Word).toNat (0 : Word).toNat (4 : Word).toNat = true ∧
    (1 : Word) ≠ 0 := by
  unfold State.InRange
  decide

/-- Below the rounding threshold, at it, and at its negative. -/
theorem witness_RoundingIsNearestEven :
    |(1 / 3 : ℚ)| < 2 ^ 128 * (1 - 1 / 2 ^ 25) ∧ isFinite32 0x3EAAAAAB = true ∧
    (2 ^ 128 * (1 - 1 / 2 ^ 25) : ℚ) ≤ 2 ^ 128 * (1 - 1 / 2 ^ 25) ∧
    (-(2 ^ 128) : ℚ) ≤ -(2 ^ 128 * (1 - 1 / 2 ^ 25)) := by
  refine ⟨by norm_num [abs_of_pos], by decide, le_refl _, by norm_num⟩

theorem witness_AdditionRules :
    (isFinite32 0x3F800000 = true ∧ val32 0x3F800000 + val32 0x3F800000 ≠ 0) ∧
    (isFinite32 0x80000000 = true ∧ val32 0x80000000 + val32 0x80000000 = 0) ∧
    isNaN32 0x7FC00001 = true ∧
    (isInf32 0x7F800000 = true ∧ isInf32 0xFF800000 = true ∧
      sign32 0x7F800000 ≠ sign32 0xFF800000) := by
  refine ⟨⟨by decide, by decide +kernel⟩, ⟨by decide, by decide +kernel⟩, by decide, by decide⟩

/-- Both ends of the channel counts and of the rates. -/
theorem witness_RscfgConfigures :
    (1 ≤ (1 : Word).toNat ∧ (2 : Word).toNat ≤ bench.params.chMax) ∧
    (1 ≤ (1 : Word).toNat ∧ (0x7FFFFFFF : Word).toNat ≤ 2 ^ 31 - 1) := by decide

/-- A feed of two frames, and the empty LAST feed. -/
theorem witness_RsfeedAccepts :
    let s := streaming 2 false []
    s.rs.cfg = true ∧ s.rs.last = false ∧ s.rs.srcRem = 0 ∧ (1 : Word).toNat ≤ 1 ∧
    (4 : Word).toNat % s.rs.ch = 0 ∧ s.InRange (1020 : Word).toNat (4 : Word).toNat ∧
    (0 : Word).toNat % s.rs.ch = 0 ∧ s.InRange (5000 : Word).toNat (0 : Word).toNat := by
  unfold State.InRange
  decide

theorem witness_ResamplerErrorsInOrder :
    let s := streaming 2 false []
    let u := streaming 2 false [1, 2, 3, 4]
    s.params.chMax < (3 : Word).toNat ∧ 2 ^ 31 - 1 < (0x80000000 : Word).toNat ∧
    bench.rs.cfg = false ∧ (streaming 2 true []).rs.last = true ∧ u.rs.srcRem ≠ 0 ∧
    (s.rs.cfg = true ∧ s.rs.last = false ∧ s.rs.srcRem = 0) ∧ 2 ≤ (2 : Word).toNat ∧
    (3 : Word).toNat % s.rs.ch ≠ 0 ∧ ¬ s.InRange (1022 : Word).toNat (4 : Word).toNat ∧
    ¬ u.InRange (1021 : Word).toNat ((2 : Word).toNat * u.rs.ch) ∧
    (u.rs.cfg = true ∧ u.InRange (3 : Word).toNat ((2 : Word).toNat * u.rs.ch) ∧
      overlap (3 : Word).toNat ((2 : Word).toNat * u.rs.ch) u.rs.srcPtr u.rs.srcRem = true) := by
  unfold State.InRange
  decide

theorem witness_PullShiftsOneFrame :
    let s := streaming 2 false [1, 2]
    small.legal = true ∧ s.rs.Sound small ∧ s.rs.cfg = true ∧
    ([1, 2] : List Word).length = s.rs.ch ∧ s.mem.holds s.rs.srcPtr [1, 2] ∧ s.rs.ch ≤ s.rs.srcRem :=
  ⟨small_legal, streaming_sound _ (by decide) (by decide) (by decide) (by decide), rfl, rfl,
    benchMem_holds _, by decide⟩

/-- For RsrunProducesTheStream and RsrunLeavesTheResampler: their premises, with a run that stops for
each of the three reasons: two frames wanted of two fed, four wanted of two fed, and the same at the end
of the stream. -/
theorem witness_Rsrun :
    let ws : List Word := [5, 6]
    let s := streaming 1 false ws
    let u := streaming 1 true ws
    (s.params.legal = true ∧ s.rs.Sound s.params ∧ s.rs.cfg = true ∧ s.rs.exh = false ∧
      ws.length = s.rs.framesPulled (4 : Word).toNat * s.rs.ch ∧ s.mem.holds s.rs.srcPtr ws ∧
      s.InRange (2 : Word).toNat ((4 : Word).toNat * s.rs.ch) ∧
      overlap (2 : Word).toNat ((4 : Word).toNat * s.rs.ch) s.rs.srcPtr s.rs.srcRem = false ∧
      checkOf (.rsrun 2 4) s = none) ∧
    (ws.length = s.rs.framesPulled (2 : Word).toNat * s.rs.ch) ∧ u.rs.Sound u.params ∧
    resultsAfter (exec (.rsrun 2 2) s) = some (2, 0) ∧
    resultsAfter (exec (.rsrun 2 4) s) = some (2, 1) ∧
    resultsAfter (exec (.rsrun 2 4) u) = some (2, 2) ∧
    resultsAfter (exec (.rsrun 2 0) u) = some (0, 0) :=
  ⟨⟨small_legal, streaming_sound _ (by decide) (by decide) (by decide) (by decide), rfl, rfl, by decide,
    benchMem_holds _, .inr (by decide), by decide, by decide⟩, by decide,
    streaming_sound _ (by decide) (by decide) (by decide) (by decide), by decide, by decide, by decide,
    by decide⟩

/-- Fed words that are not pulled hold no value: one output pulls only the first frame, none pull none. -/
theorem witness_Rsrun_unpulled_words :
    let s := sparse
    s.rs.Sound s.params ∧ ([5] : List Word).length = s.rs.framesPulled (1 : Word).toNat * s.rs.ch ∧
    s.mem.holds s.rs.srcPtr [5] ∧ ([] : List Word).length = s.rs.framesPulled (0 : Word).toNat * s.rs.ch ∧
    s.mem.holds s.rs.srcPtr [] ∧ s.mem.readWord 1 = none ∧ s.mem.readWord 2 = none ∧
    checkOf (.rsrun 8 1) s = none ∧ resultsAfter (exec (.rsrun 8 1) s) = some (1, 0) ∧
    resultsAfter (exec (.rsrun 8 0) s) = some (0, 0) :=
  ⟨streaming_sound (ws := [5, 6, 7]) _ (by decide) (by decide) (by decide) (by decide), by decide,
    benchMem_holds [5], by decide, (fun _ h => by cases h), by decide, by decide, by decide, by decide,
    by decide⟩

/-- Three frames into T = 4: the first two outputs are +0.0, the third is source frame 0. -/
theorem witness_IdentityRatioReproducesTheSource :
    let ws : List Word := [5, 6, 7]
    let s := streaming 1 true ws
    s.params.legal = true ∧ 1 ≤ 1 ∧ 1 ≤ s.params.chMax ∧
    s.rs = { configured s.params 1 48000 48000 with last := true, srcPtr := 0, srcRem := 3 * 1 } ∧
    3 < (4 : Word).toNat ∧ s.InRange (8 : Word).toNat ((4 : Word).toNat * 1) ∧
    overlap (8 : Word).toNat ((4 : Word).toNat * 1) 0 (3 * 1) = false ∧ ws.length = 3 * 1 ∧
    s.mem.holds 0 ws :=
  ⟨small_legal, by decide, by decide, rfl, by decide, .inr (by decide), by decide, rfl,
    benchMem_holds _⟩

/-- An exhausted resampler, with the destination ending at the top of DMEM. -/
theorem witness_ExhaustionIsSticky :
    let s : State := { bench with
      rs := { configured small 1 48000 48000 with
        last := true, exh := true, pend := true, posNum := 48000 } }
    s.rs.cfg = true ∧ s.rs.exh = true ∧ s.rs.srcRem = 0 ∧
    s.InRange (1020 : Word).toNat ((4 : Word).toNat * s.rs.ch) := by
  unfold State.InRange
  decide

theorem witness_IdealInterpolationAtZeroPhase :
    2 % 2 = 0 ∧ 2 ≤ 2 ∧ ([1, 2] : List Word).length = 2 := by decide

/-- Each command that reads, with the first of several words that hold no value: POWER and NGEN in the
source; CONV in the kernel, past a signal that holds values, and in the signal first; VADD at `b_0`,
before `a_1`; RSRUN in the second frame it pulls. -/
theorem witness_FirstUninitialisedWordIsNamed :
    (checkOf (.power 0 3) (benchMem [1]) = none ∧
      exec (.power 0 3) (benchMem [1]) = .fault (.uninit 1)) ∧
    (checkOf (.ngen 8 0 3 0) (benchMem [1]) = none ∧
      exec (.ngen 8 0 3 0) (benchMem [1]) = .fault (.uninit 1)) ∧
    (checkOf (.conv 8 0 1 4 2) (benchMem [1]) = none ∧
      exec (.conv 8 0 1 4 2) (benchMem [1]) = .fault (.uninit 4) ∧
      exec (.conv 8 5 1 4 2) (benchMem [1]) = .fault (.uninit 5)) ∧
    (checkOf (.vadd 8 0 2 4) (benchMem [1]) = none ∧
      exec (.vadd 8 0 2 4) (benchMem [1]) = .fault (.uninit 4)) ∧
    (sparse.rs.Sound sparse.params ∧ checkOf (.rsrun 8 3) sparse = none ∧
      exec (.rsrun 8 3) sparse = .fault (.uninit 1)) :=
  ⟨⟨by decide, rfl⟩, ⟨by decide, rfl⟩, ⟨by decide, rfl, rfl⟩, ⟨by decide, rfl⟩,
    streaming_sound (ws := [5, 6, 7]) _ (by decide) (by decide) (by decide) (by decide), by decide, rfl⟩

/-- A host waiting for a NOP, under a schedule that always names the Engine. -/
theorem witness_PollingBusyTerminates :
    let y := System.boot [.branch 0x00C 1 0] (running ⟨0, 0, 0, 0, 0, 0⟩)
    y.host.prog[y.host.pc]? = some (.branch 0x00C 1 y.host.pc) ∧ y.EngineFair (fun _ => .engine) ∧
    y.block.busy = true ∧ ∃ t, engineTurn y.block = .next t :=
  ⟨rfl, fun k _ => ⟨k, le_refl _, rfl⟩, rfl, exists_of_completes (by decide)⟩

theorem witness_PowerAgainstItsIdeal :
    isFinite32 0x3F800001 = true ∧ ([0x80000000, 0x3F800000] : List Word).all isFinite32 = true := by
  decide

/-- Each clause at the ends of the unmapped offsets of the bench: 0x100, 0xFFFFFC, 0x1001000. -/
theorem witness_BadAccessesChangeNothing :
    2 ≠ 4 ∧ (0x001 : Offset).toNat % 4 ≠ 0 ∧
    ((0x100 : Offset).toNat % 4 = 0 ∧ 0x100 ≤ (0x100 : Offset).toNat ∧
      (0x100 : Offset).toNat < 0x1000000) ∧
    ((0xFFFFFC : Offset).toNat % 4 = 0 ∧ (0xFFFFFC : Offset).toNat < 0x1000000) ∧
    ((0x1001000 : Offset).toNat % 4 = 0 ∧
      0x1000000 + 4 * bench.params.memWords ≤ (0x1001000 : Offset).toNat) := by decide

/-- For DmemAccesses and DmemIsLittleEndian: the first and the last DMEM word, idle and busy, holding a value and not. -/
theorem witness_DmemAccesses :
    (0 < bench.params.memWords ∧ (0x1000000 : Offset).toNat = 0x1000000 + 4 * 0) ∧
    (1023 < bench.params.memWords ∧ (0x1000FFC : Offset).toNat = 0x1000000 + 4 * 1023) ∧
    bench.busy = false ∧ (running ⟨0, 0, 0, 0, 0, 0⟩).busy = true ∧
    (benchMem [9]).mem.readWord 0 = some 9 ∧
    ∃ t, hostAccess (.write 0x1000FFC 4 7) bench = .next t :=
  ⟨by decide, by decide, by decide, by decide, by decide, exists_of_completes (by decide)⟩

/-- The ends of the register page. -/
theorem witness_RegisterPageReads :
    ((0x000 : Offset).toNat < 0x100 ∧ (0x000 : Offset).toNat % 4 = 0) ∧
    ((0x0FC : Offset).toNat < 0x100 ∧ (0x0FC : Offset).toNat % 4 = 0 ∧
      0x048 ≤ (0x0FC : Offset).toNat) ∧
    (0x004 : Offset).toNat = 0x004 ∧ bench.params.legal = true := by decide

theorem witness_ReadOnlyWritesIgnored :
    (0x028 : Offset).toNat % 4 = 0 ∧ 0x028 ≤ (0x028 : Offset).toNat ∧
    (0x0FC : Offset).toNat % 4 = 0 ∧ (0x0FC : Offset).toNat < 0x100 ∧
    (0x004 : Offset).toNat = 0x004 := by decide

theorem witness_CommandRegisterWrites :
    ((0x010 : Offset).toNat % 4 = 0 ∧ 0x010 ≤ (0x010 : Offset).toNat) ∧
    ((0x024 : Offset).toNat % 4 = 0 ∧ (0x024 : Offset).toNat ≤ 0x024) ∧
    bench.busy = false ∧ (running ⟨0, 0, 0, 0, 0, 0⟩).busy = true := by decide

/-- A START write while idle, for the second clause. -/
theorem witness_StatusWritesAcknowledge :
    bench.busy = false ∧ (1 : Word).getLsbD 1 = false ∧ (1 : Word).getLsbD 0 = true := by decide

theorem witness_ControlWrites :
    (5 : Word).getLsbD 1 = false ∧ (5 : Word).getLsbD 0 = true ∧ bench.busy = false := by decide

/-- A soft reset over each kind of latched word: none, ILLEGAL, failing its checks, and a write set. -/
theorem witness_SoftResetDiscardsTheCommand :
    (2 : Word).getLsbD 1 = true ∧ bench.busy = false ∧
    decode (running ⟨6, 0, 0, 0, 0, 0⟩).command = .error .unassignedOpcode ∧
    (decode (running ⟨1, 0, 2, 0, 0, 1⟩).command = .ok (.fdes 0 2 0 0 1) ∧
      checkOf (.fdes 0 2 0 0 1) (running ⟨1, 0, 2, 0, 0, 1⟩) = some .param) ∧
    (decode (running ⟨1, 4, 3, 0, 0, 1⟩).command = .ok (.fdes 4 3 0 0 1) ∧
      checkOf (.fdes 4 3 0 0 1) (running ⟨1, 4, 3, 0, 0, 1⟩) = none ∧
      writeRange (.fdes 4 3 0 0 1) (running ⟨1, 4, 3, 0, 0, 1⟩) = (4, 3)) := by decide

theorem witness_RunningCommandIsUndisturbed :
    let s := running ⟨1, 4, 3, 0, 0, 1⟩
    s.busy = true ∧ (after (hostAccess (.write 0x014 4 5) s)).map State.busy = some true := by decide

theorem witness_HostFaultsExactlyOnBusyWrites :
    hostAccess (.write 0x1000004 4 0) (running ⟨0, 0, 0, 0, 0, 0⟩) = .fault (.hostWriteBusy 1) :=
  rfl

/-- The smallest and the largest legal parameters. -/
theorem witness_ResetMeetsTheInvariant :
    Config.Params.legal ⟨10, 1, 1, 2⟩ = true ∧ Config.Params.legal ⟨21, 24, 255, 64⟩ = true := by
  decide

/-- A state that meets the invariant and takes a step: the bench running a NOP. -/
theorem witness_EveryStepKeepsTheInvariant :
    (running ⟨0, 0, 0, 0, 0, 0⟩).Inv ∧
    step (running ⟨0, 0, 0, 0, 0, 0⟩) = .next ((running ⟨0, 0, 0, 0, 0, 0⟩).complete 0 0) :=
  ⟨{ params := small_legal
     mem := Memory.Sound_nil _
     status := ⟨by decide, by decide, by decide⟩
     rs :=
       { shape := ⟨by decide, by show ∀ h ∈ Resampler.zeroHist small, _; decide⟩
         unconfigured := fun _ => rfl
         configured := fun h => by cases h } }, rfl⟩

end Sys2Proof.Tests
end

section
/-! PROOFS. The turns of the step other than a running command's (00_scope.md R23, R24). -/

namespace Sys2Proof.Machine

theorem step_of_schedule_nil {s : State} (h : s.inputs = []) : step s = engineTurn s := by
  unfold step advance
  rw [h]

theorem step_of_schedule_cons {s : State} {i : Input} {rest : List Input}
    (h : s.inputs = i :: rest) : step s = takeTurn i { s with inputs := rest } := by
  unfold step advance
  rw [h]

theorem engineTurn_of_idle {s : State} (h : s.busy = false) : engineTurn s = .next s := by
  simp [engineTurn, h]

/-- A hardware reset is the reset state under the same parameters, with the schedule and the draw counter
kept (log entry 19). -/
theorem State.hardwareReset_eq (s : State) :
    s.hardwareReset =
      { State.resetOf s.params with inputs := s.inputs, draws := s.draws } := rfl

/-- Settles O5: the turn is that of the agent the schedule names. -/
theorem otherTurnsOfTheStep : Obligations.OtherTurnsOfTheStep := by
  unfold Obligations.OtherTurnsOfTheStep
  intro s rest
  refine ⟨fun a h => ?host, fun h => ?reset, fun hb h => ?idle, fun hb h => ?idleEngine⟩
  case host => exact step_of_schedule_cons h
  case reset => rw [step_of_schedule_cons h, takeTurn, State.hardwareReset_eq]
  case idle => rw [step_of_schedule_nil h, engineTurn_of_idle hb]
  case idleEngine => exact (step_of_schedule_cons h).trans (engineTurn_of_idle hb)

end Sys2Proof.Machine
end

section
/-! PROOFS. Rounding to a format, ties to even (00_scope.md R14). Every finite value is a whole number of
quanta of some size; a magnitude is rounded to its own quantum, and no coarser or finer value of the
format is nearer. -/

namespace Sys2Proof.Machine

/-! ## Quanta -/

/-- The rounding quantum `k` places above the subnormals' unit, `2^(k + 1 - bias - fracBits)`. -/
def FloatFormat.unit (f : FloatFormat) (k : Nat) : ℚ := 2 ^ k * 2 / 2 ^ (f.bias + f.fracBits)

/-- A whole number of quanta, of less than twice `2^fracBits` of them: the form of every finite datum's
value (00_scope.md R12). -/
def FloatFormat.OnGrid (f : FloatFormat) (v : ℚ) : Prop :=
  ∃ (n : ℤ) (e : ℕ), |n| < 2 ^ (f.fracBits + 1) ∧ v = n * f.unit e

/-- `m` quanta of size `unit k` are what the magnitude `a` rounds to: `k` is `a`'s own quantum, and `m`
the nearest number of them, the even one of two (00_scope.md R14). -/
structure FloatFormat.Rounds (f : FloatFormat) (a : ℚ) (k m : Nat) : Prop where
  low : k = 0 ∨ 2 ^ f.fracBits * f.unit k ≤ a
  high : a < 2 ^ (f.fracBits + 1) * f.unit k
  above : 2 * (m * f.unit k) ≤ 2 * a + f.unit k
  below : 2 * a ≤ 2 * (m * f.unit k) + f.unit k
  tie : 2 * a = 2 * (m * f.unit k) + f.unit k → m % 2 = 0
  best : ∀ j : ℤ, |m * f.unit k - a| ≤ |j * f.unit k - a| ∧
    (j ≠ m → |m * f.unit k - a| = |j * f.unit k - a| → m % 2 = 0)

/-- The magnitude from which rounding overflows, half a quantum below `2^(bias + 1)` (00_scope.md
R14). -/
def FloatFormat.overflowAt (f : FloatFormat) : ℚ :=
  (2 ^ (f.fracBits + 1) - 1 / 2) * f.unit (2 * f.bias - 1)

section
variable {f : FloatFormat}

theorem FloatFormat.unit_pos (f : FloatFormat) (k : Nat) : 0 < f.unit k := by
  unfold FloatFormat.unit
  positivity

theorem FloatFormat.unit_add (f : FloatFormat) (k d : Nat) : f.unit (k + d) = 2 ^ d * f.unit k := by
  unfold FloatFormat.unit
  rw [pow_add]
  ring

theorem FloatFormat.unit_mono {i j : Nat} (h : i ≤ j) : f.unit i ≤ f.unit j := by
  obtain ⟨d, rfl⟩ := Nat.exists_eq_add_of_le h
  rw [f.unit_add]
  exact le_mul_of_one_le_left (f.unit_pos i).le (one_le_pow₀ (by norm_num))

theorem FloatFormat.two_mul_unit_le (f : FloatFormat) {i j : Nat} (h : i < j) :
    2 * f.unit i ≤ f.unit j := by
  rw [← pow_one (2 : ℚ), ← f.unit_add]
  exact FloatFormat.unit_mono h

theorem FloatFormat.pow_mul_unit (f : FloatFormat) (d k : Nat) :
    2 ^ d * f.unit k = (2 : ℚ) ^ ((d : ℤ) + k + 1 - f.bias - f.fracBits) := by
  unfold FloatFormat.unit
  rw [sub_sub, zpow_sub₀ two_ne_zero, zpow_add₀ two_ne_zero, zpow_add₀ two_ne_zero, zpow_one,
    ← Nat.cast_add, zpow_natCast, zpow_natCast, zpow_natCast]
  ring

theorem FloatFormat.OnGrid.neg {v : ℚ} (h : f.OnGrid v) : f.OnGrid (-v) := by
  obtain ⟨n, e, hn, rfl⟩ := h
  exact ⟨-n, e, by rwa [abs_neg], by push_cast; ring⟩

/-- The value of every finite encoding lies on the grid. -/
theorem FloatFormat.val_onGrid (f : FloatFormat) (bits : Nat) : f.OnGrid (f.val bits) := by
  have hfrac : f.frac bits < 2 ^ f.fracBits := Nat.mod_lt _ (by positivity)
  have hsig : f.signif bits < 2 ^ (f.fracBits + 1) := by
    unfold FloatFormat.signif
    split <;> rw [pow_succ] <;> omega
  obtain ⟨e, he⟩ : ∃ e, f.scaleExp bits = e + 1 :=
    Nat.exists_eq_add_of_le' (Nat.le_max_right _ _)
  have habs : |(f.signif bits : ℤ)| < 2 ^ (f.fracBits + 1) := by
    rw [Nat.abs_cast]
    exact_mod_cast hsig
  have hval : (f.signif bits : ℚ) * 2 ^ (e + 1) / 2 ^ (f.bias + f.fracBits) =
      f.signif bits * f.unit e := by
    unfold FloatFormat.unit
    ring
  unfold FloatFormat.val
  rw [he, Rat.mkRat_eq_div]
  cases f.sign bits
  · exact ⟨f.signif bits, e, habs, by push_cast; exact hval⟩
  · refine ⟨-f.signif bits, e, by rwa [abs_neg], ?_⟩
    push_cast
    rw [neg_mul, ← hval]
    exact neg_div _ _

/-! ## Rounding a magnitude -/

/-- Below its own quantum a magnitude exceeds everything on the grid; on it, rounding is the best
whole number of quanta. -/
theorem FloatFormat.Rounds.best_onGrid {a v : ℚ} {k m : Nat} (h : f.Rounds a k m)
    (hv : f.OnGrid v) :
    |m * f.unit k - a| ≤ |v - a| ∧
    (v ≠ m * f.unit k → |m * f.unit k - a| = |v - a| → m % 2 = 0) := by
  obtain ⟨n, e, hn, rfl⟩ := hv
  rcases le_or_gt k e with hke | hke
  · obtain ⟨d, rfl⟩ := Nat.exists_eq_add_of_le hke
    have hj : (n : ℚ) * f.unit (k + d) = ((n * 2 ^ d : ℤ) : ℚ) * f.unit k := by
      rw [f.unit_add]
      push_cast
      ring
    rw [hj]
    obtain ⟨hle, htie⟩ := h.best (n * 2 ^ d)
    exact ⟨hle, fun hne => htie fun hjm => hne (by rw [hjm]; push_cast; rfl)⟩
  · have ha : 2 ^ f.fracBits * f.unit k ≤ a := h.low.resolve_left (by omega)
    have hsmall : n * f.unit e < 2 ^ f.fracBits * f.unit k := by
      have hn' : (n : ℚ) < 2 ^ (f.fracBits + 1) := by exact_mod_cast (abs_lt.1 hn).2
      calc (n : ℚ) * f.unit e < 2 ^ (f.fracBits + 1) * f.unit e :=
            mul_lt_mul_of_pos_right hn' (f.unit_pos e)
        _ = 2 ^ f.fracBits * f.unit (e + 1) := by rw [f.unit_add, pow_succ]; ring
        _ ≤ 2 ^ f.fracBits * f.unit k :=
            mul_le_mul_of_nonneg_left (FloatFormat.unit_mono hke) (by positivity)
    have hlt : |m * f.unit k - a| < |n * f.unit e - a| := by
      have hF := (h.best (2 ^ f.fracBits)).1
      push_cast at hF
      rw [abs_of_nonpos (by linarith : 2 ^ f.fracBits * f.unit k - a ≤ 0)] at hF
      rw [abs_of_nonpos (by linarith : n * f.unit e - a ≤ 0)]
      linarith
    exact ⟨hlt.le, fun _ he => absurd he hlt.ne⟩

theorem FloatFormat.rounds_zero (f : FloatFormat) : f.Rounds 0 0 0 where
  low := .inl rfl
  high := mul_pos (by positivity) (f.unit_pos 0)
  above := by simpa using (f.unit_pos 0).le
  below := by simpa using (f.unit_pos 0).le
  tie _ := rfl
  best j := by
    rw [Nat.cast_zero, zero_mul, sub_zero, abs_zero]
    exact ⟨abs_nonneg _, fun _ _ => rfl⟩

/-- The quantum's own bounds: the magnitude lies in the binade of `quantum`, or among the
subnormals. -/
theorem FloatFormat.quantum_bounds (f : FloatFormat) {num den : Nat} (hn : 0 < num) (hd : 0 < den) :
    (f.quantum num den = 0 ∨
      2 ^ f.fracBits * f.unit (f.quantum num den) ≤ (num : ℚ) / den) ∧
    (num : ℚ) / den < 2 ^ (f.fracBits + 1) * f.unit (f.quantum num den) := by
  obtain ⟨hlo, hhi⟩ := floorLog2_bounds hn hd
  have hk : f.quantum num den = (floorLog2 num den + (f.bias : Int) - 1).toNat := rfl
  rw [f.pow_mul_unit, f.pow_mul_unit]
  constructor
  · rcases Nat.eq_zero_or_pos (f.quantum num den) with h0 | hpos
    · exact .inl h0
    · right
      refine le_trans (zpow_le_zpow_right₀ one_le_two ?_) hlo
      omega
  · refine hhi.trans_le (zpow_le_zpow_right₀ one_le_two ?_)
    push_cast
    omega

/-- A magnitude and a quantum are whole multiples of one measure: the two numbers `roundMag` hands to
`roundHalfEven`. -/
theorem FloatFormat.exists_common_measure (hf : 1 ≤ f.bias) (num k : Nat) {den : Nat}
    (hd : 0 < den) :
    ∃ c : ℚ, 0 < c ∧
      (num : ℚ) / den = ((num * 2 ^ (f.bias + f.fracBits - 1) : ℕ) : ℚ) * c ∧
      f.unit k = ((den * 2 ^ k : ℕ) : ℚ) * c := by
  have hpow : (2 : ℚ) ^ (f.bias + f.fracBits) = 2 ^ (f.bias + f.fracBits - 1) * 2 := by
    rw [← pow_succ, Nat.sub_add_cancel (by omega)]
  refine ⟨1 / (den * 2 ^ (f.bias + f.fracBits - 1)), by positivity, ?_, ?_⟩
  · push_cast
    field_simp
  · rw [FloatFormat.unit, hpow]
    push_cast
    field_simp

/-- `roundHalfEven`, counting the quanta of a magnitude, rounds it. -/
theorem FloatFormat.rounds_roundHalfEven (hf : 1 ≤ f.bias) {num den : Nat} (hn : 0 < num)
    (hd : 0 < den) :
    f.Rounds ((num : ℚ) / den) (f.quantum num den)
      (roundHalfEven (num * 2 ^ (f.bias + f.fracBits - 1)) (den * 2 ^ f.quantum num den)) := by
  obtain ⟨hlow, hhigh⟩ := f.quantum_bounds hn hd
  generalize f.quantum num den = k at hlow hhigh ⊢
  have hD : 0 < den * 2 ^ k := by positivity
  obtain ⟨hup, hdown, heven⟩ := roundHalfEven_near (num * 2 ^ (f.bias + f.fracBits - 1)) hD
  have hbest := roundHalfEven_best (num * 2 ^ (f.bias + f.fracBits - 1)) hD
  obtain ⟨c, hc, ha, hq⟩ := FloatFormat.exists_common_measure hf num k hd
  generalize num * 2 ^ (f.bias + f.fracBits - 1) = N at *
  generalize den * 2 ^ k = D at *
  generalize roundHalfEven N D = m at *
  have habs : ∀ j : ℤ, |(j : ℚ) * f.unit k - (num : ℚ) / den| = (|j * D - N| : ℤ) * c := by
    intro j
    rw [ha, hq, ← mul_assoc, ← sub_mul, abs_mul, abs_of_pos hc]
    push_cast
    rfl
  have hm := habs m
  rw [Int.cast_natCast] at hm
  refine ⟨hlow, hhigh, ?above, ?below, ?tie, fun j => ?best⟩
  case above =>
    have hcount : (2 * (m * D) : ℚ) ≤ 2 * N + D := by exact_mod_cast hup
    rw [ha, hq]
    linarith [mul_le_mul_of_nonneg_right hcount hc.le]
  case below =>
    have hcount : (2 * N : ℚ) ≤ 2 * (m * D) + D := by exact_mod_cast hdown
    rw [ha, hq]
    linarith [mul_le_mul_of_nonneg_right hcount hc.le]
  case tie =>
    rw [ha, hq]
    intro h
    have hcount : (2 * N : ℚ) = 2 * (m * D) + D := mul_right_cancel₀ hc.ne' (by linarith)
    exact heven (.inr (by exact_mod_cast hcount))
  case best =>
    obtain ⟨hle, htie⟩ := hbest j
    rw [hm, habs j]
    refine ⟨mul_le_mul_of_nonneg_right (by exact_mod_cast hle) hc.le, fun hne he => htie hne ?_⟩
    exact_mod_cast mul_right_cancel₀ hc.ne' he

/-- What `roundMag` answers: the encoding of the rounded magnitude, or infinity's. -/
theorem FloatFormat.roundMag_rounds (hf : 1 ≤ f.bias) (num : Nat) {den : Nat} (hd : 0 < den) :
    ∃ k m, f.Rounds ((num : ℚ) / den) k m ∧
      f.roundMag num den = min (k * 2 ^ f.fracBits + m) f.infBits := by
  unfold FloatFormat.roundMag
  split
  · rename_i h0
    exact ⟨0, 0, by simpa [h0] using f.rounds_zero, by simp⟩
  · rename_i h0
    exact ⟨_, _, FloatFormat.rounds_roundHalfEven hf (Nat.pos_of_ne_zero h0) hd, rfl⟩

/-- A significand has at most one digit more than the fraction, and no fewer above the subnormals. -/
theorem FloatFormat.Rounds.signif_bounds {a : ℚ} {k m : Nat} (h : f.Rounds a k m) :
    (k = 0 ∨ 2 ^ f.fracBits ≤ m) ∧ m ≤ 2 ^ (f.fracBits + 1) := by
  have hq := f.unit_pos k
  constructor
  · refine h.low.imp_right fun hlow => ?_
    by_contra! hm
    have hm' : (m : ℚ) + 1 ≤ 2 ^ f.fracBits := by exact_mod_cast hm
    have := mul_le_mul_of_nonneg_right hm' hq.le
    linarith [h.below]
  · by_contra! hm
    have hm' : (2 : ℚ) ^ (f.fracBits + 1) + 1 ≤ m := by exact_mod_cast hm
    have := mul_le_mul_of_nonneg_right hm' hq.le
    linarith [h.above, h.high]

theorem FloatFormat.infBits_eq (hf : 1 ≤ f.bias) :
    f.infBits = (2 * f.bias - 1) * 2 ^ f.fracBits + 2 ^ (f.fracBits + 1) := by
  have he : f.expBits = f.expBits - 1 + 1 := by
    have : f.expBits ≠ 0 := by
      intro h
      simp [FloatFormat.bias, h] at hf
    omega
  have htop : f.expTop = 2 * f.bias - 1 + 2 := by
    unfold FloatFormat.bias at hf ⊢
    unfold FloatFormat.expTop
    rw [he, pow_succ]
    simp only [Nat.add_sub_cancel]
    omega
  rw [FloatFormat.infBits, htop, pow_succ]
  ring

/-- A significand carries into the next binade exactly from half a quantum below it: there the larger
neighbour is the even one. -/
theorem FloatFormat.Rounds.no_carry_iff {a : ℚ} {k m : Nat} (h : f.Rounds a k m) :
    m < 2 ^ (f.fracBits + 1) ↔ a < (2 ^ (f.fracBits + 1) - 1 / 2) * f.unit k := by
  have hq := f.unit_pos k
  constructor
  · intro hm
    have hm' : (m : ℚ) + 1 ≤ 2 ^ (f.fracBits + 1) := by exact_mod_cast hm
    have hle := mul_le_mul_of_nonneg_right hm' hq.le
    refine lt_of_le_of_ne (by linarith [h.below]) fun heq => ?_
    have hmax := le_antisymm hle (by linarith [h.below])
    have hsucc : m + 1 = 2 ^ (f.fracBits + 1) := by
      exact_mod_cast mul_right_cancel₀ hq.ne' hmax
    have heven := h.tie (by linarith)
    rw [pow_succ] at hsucc
    omega
  · intro ha
    have hm : (m : ℚ) * f.unit k < 2 ^ (f.fracBits + 1) * f.unit k := by linarith [h.above]
    exact_mod_cast lt_of_mul_lt_mul_right hm hq.le

/-- Rounding stays below infinity's encoding exactly below the threshold. -/
theorem FloatFormat.Rounds.lt_infBits_iff (hf : 1 ≤ f.bias) {a : ℚ} {k m : Nat}
    (h : f.Rounds a k m) :
    k * 2 ^ f.fracBits + m < f.infBits ↔ a < f.overflowAt := by
  obtain ⟨hlow, hhigh⟩ := h.signif_bounds
  have hpow : 2 ^ (f.fracBits + 1) = 2 ^ f.fracBits * 2 := pow_succ _ _
  have hF : (1 : ℚ) ≤ 2 ^ f.fracBits := one_le_pow₀ one_le_two
  have hFpos : 0 < 2 ^ f.fracBits := by positivity
  have hq := f.unit_pos (2 * f.bias - 1)
  have hFq := mul_le_mul_of_nonneg_right hF hq.le
  rw [FloatFormat.infBits_eq hf]
  rcases lt_trichotomy k (2 * f.bias - 1) with hk | rfl | hk
  · refine iff_of_true ?_ ?_
    · have hbits := Nat.mul_le_mul_right (2 ^ f.fracBits) (Nat.succ_le_of_lt hk)
      rw [Nat.succ_mul] at hbits
      omega
    · have hsize := mul_le_mul_of_nonneg_left (f.two_mul_unit_le hk) (zero_le_one.trans hF)
      have hhi := h.high
      rw [pow_succ] at hhi
      rw [FloatFormat.overflowAt, pow_succ]
      linarith
  · rw [Nat.add_lt_add_iff_left]
    exact h.no_carry_iff
  · refine iff_of_false ?_ ?_
    · have hbits := Nat.mul_le_mul_right (2 ^ f.fracBits) (Nat.succ_le_of_lt hk)
      rw [Nat.succ_mul] at hbits
      omega
    · have hsize := mul_le_mul_of_nonneg_left (f.two_mul_unit_le hk) (zero_le_one.trans hF)
      have hlo := h.low.resolve_left (by omega)
      rw [FloatFormat.overflowAt, pow_succ]
      linarith

/-! ## Signs -/

theorem FloatFormat.infBits_lt_signBit (f : FloatFormat) : f.infBits < f.signBit := by
  have hE : 0 < 2 ^ f.expBits := by positivity
  unfold FloatFormat.infBits FloatFormat.expTop FloatFormat.signBit
  rw [pow_add]
  exact Nat.mul_lt_mul_of_pos_right (by omega) (by positivity)

/-- The fields of an encoding with its sign set. -/
theorem FloatFormat.fields_signBit_add {mag : Nat} (h : mag < f.signBit) :
    f.expo (f.signBit + mag) = f.expo mag ∧ f.frac (f.signBit + mag) = f.frac mag ∧
    f.sign (f.signBit + mag) = true ∧ f.sign mag = false := by
  have hS : 0 < f.signBit := by unfold FloatFormat.signBit; positivity
  have hF : 0 < 2 ^ f.fracBits := by positivity
  have hsplit : f.signBit = 2 ^ f.fracBits * 2 ^ f.expBits := by
    rw [FloatFormat.signBit, pow_add, Nat.mul_comm]
  refine ⟨?_, ?_, ?_, ?_⟩
  · unfold FloatFormat.expo
    rw [hsplit, Nat.mul_add_div hF, Nat.add_mod_left]
  · unfold FloatFormat.frac
    rw [hsplit, Nat.mul_add_mod]
  · unfold FloatFormat.sign
    rw [Nat.add_div_left _ hS, Nat.div_eq_of_lt h]
    rfl
  · unfold FloatFormat.sign
    rw [Nat.div_eq_of_lt h]
    rfl

theorem FloatFormat.isFinite_withSign {mag : Nat} (h : mag < f.signBit) (neg : Bool) :
    f.isFinite (f.withSign neg mag) = f.isFinite mag := by
  cases neg
  · rfl
  · simp [FloatFormat.withSign, FloatFormat.isFinite, FloatFormat.fields_signBit_add h]

theorem FloatFormat.val_withSign {mag : Nat} (h : mag < f.signBit) (neg : Bool) :
    f.val (f.withSign neg mag) = if neg then -f.val mag else f.val mag := by
  obtain ⟨he, hf, hs, hs'⟩ := FloatFormat.fields_signBit_add h
  cases neg
  · rfl
  · simp only [FloatFormat.withSign, FloatFormat.val, FloatFormat.signif, FloatFormat.scaleExp,
      he, hf, hs, hs', Rat.mkRat_eq_div, if_true, Bool.false_eq_true, if_false]
    push_cast
    ring

/-! ## Rounding a rational -/

/-- `rne` rounds the magnitude and gives it the sign. -/
theorem FloatFormat.rne_rounds (hf : 1 ≤ f.bias) (r : ℚ) :
    ∃ k m, f.Rounds |r| k m ∧
      f.rne r = f.withSign (decide (r < 0)) (min (k * 2 ^ f.fracBits + m) f.infBits) := by
  obtain ⟨k, m, hr, he⟩ := FloatFormat.roundMag_rounds hf r.num.natAbs r.den_pos
  have habs : (r.num.natAbs : ℚ) / r.den = |r| := by
    rw [Rat.abs_def, Rat.divInt_eq_div, Int.cast_natCast, Int.cast_natCast]
  exact ⟨k, m, habs ▸ hr, by rw [FloatFormat.rne, he]⟩

theorem FloatFormat.rne_of_overflow (hf : 1 ≤ f.bias) {r : ℚ} (hr : f.overflowAt ≤ |r|) :
    f.rne r = f.withSign (decide (r < 0)) f.infBits := by
  obtain ⟨k, m, h, he⟩ := FloatFormat.rne_rounds hf r
  have hle := not_lt.1 (mt (h.lt_infBits_iff hf).1 hr.not_gt)
  rw [he, Nat.min_eq_right hle]

/-- Below the threshold `rne` is the rounded number of quanta, with the sign of `r`. -/
theorem FloatFormat.rne_of_lt_overflow (hf : 1 ≤ f.bias) {r : ℚ} (hr : |r| < f.overflowAt) :
    ∃ k m, f.Rounds |r| k m ∧
      f.rne r = f.withSign (decide (r < 0)) (k * 2 ^ f.fracBits + m) ∧
      f.isFinite (f.rne r) = true ∧
      f.val (f.rne r) = if r < 0 then -(m * f.unit k) else m * f.unit k := by
  obtain ⟨k, m, h, he⟩ := FloatFormat.rne_rounds hf r
  have hlt := (h.lt_infBits_iff hf).2 hr
  have hS := hlt.trans f.infBits_lt_signBit
  rw [Nat.min_eq_left hlt.le] at he
  obtain ⟨hlow, hhigh⟩ := h.signif_bounds
  obtain ⟨hfin, hval⟩ := f.val_of_quantum (k := k) (m := m) (by omega) hlt
  have hunit : (m : ℚ) * 2 ^ k / 2 ^ (f.bias + f.fracBits) * 2 = m * f.unit k := by
    unfold FloatFormat.unit
    ring
  refine ⟨k, m, h, he, ?_, ?_⟩
  · rw [he, FloatFormat.isFinite_withSign hS, hfin]
  · rw [he, FloatFormat.val_withSign hS, hval, hunit]
    simp only [decide_eq_true_eq]

theorem FloatFormat.withSign_mod_two (hF : 1 ≤ f.fracBits) {neg : Bool} {k m : Nat} :
    f.withSign neg (k * 2 ^ f.fracBits + m) % 2 = m % 2 := by
  obtain ⟨d, hd⟩ := Nat.exists_eq_add_of_le hF
  have hpow : 2 ^ f.fracBits = 2 * 2 ^ d := by rw [hd, pow_add, pow_one]
  unfold FloatFormat.withSign FloatFormat.signBit
  rw [pow_add, hpow]
  cases neg
  · simp [Nat.add_mod, Nat.mul_mod]
  · simp [Nat.add_mod, Nat.mul_mod]

/-- Below the threshold `rne` is a nearest value of the grid, and even where another is as near. -/
theorem FloatFormat.rne_nearest (hf : 1 ≤ f.bias) (hF : 1 ≤ f.fracBits) {r v : ℚ}
    (hr : |r| < f.overflowAt) (hv : f.OnGrid v) :
    |f.val (f.rne r) - r| ≤ |v - r| ∧
    (v ≠ f.val (f.rne r) → |f.val (f.rne r) - r| = |v - r| → f.rne r % 2 = 0) := by
  obtain ⟨k, m, h, he, -, hval⟩ := FloatFormat.rne_of_lt_overflow hf hr
  rw [hval, he, FloatFormat.withSign_mod_two hF]
  rcases lt_or_ge r 0 with hneg | hpos
  · have hflip : ∀ x : ℚ, |x - r| = |-x - -r| := fun x => by rw [neg_sub_neg, abs_sub_comm]
    rw [abs_of_neg hneg] at h
    rw [if_pos hneg, hflip, hflip v, neg_neg]
    obtain ⟨hle, htie⟩ := h.best_onGrid hv.neg
    exact ⟨hle, fun hne => htie fun heq => hne (by rw [← heq, neg_neg])⟩
  · rw [if_neg hpos.not_gt]
    rw [abs_of_nonneg hpos] at h
    exact h.best_onGrid hv

end

/-! ## binary32 -/

theorem binary32_bias_pos : 1 ≤ binary32.bias := by decide

theorem binary32_overflowAt : binary32.overflowAt = 2 ^ 128 * (1 - 1 / 2 ^ 25) := by
  norm_num [FloatFormat.overflowAt, FloatFormat.unit, FloatFormat.bias, binary32]

theorem binary32_overflowAt_pos : 0 < binary32.overflowAt := by
  rw [binary32_overflowAt]
  norm_num

theorem rne32_toNat (r : ℚ) : (rne32 r).toNat = binary32.rne r := by
  obtain ⟨k, m, -, he⟩ := FloatFormat.rne_rounds binary32_bias_pos r
  have hle := Nat.min_le_right (k * 2 ^ binary32.fracBits + m) binary32.infBits
  have hS : binary32.signBit = 2 ^ 31 := rfl
  rw [binary32_infBits] at hle he
  have hlt : binary32.rne r < 2 ^ 32 := by
    rw [he, FloatFormat.withSign, hS]
    split <;> omega
  rw [rne32, BitVec.toNat_ofNat, Nat.mod_eq_of_lt hlt]

/-- Settles O30: the nearest of the grid, and the two infinities. -/
theorem roundingIsNearestEven : Obligations.RoundingIsNearestEven := by
  unfold Obligations.RoundingIsNearestEven
  rw [← binary32_overflowAt]
  refine ⟨fun r hr => ⟨?finite, fun y _ => ?nearest⟩, fun r hr => ?posInf, fun r hr => ?negInf⟩
  case finite =>
    obtain ⟨_, _, -, -, hfin, -⟩ := FloatFormat.rne_of_lt_overflow binary32_bias_pos hr
    rwa [isFinite32, rne32_toNat]
  case nearest =>
    have h := FloatFormat.rne_nearest binary32_bias_pos (by decide) hr
      (binary32.val_onGrid y.toNat)
    rw [val32, val32, rne32_toNat, BitVec.getLsbD, rne32_toNat, Nat.testBit_zero,
      decide_eq_false_iff_not]
    exact ⟨h.1, fun hne he => by rw [h.2 hne he]; decide⟩
  case posInf =>
    have hr0 : ¬ r < 0 := (binary32_overflowAt_pos.trans_le hr).not_gt
    rw [rne32, FloatFormat.rne_of_overflow binary32_bias_pos (hr.trans (le_abs_self r)),
      decide_eq_false hr0]
    rfl
  case negInf =>
    have hr0 : r < 0 := by linarith [binary32_overflowAt_pos]
    rw [rne32, FloatFormat.rne_of_overflow binary32_bias_pos (by rw [abs_of_neg hr0]; linarith),
      decide_eq_true hr0]
    rfl

end Sys2Proof.Machine
end

section
/-! PROOFS. Addition, one equation per class of its operands (00_scope.md R15, R18). -/

namespace Sys2Proof.Machine

/-! ## The classes of data -/

/-- A finite datum is no NaN and no infinity (00_scope.md R13). -/
theorem FloatFormat.not_special_of_isFinite {f : FloatFormat} {n : Nat} (h : f.isFinite n = true) :
    f.isNaN n = false ∧ f.isInf n = false := by
  have he : (f.expo n == f.expTop) = false := by simpa [FloatFormat.isFinite] using h
  simp [FloatFormat.isNaN, FloatFormat.isInf, he]

theorem FloatFormat.not_isNaN_of_isInf {f : FloatFormat} {n : Nat} (h : f.isInf n = true) :
    f.isNaN n = false := by
  have hfrac : f.frac n = 0 := by simpa using (Bool.and_eq_true_iff.1 h).2
  simp [FloatFormat.isNaN, hfrac]

theorem FloatFormat.val_of_isZero {f : FloatFormat} {n : Nat} (h : f.isZero n = true) :
    f.val n = 0 := by
  obtain ⟨he, hf⟩ : f.expo n = 0 ∧ f.frac n = 0 := by simpa [FloatFormat.isZero] using h
  simp [FloatFormat.val, FloatFormat.signif, he, hf]

/-- The only negative zero of binary32. -/
theorem negZero32_iff (w : Word) :
    (binary32.isZero w.toNat = true ∧ binary32.sign w.toNat = true) ↔ w = 0x80000000 := by
  have hlt := w.isLt
  have hzero : (0x80000000 : Word).toNat = 2 ^ 31 := rfl
  rw [← BitVec.toNat_inj, hzero]
  simp only [FloatFormat.isZero, FloatFormat.expo, FloatFormat.frac, FloatFormat.sign,
    FloatFormat.signBit, binary32, Bool.and_eq_true, beq_iff_eq]
  omega

/-! ## Addition -/

theorem rne32_zero : rne32 0 = 0x00000000 := rfl

section
variable {f : FloatFormat} {a b : Nat}

theorem FloatFormat.add_of_isNaN (h : f.isNaN a = true ∨ f.isNaN b = true) :
    f.add a b = f.canonicalNaN := by
  simp [FloatFormat.add, h]

theorem FloatFormat.add_of_isInf_isInf (ha : f.isInf a = true) (hb : f.isInf b = true) :
    f.add a b = if f.sign a = f.sign b then a else f.canonicalNaN := by
  have na := not_isNaN_of_isInf ha
  have nb := not_isNaN_of_isInf hb
  by_cases hs : f.sign a = f.sign b <;> simp [FloatFormat.add, na, nb, ha, hb, hs]

theorem FloatFormat.add_of_isInf_isFinite (ha : f.isInf a = true) (hb : f.isFinite b = true) :
    f.add a b = a := by
  have na := not_isNaN_of_isInf ha
  obtain ⟨nb, ib⟩ := not_special_of_isFinite hb
  simp [FloatFormat.add, na, nb, ha, ib]

theorem FloatFormat.add_of_isFinite_isInf (ha : f.isFinite a = true) (hb : f.isInf b = true) :
    f.add a b = b := by
  obtain ⟨na, ia⟩ := not_special_of_isFinite ha
  have nb := not_isNaN_of_isInf hb
  simp [FloatFormat.add, na, nb, ia, hb]

theorem FloatFormat.add_of_isFinite (ha : f.isFinite a = true) (hb : f.isFinite b = true) :
    f.add a b =
      if (f.isZero a = true ∧ f.sign a = true) ∧ (f.isZero b = true ∧ f.sign b = true)
      then f.signBit else f.rne (f.val a + f.val b) := by
  obtain ⟨na, ia⟩ := not_special_of_isFinite ha
  obtain ⟨nb, ib⟩ := not_special_of_isFinite hb
  simp [FloatFormat.add, na, nb, ia, ib, and_left_comm, and_assoc]

end

/-- `add32` of finite data: two negative zeros aside, the rounded exact sum (00_scope.md R15). -/
theorem add32_of_isFinite {a b : Word} (ha : isFinite32 a = true) (hb : isFinite32 b = true) :
    add32 a b =
      if a = 0x80000000 ∧ b = 0x80000000 then 0x80000000 else rne32 (val32 a + val32 b) := by
  rw [add32, FloatFormat.add_of_isFinite ha hb]
  simp only [negZero32_iff]
  split <;> rfl

theorem val32_negZero : val32 0x80000000 = 0 :=
  FloatFormat.val_of_isZero ((negZero32_iff _).2 rfl).1

/-- Settles O31: one case per class of the two operands. -/
theorem additionRules : Obligations.AdditionRules := by
  unfold Obligations.AdditionRules
  intro a b
  refine ⟨fun ha hb hsum => ?finite, fun ha hb hsum => ?exactZero, fun h => ?nan,
    fun ha hb hs => ?opposite, fun ha h => ?left, fun hb h => ?right⟩
  case finite =>
    rw [add32_of_isFinite ha hb, if_neg]
    rintro ⟨rfl, rfl⟩
    exact hsum (by rw [val32_negZero, add_zero])
  case exactZero =>
    rw [add32_of_isFinite ha hb, hsum, rne32_zero]
  case nan => rw [add32, FloatFormat.add_of_isNaN h]; rfl
  case opposite => rw [add32, (FloatFormat.add_of_isInf_isInf ha hb).trans (if_neg hs)]; rfl
  case left =>
    have hadd : binary32.add a.toNat b.toNat = a.toNat := by
      rcases h with hb | rfl
      · exact FloatFormat.add_of_isInf_isFinite ha hb
      · rw [FloatFormat.add_of_isInf_isInf ha ha, if_pos rfl]
    rw [add32, hadd, BitVec.ofNat_toNat, BitVec.setWidth_eq]
  case right =>
    have hadd : binary32.add a.toNat b.toNat = b.toNat := by
      rcases h with ha | rfl
      · exact FloatFormat.add_of_isFinite_isInf ha hb
      · rw [FloatFormat.add_of_isInf_isInf hb hb, if_pos rfl]
    rw [add32, hadd, BitVec.ofNat_toNat, BitVec.setWidth_eq]

end Sys2Proof.Machine
end

section
/-! PROOFS. The register page through the port: what a read of each offset returns and what a write of
each does (10_state.md R41-R58; 20_memory.md R97). -/

namespace Sys2Proof.Machine

/-! ## Concatenated fields as arithmetic -/

/-- A field placed above an `m`-bit one weighs `2^m`. -/
theorem toNat_append_eq_add {n m : Nat} (x : BitVec n) (y : BitVec m) :
    (x ++ y).toNat = x.toNat * 2 ^ m + y.toNat := by
  rw [BitVec.toNat_append, ← Nat.shiftLeft_add_eq_or_of_lt y.isLt, Nat.shiftLeft_eq]

/-- CTRL shows IRQ_EN alone (10_state.md R44). -/
theorem State.ctrlWord_eq (s : State) : s.ctrlWord = if s.irqEn then 4 else 0 := by
  unfold State.ctrlWord
  cases s.irqEn <;> rfl

theorem legal_iff (p : Config.Params) :
    p.legal = true ↔
      (10 ≤ p.memWordsLog2 ∧ p.memWordsLog2 ≤ 21) ∧ (1 ≤ p.fftMaxLog2 ∧ p.fftMaxLog2 ≤ 24) ∧
      (1 ≤ p.chMax ∧ p.chMax ≤ 255) ∧ (2 ≤ p.taps ∧ p.taps ≤ 64) ∧ p.taps % 2 = 0 := by
  simp [Config.Params.legal, and_assoc]

/-- A legal parameter fits its byte of CAP (10_state.md R43). -/
theorem capWord_toNat {p : Config.Params} (h : p.legal = true) :
    (capWord p).toNat =
      p.fftMaxLog2 + 2 ^ 8 * p.memWordsLog2 + 2 ^ 16 * p.chMax + 2 ^ 24 * p.taps := by
  obtain ⟨⟨_, hmem⟩, ⟨_, hfft⟩, ⟨_, hch⟩, ⟨_, htaps⟩, _⟩ := (legal_iff p).1 h
  simp only [capWord, toNat_append_eq_add, BitVec.toNat_ofNat]
  omega

/-- Settles O46: each field of STATUS by the weight of the fields below it. -/
theorem statusLayout : Obligations.StatusLayout := by
  unfold Obligations.StatusLayout
  intro s
  simp only [State.statusWord, toNat_append_eq_add, BitVec.toNat_ofBool, BitVec.toNat_ofNat]
  omega

/-! ## Reads of the page -/

/-- What a read of an offset of the page returns: its register, or 0 where it is reserved
(10_state.md R57). -/
def State.pageWord (s : State) (off : Nat) : Word := (regAt (off / 4)).elim 0 s.readReg

/-- A read of the page answers `pageWord` and has no side effect (20_memory.md R97). -/
theorem hostAccess_read_page {s : State} {off : Offset} (hlt : off.toNat < 0x100)
    (h4 : off.toNat % 4 = 0) :
    hostAccess (.read off 4) s = .next (s.respond .okay (some (s.pageWord off.toNat))) := by
  simp only [hostAccess, hostRead, (aligned_iff off 4).2 ⟨rfl, h4⟩, if_true, regionOf_register _ hlt,
    State.readPage, State.pageWord]
  cases regAt (off.toNat / 4) <;> rfl

theorem State.pageWord_reserved (s : State) {off : Nat} (h : 0x048 ≤ off) : s.pageWord off = 0 := by
  rw [State.pageWord, regAt_none (by omega), Option.elim_none]

/-- Settles O45: every offset by the register it selects. -/
theorem registerPageReads : Obligations.RegisterPageReads := by
  unfold Obligations.RegisterPageReads
  intro s off hlt h4
  have at_offset {k : Nat} (h : off.toNat = k) : s.pageWord off.toNat = s.pageWord k :=
    congrArg s.pageWord h
  refine ⟨s.pageWord off.toNat, hostAccess_read_page hlt h4, at_offset,
    fun h hlegal => ?cap, fun h => (at_offset h).trans s.ctrlWord_eq, at_offset, at_offset, at_offset,
    at_offset, at_offset, at_offset, at_offset, at_offset, at_offset, at_offset, at_offset, at_offset,
    at_offset, at_offset, at_offset, s.pageWord_reserved⟩
  case cap => exact (congrArg BitVec.toNat (at_offset h)).trans (capWord_toNat hlegal)

/-! ## Writes of the page -/

/-- What a write of an offset of the page leaves: its register's write, or nothing where it is reserved
(10_state.md R57). -/
def State.pageWrite (s : State) (off : Nat) (v : Word) : State :=
  (regAt (off / 4)).elim s (s.writeReg · v)

/-- A write of the page completes with OKAY (20_memory.md R97). -/
theorem hostAccess_write_page {s : State} {off : Offset} (v : Word) (hlt : off.toNat < 0x100)
    (h4 : off.toNat % 4 = 0) :
    hostAccess (.write off 4 v) s = .next ((s.pageWrite off.toNat v).respond .okay none) := by
  simp only [hostAccess, hostWrite, (aligned_iff off 4).2 ⟨rfl, h4⟩, if_true,
    regionOf_register _ hlt, State.writePage, State.pageWrite]
  cases regAt (off.toNat / 4) <;> rfl

/-- ID, CAP, and everything from RESULT0 on ignore a write (10_state.md R57, R58). -/
theorem State.pageWrite_readOnly (s : State) {off : Nat} (v : Word)
    (h : off / 4 = 0 ∨ off / 4 = 1 ∨ 10 ≤ off / 4) : s.pageWrite off v = s := by
  unfold State.pageWrite
  generalize off / 4 = k at h
  obtain rfl | rfl | h := h
  · rfl
  · rfl
  · rcases Nat.lt_or_ge k 18 with hk | hk
    · interval_cases k <;> rfl
    · rw [regAt_none hk, Option.elim_none]

/-- CMD and the ARGs: the register the offset selects takes the value while BUSY = 0
(40_common.md R151). -/
theorem State.pageWrite_command (s : State) {off : Nat} (v : Word) (h4 : off % 4 = 0)
    (hlo : 0x010 ≤ off) (hhi : off ≤ 0x024) :
    s.pageWrite off v = s.whenIdle { s with
      cmd := if off = 0x010 then v else s.cmd, arg0 := if off = 0x014 then v else s.arg0,
      arg1 := if off = 0x018 then v else s.arg1, arg2 := if off = 0x01C then v else s.arg2,
      arg3 := if off = 0x020 then v else s.arg3, arg4 := if off = 0x024 then v else s.arg4 } := by
  obtain rfl | rfl | rfl | rfl | rfl | rfl : off = 0x010 ∨ off = 0x014 ∨ off = 0x018 ∨ off = 0x01C ∨
      off = 0x020 ∨ off = 0x024 := by omega
  all_goals rfl

/-- Settles O48: the write is `whenIdle`'s, for BUSY = 1 and for BUSY = 0. -/
theorem commandRegisterWrites : Obligations.CommandRegisterWrites := by
  unfold Obligations.CommandRegisterWrites
  intro s off v h4 hlo hhi
  rw [hostAccess_write_page v (by omega) h4, s.pageWrite_command v h4 hlo hhi]
  refine ⟨fun hb => ?busy, fun hb => ?idle⟩
  case busy => rw [s.whenIdle_of_busy _ hb]; rfl
  case idle =>
    rw [s.whenIdle_of_idle _ hb]
    exact ⟨_, rfl, rfl, rfl, rfl, rfl, rfl, rfl, rfl⟩

/-- Settles O47: the offsets named are those whose write leaves the state. -/
theorem readOnlyWritesIgnored : Obligations.ReadOnlyWritesIgnored := by
  unfold Obligations.ReadOnlyWritesIgnored
  intro s off v h4 hro
  rw [hostAccess_write_page v (by omega) h4, s.pageWrite_readOnly v (by omega)]
  rfl

/-- A CTRL write that requests a start while BUSY = 0, with no soft reset (10_state.md R45;
40_common.md R150). -/
theorem State.writeCtrl_start {s : State} {v : Word} (hb : s.busy = false)
    (hreset : v.getLsbD 1 = false) (hstart : v.getLsbD 0 = true) :
    s.writeCtrl v = { s with
      irqEn := v.getLsbD 2, busy := true, done := false, err := false, errcode := 0 } := by
  simp only [State.writeCtrl, hreset, hstart, Bool.false_eq_true, if_false, if_true]
  exact State.start_of_idle _ hb

/-- Settles O50: STATUS's own write, and the start a CTRL write requests. -/
theorem statusWritesAcknowledge : Obligations.StatusWritesAcknowledge := by
  unfold Obligations.StatusWritesAcknowledge
  refine fun s v => ⟨?status, fun hb hreset hstart => ?start⟩
  case status =>
    have hpage : s.pageWrite (0x00C : Offset).toNat v = s.writeStatus v := rfl
    rw [hostAccess_write_page v (by decide) (by decide), hpage, State.writeStatus_eq]
    rfl
  case start =>
    have hpage : s.pageWrite (0x008 : Offset).toNat v = s.writeCtrl v := rfl
    rw [hostAccess_write_page v (by decide) (by decide), hpage,
      State.writeCtrl_start hb hreset hstart]
    exact ⟨_, rfl, rfl, rfl, rfl⟩

end Sys2Proof.Machine
end

section
/-! PROOFS. The state right after reset (10_state.md R70). -/

namespace Sys2Proof.Machine

theorem Resampler.zeroHist_zero {p : Config.Params} {h : History} (hh : h ∈ Resampler.zeroHist p) :
    h.length = p.taps ∧ ∀ w ∈ h, w = 0x00000000 := by
  rw [List.eq_of_mem_replicate hh]
  exact ⟨List.length_replicate, fun _ hw => List.eq_of_mem_replicate hw⟩

theorem Resampler.zeroHist_length (p : Config.Params) : (Resampler.zeroHist p).length = p.chMax :=
  List.length_replicate

/-- Settles O55: each piece of state by the value reset gives it. -/
theorem resetValues : Obligations.ResetValues := by
  unfold Obligations.ResetValues
  rintro p _ rfl
  have hhist : (Resampler.zeroHist p).length = p.chMax ∧
      ∀ h ∈ Resampler.zeroHist p, h.length = p.taps ∧ ∀ w ∈ h, w = 0x00000000 :=
    ⟨Resampler.zeroHist_length p, fun _ hh => Resampler.zeroHist_zero hh⟩
  have hstatus : (State.resetOf p).statusWord = 0 := by
    simp only [State.statusWord, State.resetOf, Resampler.reset]
    decide
  exact ⟨rfl, rfl, rfl, rfl, rfl, rfl, rfl, hstatus, rfl, rfl, rfl, rfl, rfl, rfl, rfl, rfl, rfl, rfl,
    rfl, rfl, rfl, rfl, rfl, rfl, rfl, rfl, hhist, fun _ => rfl, rfl⟩

/-- An unconfigured resampler at its reset value has the CH_MAX rows of T words (10_state.md R60). -/
theorem Resampler.sound_reset (p : Config.Params) : (Resampler.reset p).Sound p :=
  { shape := ⟨Resampler.zeroHist_length p, fun _ hh => (Resampler.zeroHist_zero hh).1⟩
    unconfigured := fun _ => rfl
    configured := fun h => by cases h }

/-- STATUS with every bit clear is consistent. -/
theorem State.statusSound_clear {s : State} (hdone : s.done = false) (herr : s.err = false)
    (hcode : s.errcode = 0) : s.StatusSound :=
  { errcode_iff := by simp [herr, hcode]
    errcode_le := by simp [hcode]
    busy_clear := fun _ => ⟨hdone, herr⟩ }

/-- Settles O56: no DMEM cell, a clear STATUS and an unconfigured resampler. -/
theorem resetMeetsTheInvariant : Obligations.ResetMeetsTheInvariant := fun p hp =>
  { params := hp
    mem := Memory.Sound_nil p
    status := State.statusSound_clear rfl rfl rfl
    rs := Resampler.sound_reset p }

end Sys2Proof.Machine
end

section
/-! PROOFS. The resampler stays within its bounds: configuration, feed, and every step of a run
(10_state.md R60, R61; 44_resampler.md R280, R285, R296). -/

namespace Sys2Proof.Machine

/-! ## Configuration and feed -/

/-- RSCFG's checks are the bounds of R61 on the channel count and the rates. -/
theorem checkRscfg_eq_none_iff (ch srcRate dstRate : Word) (s : State) :
    checkRscfg ch srcRate dstRate s = none ↔
      (1 ≤ ch.toNat ∧ ch.toNat ≤ s.params.chMax) ∧
      (1 ≤ srcRate.toNat ∧ srcRate.toNat ≤ maxRate) ∧
      (1 ≤ dstRate.toNat ∧ dstRate.toNat ≤ maxRate) := by
  simp [checkRscfg, firstError_eq_none_iff, Nat.one_le_iff_ne_zero]

/-- RSFEED's checks: a configured stream that goes on, its last feed used up, and whole frames inside
DMEM. -/
theorem checkRsfeed_eq_none {src len flags : Word} {s : State}
    (h : checkRsfeed src len flags s = none) :
    s.rs.cfg = true ∧ s.rs.last = false ∧ s.rs.srcRem = 0 ∧ len.toNat % s.rs.ch = 0 ∧
      (len.toNat = 0 ∨ src.toNat + len.toNat ≤ s.params.memWords) := by
  rw [← inRange_iff]
  simp_all [checkRsfeed, firstError_eq_none_iff]

theorem Resampler.bounded_configured {p : Config.Params} {ch srcRate dstRate : Nat}
    (hch : 1 ≤ ch ∧ ch ≤ p.chMax) (hsrc : 1 ≤ srcRate ∧ srcRate ≤ maxRate)
    (hdst : 1 ≤ dstRate ∧ dstRate ≤ maxRate) : (configured p ch srcRate dstRate).Bounded p :=
  { ch_pos := hch.1
    ch_le := hch.2
    src_pos := hsrc.1
    src_le := hsrc.2
    dst_pos := hdst.1
    dst_le := hdst.2
    pos_idle := fun _ => hdst.1
    pos_pend := fun h => by cases h
    whole_frames := Nat.zero_mod ch
    region := Nat.zero_le _
    exhausted := fun h => by cases h }

theorem Resampler.sound_configured {p : Config.Params} {ch srcRate dstRate : Nat}
    (hch : 1 ≤ ch ∧ ch ≤ p.chMax) (hsrc : 1 ≤ srcRate ∧ srcRate ≤ maxRate)
    (hdst : 1 ≤ dstRate ∧ dstRate ≤ maxRate) : (configured p ch srcRate dstRate).Sound p :=
  { shape := (Resampler.sound_reset p).shape
    unconfigured := fun h => by cases h
    configured := fun _ => Resampler.bounded_configured hch hsrc hdst }

/-- A feed that passes its checks: the stream goes on, so the resampler is not exhausted, and an empty
feed leaves an empty region where it was. -/
theorem Resampler.Bounded.fed {p : Config.Params} {rs : Resampler} {src len : Nat} {isLast : Bool}
    (h : rs.Bounded p) (hlast : rs.last = false) (hframes : len % rs.ch = 0)
    (hr : len = 0 ∨ src + len ≤ p.memWords) : (Machine.fed rs src len isLast).Bounded p :=
  { h with
    whole_frames := hframes
    region := by
      have := h.region
      simp only [Machine.fed]
      split <;> omega
    exhausted := fun he => by
      obtain ⟨hl, -⟩ := h.exhausted he
      cases hlast.symm.trans hl }

theorem Resampler.Sound.fed {p : Config.Params} {rs : Resampler} {src len : Nat} {isLast : Bool}
    (h : rs.Sound p) (hcfg : rs.cfg = true) (hlast : rs.last = false) (hframes : len % rs.ch = 0)
    (hr : len = 0 ∨ src + len ≤ p.memWords) : (Machine.fed rs src len isLast).Sound p :=
  { shape := h.shape
    unconfigured := fun hc => by cases hcfg.symm.trans hc
    configured := fun _ => (h.configured hcfg).fed hlast hframes hr }

/-! ## The phase -/

@[simp] theorem advancePhase_pend (rs : Resampler) : (advancePhase rs).pend = true := by
  unfold advancePhase
  split
  · assumption
  · rfl

/-- The increment is the only effect of `advancePhase`; an exhausted resampler's is pending. -/
theorem Resampler.Bounded.advancePhase {p : Config.Params} {rs : Resampler} (h : rs.Bounded p) :
    (Machine.advancePhase rs).Bounded p := by
  unfold Machine.advancePhase
  split
  case isTrue => exact h
  case isFalse hp =>
    have hpos := h.pos_idle (by simpa using hp)
    exact { h with
      pos_idle := fun hf => by cases hf
      pos_pend := fun _ => Nat.add_lt_add_right hpos _
      exhausted := fun he => absurd (h.exhausted he).2.2.2 hp }

/-! ## The pull loop -/

/-- Bounds carried to another state of the same stream: those of its phase, its region and its end are
left to show. -/
theorem Resampler.Bounded.of_sameStream {p : Config.Params} {rs rs' : Resampler} (h : rs.Bounded p)
    (same : rs.SameStream rs')
    (pos_idle : rs'.pend = false → rs'.posNum < rs.dstRate)
    (pos_pend : rs'.pend = true → rs'.posNum < rs.dstRate + rs.srcRate)
    (whole_frames : rs'.srcRem % rs.ch = 0) (region : rs'.srcPtr + rs'.srcRem ≤ p.memWords)
    (exhausted : rs'.exh = true →
      rs.last = true ∧ rs'.srcRem = 0 ∧ rs.dstRate ≤ rs'.posNum ∧ rs'.pend = true) :
    rs'.Bounded p :=
  { ch_pos := same.ch ▸ h.ch_pos
    ch_le := same.ch ▸ h.ch_le
    src_pos := same.srcRate ▸ h.src_pos
    src_le := same.srcRate ▸ h.src_le
    dst_pos := same.dstRate ▸ h.dst_pos
    dst_le := same.dstRate ▸ h.dst_le
    pos_idle := same.dstRate ▸ pos_idle
    pos_pend := same.dstRate ▸ same.srcRate ▸ pos_pend
    whole_frames := same.ch ▸ whole_frames
    region := region
    exhausted := same.last ▸ same.dstRate ▸ exhausted }

/-- The pull loop of a step keeps the bounds. It is ready with the phase below 1; it is exhausted with
the fed region used up and turns left, so with the phase still at 1 or above (R296, R299). -/
theorem pullLoop_bounded {m : Memory} {p : Config.Params} {rs rs' : Resampler} {e : PullEnd}
    (hb : rs.Bounded p) (hpend : rs.pend = true) (hexh : rs.exh = false)
    (h : pullLoop m (rs.posNum / rs.dstRate) rs = .ok (e, rs')) :
    rs'.Bounded p ∧ (e = .ready → rs'.posNum < rs'.dstRate ∧ rs'.exh = false) := by
  have hsame := pullLoop_sameStream h
  have hframes : rs.srcRem = rs.srcRem / rs.ch * rs.ch :=
    (Nat.div_mul_cancel (Nat.dvd_of_mod_eq_zero hb.whole_frames)).symm
  obtain ⟨hrem, hptr, hpos, hpend', hready, -, hend, hexh'⟩ := pullLoop_ok hb.ch_pos hframes h
  have hphase := Nat.mod_add_div' rs.posNum rs.dstRate
  have hmod := Nat.mod_lt rs.posNum hb.dst_pos
  generalize rs.srcRem / rs.ch = f at hframes hrem hptr hpos hready hend
  generalize rs.posNum / rs.dstRate = k at hrem hptr hpos hready hend hphase
  constructor
  · refine hb.of_sameStream hsame ?idle ?pending ?frames ?region ?exhausted
    case idle => simp [hpend', hpend]
    case pending =>
      have := hb.pos_pend hpend
      omega
    case frames => rw [hrem, Nat.mul_mod_left]
    case region =>
      have hsplit := Nat.sub_mul f (min k f) rs.ch
      have hle : min k f * rs.ch ≤ f * rs.ch := Nat.mul_le_mul_right _ (Nat.min_le_right k f)
      have := hb.region
      omega
    case exhausted =>
      intro he
      have hlt : f < k ∧ rs.last = true := by
        rw [← hend]
        by_contra hne
        rw [hexh', if_neg hne, hexh] at he
        cases he
      obtain ⟨hfk, hlast⟩ := hlt
      rw [Nat.min_eq_right hfk.le] at hrem hpos
      have hturn : (f + 1) * rs.dstRate ≤ k * rs.dstRate := Nat.mul_le_mul_right _ hfk
      rw [Nat.succ_mul] at hturn
      exact ⟨hlast, by simpa using hrem, by omega, hpend'.trans hpend⟩
  · rintro rfl
    rw [Nat.min_eq_left (hready.1 rfl)] at hpos
    rw [hsame.dstRate]
    exact ⟨by omega, hexh'.trans hexh⟩

/-! ## A step -/

/-- Everything a step can do: answer that an exhausted resampler is exhausted; or advance the phase and
pull, and then produce a frame when the pulls are made, or stop where they stopped. -/
theorem rsStep_cases {m : Memory} {taps d : Nat} {rs rs' : Resampler} {res : StepResult}
    (h : rsStep m taps d rs = .ok (res, rs')) :
    (rs.exh = true ∧ res = .exhausted ∧ rs' = rs) ∨
    (rs.exh = false ∧ ∃ e rs2, pullLoop m ((advancePhase rs).posNum / (advancePhase rs).dstRate)
        (advancePhase rs) = .ok (e, rs2) ∧
      ((e = .ready ∧ rs' = { rs2 with pend := false } ∧
          res = .out (outputFrame taps rs2.posNum rs2.dstRate d (rs2.hist.take rs2.ch))) ∨
        (e ≠ .ready ∧ rs' = rs2 ∧ ∀ y, res ≠ .out y))) := by
  unfold rsStep at h
  split at h
  case isTrue he =>
    injection h with h
    injection h with hres hrs
    exact .inl ⟨he, hres.symm, hrs.symm⟩
  case isFalse he =>
    refine .inr ⟨by simpa using he, ?_⟩
    dsimp only at h
    split at h
    case h_1 => cases h
    all_goals
      rename_i rs2 hl
      injection h with h
      injection h with hres hrs
      refine ⟨_, rs2, hl, ?_⟩
      subst hres hrs
      simp

theorem rsStep_bounded {m : Memory} {p : Config.Params} {taps d : Nat} {rs rs' : Resampler}
    {res : StepResult} (hb : rs.Bounded p) (h : rsStep m taps d rs = .ok (res, rs')) :
    rs'.Bounded p := by
  obtain ⟨-, -, rfl⟩ | ⟨hexh, e, rs2, hl, hend⟩ := rsStep_cases h
  · exact hb
  · have hexh' : (advancePhase rs).exh = false := by
      unfold advancePhase
      split <;> exact hexh
    obtain ⟨hb2, hready⟩ := pullLoop_bounded hb.advancePhase (advancePhase_pend rs) hexh' hl
    obtain ⟨he, rfl, -⟩ | ⟨-, rfl, -⟩ := hend
    · obtain ⟨hpos, hexh2⟩ := hready he
      exact { hb2 with
        pos_idle := fun _ => hpos
        pos_pend := fun hp => by cases hp
        exhausted := fun hx => by cases hexh2.symm.trans hx }
    · exact hb2

theorem advancePhase_hist (rs : Resampler) : (advancePhase rs).hist = rs.hist := by
  unfold advancePhase
  split <;> rfl

theorem rsStep_histShape {m : Memory} {p : Config.Params} {taps d : Nat} {rs rs' : Resampler}
    {res : StepResult} (ht : 1 ≤ p.taps) (hs : rs.histShape p)
    (h : rsStep m taps d rs = .ok (res, rs')) : rs'.histShape p := by
  obtain ⟨-, -, rfl⟩ | ⟨-, e, rs2, hl, hend⟩ := rsStep_cases h
  · exact hs
  · have hadv : (advancePhase rs).histShape p := by
      unfold Resampler.histShape
      rwa [advancePhase_hist]
    have h2 := pullLoop_shape ht hadv hl
    obtain ⟨-, rfl, -⟩ | ⟨-, rfl, -⟩ := hend
    · exact h2
    · exact h2

/-- A produced frame has one word a channel. -/
theorem rsStep_out_length {m : Memory} {taps d : Nat} {rs rs' : Resampler} {y : List Word}
    (h : rsStep m taps d rs = .ok (.out y, rs')) : y.length ≤ rs.ch := by
  obtain ⟨-, hres, -⟩ | ⟨-, e, rs2, hl, hend⟩ := rsStep_cases h
  · cases hres
  · obtain ⟨-, -, hres⟩ | ⟨-, -, hno⟩ := hend
    · obtain rfl := StepResult.out.inj hres
      rw [outputFrame_length, ← ((advancePhase_sameStream rs).trans (pullLoop_sameStream hl)).ch]
      exact List.length_take_le _ _
    · exact absurd rfl (hno y)

/-! ## A run -/

/-- One more frame of a run: a step that stops ends it, a frame produced goes before those of the
rest (44_resampler.md R290). -/
theorem rsRunLoop_succ {m : Memory} {taps k d : Nat} {rs : Resampler} {r : RunResult}
    (h : rsRunLoop m taps (k + 1) d rs = .ok r) :
    ∃ res rs', rsStep m taps d rs = .ok (res, rs') ∧
      ((r.frames = [] ∧ r.rs = rs') ∨
        ∃ y rest, res = .out y ∧ rsRunLoop m taps k (d + y.length) rs' = .ok rest ∧
          r.frames = y :: rest.frames ∧ r.rs = rest.rs) := by
  simp only [rsRunLoop] at h
  split at h
  case h_1 => cases h
  case h_4 y rs' hs =>
    split at h
    · cases h
    · rename_i rest hr
      injection h with h
      subst h
      exact ⟨_, rs', hs, .inr ⟨y, rest, rfl, hr, rfl, rfl⟩⟩
  all_goals
    rename_i rs' hs
    injection h with h
    subst h
    exact ⟨_, rs', hs, .inl ⟨rfl, rfl⟩⟩

theorem rsRunLoop_bounded {m : Memory} {p : Config.Params} {taps k d : Nat} {rs : Resampler}
    {r : RunResult} (ht : 1 ≤ p.taps) (hb : rs.Bounded p) (hs : rs.histShape p)
    (h : rsRunLoop m taps k d rs = .ok r) : r.rs.Bounded p ∧ r.rs.histShape p := by
  induction k generalizing d rs r with
  | zero =>
    injection h with h
    subst h
    exact ⟨hb, hs⟩
  | succ k ih =>
    obtain ⟨res, rs', hstep, hend⟩ := rsRunLoop_succ h
    have hb' := rsStep_bounded hb hstep
    have hs' := rsStep_histShape ht hs hstep
    obtain ⟨-, hrs⟩ | ⟨y, rest, -, hrest, -, hrs⟩ := hend
    · rw [hrs]
      exact ⟨hb', hs'⟩
    · rw [hrs]
      exact ih hb' hs' hrest

/-- A run that wants `k` frames produces at most `k` words a channel. -/
theorem rsRunLoop_frames_length {m : Memory} {taps k d : Nat} {rs : Resampler} {r : RunResult}
    (h : rsRunLoop m taps k d rs = .ok r) : r.frames.flatten.length ≤ k * rs.ch := by
  induction k generalizing d rs r with
  | zero =>
    injection h with h
    subst h
    exact Nat.zero_le _
  | succ k ih =>
    obtain ⟨res, rs', hstep, hend⟩ := rsRunLoop_succ h
    obtain ⟨hframes, -⟩ | ⟨y, rest, rfl, hrest, hframes, -⟩ := hend
    · rw [hframes]
      exact Nat.zero_le _
    · have hy := rsStep_out_length hstep
      have hl := ih hrest
      rw [(rsStep_sameStream hstep).ch] at hl
      rw [hframes, List.flatten_cons, List.length_append, Nat.succ_mul]
      omega

/-- A run from a configured resampler leaves a sound one. -/
theorem Resampler.Sound.rsRunLoop {m : Memory} {p : Config.Params} {taps k d : Nat} {rs : Resampler}
    {r : RunResult} (hs : rs.Sound p) (ht : 1 ≤ p.taps) (hcfg : rs.cfg = true)
    (h : Machine.rsRunLoop m taps k d rs = .ok r) : r.rs.Sound p := by
  obtain ⟨hb, hshape⟩ := rsRunLoop_bounded ht (hs.configured hcfg) hs.shape h
  have hcfg' := (rsRunLoop_sameStream h).cfg.trans hcfg
  exact { shape := hshape
          unconfigured := fun hc => by cases hcfg'.symm.trans hc
          configured := fun _ => hb }

end Sys2Proof.Machine
end

section
/-! PROOFS. The invariant through every step: what a completed command leaves, the operations of the
lifecycle, and the turns of the agents (10_state.md R51, R60-R62; 40_common.md R150-R153). -/

namespace Sys2Proof.Machine

/-! ## What a completed command leaves -/

/-- `rs` after a command that passed its checks: only the resampler's commands replace it. -/
def RsAfter (s : State) (i : Instr) (rs : Resampler) : Prop :=
  match i with
  | .rscfg ch srcRate dstRate => rs = configured s.params ch.toNat srcRate.toNat dstRate.toNat
  | .rsfeed src len flags => rs = fed s.rs src.toNat len.toNat (flagLast flags)
  | .rsrun _ max => ∃ r, rsRunLoop s.mem s.params.taps max.toNat s.draws s.rs = .ok r ∧ rs = r.rs
  | _ => rs = s.rs

/-- Whatever the power, NGEN writes one word a sample (43_noise.md R243-R245). -/
theorem ngenWords_length (p snr : Word) (d n : Nat) : (ngenWords p snr d n).length = n := by
  unfold ngenWords
  split
  · simp
  · split <;> simp

/-- A command that passed its checks and completed stored words at the start of its write set, no more
than it holds, and replaced `rs` as `RsAfter` says. -/
theorem exec_success {i : Instr} {s t : State} (hc : checkOf i s = none) (h : exec i s = .next t) :
    ∃ vs rs n r0 r1, t = (((s.store (writeRange i s).1 vs).setRs rs).draw n).complete r0 r1 ∧
      vs.length ≤ (writeRange i s).2 ∧ RsAfter s i rs := by
  cases i with
  | nop =>
    injection h with h
    exact ⟨[], s.rs, 0, 0, 0, h.symm, Nat.zero_le _, rfl⟩
  | fdes dst len low high rate =>
    simp only [checkOf] at hc
    simp only [exec, execFdes, hc] at h
    injection h with h
    exact ⟨_, s.rs, 0, _, _, h.symm, by simp [fdesTaps, writeRange], rfl⟩
  | conv dst sig n ker m =>
    simp only [checkOf] at hc
    simp only [exec, execConv, hc] at h
    split at h
    · cases h
    · split at h
      · cases h
      · injection h with h
        exact ⟨_, s.rs, _, _, _, h.symm, by simp [convWords, writeRange], rfl⟩
  | power src n =>
    simp only [checkOf] at hc
    simp only [exec, execPower, hc] at h
    split at h
    · cases h
    · injection h with h
      exact ⟨[], s.rs, 0, _, _, h.symm, Nat.zero_le _, rfl⟩
  | ngen dst src n snr =>
    simp only [checkOf] at hc
    simp only [exec, execNgen, hc] at h
    split at h
    · cases h
    · injection h with h
      exact ⟨_, s.rs, _, _, _, h.symm, by simp [writeRange, ngenWords_length], rfl⟩
  | vadd dst a n b =>
    simp only [checkOf] at hc
    simp only [exec, execVadd, hc] at h
    split at h
    · cases h
    · rename_i ps hps
      injection h with h
      have hlen := (Memory.readPairs_ok hps).1
      exact ⟨_, s.rs, 0, _, _, h.symm, by simp [writeRange, hlen], rfl⟩
  | rscfg ch srcRate dstRate =>
    simp only [checkOf] at hc
    simp only [exec, execRscfg, hc] at h
    injection h with h
    exact ⟨[], configured s.params _ _ _, 0, 0, 0, h.symm, Nat.zero_le _, rfl⟩
  | rsfeed src len flags =>
    simp only [checkOf] at hc
    simp only [exec, execRsfeed, hc] at h
    injection h with h
    exact ⟨[], fed s.rs _ _ _, 0, natWord _, 0, h.symm, Nat.zero_le _, rfl⟩
  | rsrun dst max =>
    simp only [checkOf] at hc
    simp only [exec, execRsrun, hc] at h
    split at h
    · cases h
    · rename_i r hr
      injection h with h
      exact ⟨_, r.rs, _, _, _, h.symm, rsRunLoop_frames_length hr, r, hr, rfl⟩

/-- RSRUN's checks need a configured resampler (44_resampler.md R290). -/
theorem cfg_of_checkRsrun {dst max : Word} {s : State} (h : checkRsrun dst max s = none) :
    s.rs.cfg = true := by
  have := (firstError_eq_none_iff _).1 h (!s.rs.cfg, .rsState) (by simp)
  simpa using this

/-- A command that passed its checks leaves a sound resampler. -/
theorem Resampler.Sound.rsAfter {s : State} {i : Instr} {rs : Resampler} (hp : 1 ≤ s.params.taps)
    (hs : s.rs.Sound s.params) (hc : checkOf i s = none) (h : RsAfter s i rs) :
    rs.Sound s.params := by
  cases i with
  | rscfg ch srcRate dstRate =>
    obtain ⟨hch, hsrc, hdst⟩ := (checkRscfg_eq_none_iff ch srcRate dstRate s).1 hc
    obtain rfl : rs = _ := h
    exact Resampler.sound_configured hch hsrc hdst
  | rsfeed src len flags =>
    obtain ⟨hcfg, hlast, -, hframes, hr⟩ := checkRsfeed_eq_none hc
    obtain rfl : rs = _ := h
    exact hs.fed hcfg hlast hframes hr
  | rsrun dst max =>
    obtain ⟨r, hr, rfl⟩ := h
    exact hs.rsRunLoop hp (cfg_of_checkRsrun hc) hr
  | nop | fdes | conv | power | ngen | vadd =>
    obtain rfl : rs = s.rs := h
    exact hs

/-! ## The operations of the lifecycle -/

theorem ErrCode.code_ne_zero (e : ErrCode) : e.code ≠ 0 := by cases e <;> decide

theorem ErrCode.code_le (e : ErrCode) : e.code.toNat ≤ 7 := by cases e <;> decide

namespace State.Inv

variable {s t : State}

/-- A state that differs in registers the invariant does not speak of. -/
theorem of_status (h : s.Inv) (hp : t.params = s.params) (hm : t.mem = s.mem) (hr : t.rs = s.rs)
    (hs : t.StatusSound) : t.Inv :=
  { params := hp ▸ h.params
    mem := by rw [hp, hm]; exact h.mem
    status := hs
    rs := by rw [hp, hr]; exact h.rs }

/-- A state that differs in registers the invariant does not speak of, STATUS kept. -/
theorem of_same (h : s.Inv) (hp : t.params = s.params) (hm : t.mem = s.mem) (hr : t.rs = s.rs)
    (hb : t.busy = s.busy) (hd : t.done = s.done) (he : t.err = s.err)
    (hc : t.errcode = s.errcode) : t.Inv :=
  h.of_status hp hm hr
    { errcode_iff := by rw [hc, he]; exact h.status.errcode_iff
      errcode_le := hc ▸ h.status.errcode_le
      busy_clear := by rw [hb, hd, he]; exact h.status.busy_clear }

theorem taps_pos (h : s.Inv) : 1 ≤ s.params.taps := by
  obtain ⟨-, -, -, ⟨htaps, -⟩, -⟩ := (legal_iff s.params).1 h.params
  omega

/-- Completion with success leaves BUSY = 0, and ERR and ERRCODE as they were. -/
theorem complete (h : s.Inv) (r0 r1 : Word) : (s.complete r0 r1).Inv :=
  h.of_status rfl rfl rfl { h.status with busy_clear := fun hb => by cases hb }

/-- Completion with an error: every code is one of 1 to 7 (60_exceptions.md R320). -/
theorem completeError (h : s.Inv) (e : ErrCode) : (s.completeError e).Inv :=
  h.of_status rfl rfl rfl
    { errcode_iff := iff_of_true e.code_ne_zero rfl
      errcode_le := e.code_le
      busy_clear := fun hb => by cases hb }

theorem draw (h : s.Inv) (n : Nat) : (s.draw n).Inv := h.of_same rfl rfl rfl rfl rfl rfl rfl

theorem respond (h : s.Inv) (resp : BusResp) (rdata : Option Word) : (s.respond resp rdata).Inv :=
  h.of_same rfl rfl rfl rfl rfl rfl rfl

theorem setRs {rs : Resampler} (h : s.Inv) (hr : rs.Sound s.params) : (s.setRs rs).Inv :=
  { params := h.params, mem := h.mem, status := { h.status with }, rs := hr }

theorem store {base : Nat} {vs : List Word} (h : s.Inv)
    (hr : vs = [] ∨ base + vs.length ≤ s.params.memWords) : (s.store base vs).Inv :=
  { params := h.params, mem := Memory.Sound_writeWords vs h.mem hr, status := { h.status with }
    rs := h.rs }

/-- A start clears DONE, ERR and ERRCODE (40_common.md R150). -/
theorem start (h : s.Inv) : s.start.Inv := by
  obtain ⟨-, hs⟩ | ⟨-, hs⟩ := s.start_cases
  · rwa [hs]
  · rw [hs]
    exact h.of_status rfl rfl rfl (statusSound_clear rfl rfl rfl)

/-- The acknowledge clears ERR and ERRCODE together (10_state.md R50). -/
theorem writeStatus (h : s.Inv) (v : Word) : (s.writeStatus v).Inv := by
  rw [State.writeStatus_eq]
  refine h.of_status rfl rfl rfl ⟨?iff, ?le, fun hb => ?busy⟩
  case iff =>
    have := h.status.errcode_iff
    cases v.getLsbD 2
    · simpa using this
    · simp
  case le =>
    have := h.status.errcode_le
    cases v.getLsbD 2
    · simpa using this
    · simp
  case busy =>
    obtain ⟨hdone, herr⟩ := h.status.busy_clear hb
    simp [hdone, herr]

/-- A soft reset: the registers and `rs` at their reset values, DMEM with at most its aborted words
emptied (70_reset_and_hazards.md R362, R363). -/
theorem softReset (h : s.Inv) : s.softReset.Inv := by
  have hmem : s.softReset.mem.Sound s.params := by
    rw [State.softReset_mem]
    split
    · exact Memory.Sound_clearWords _ _ h.mem
    · exact h.mem
  rw [State.softReset_eq]
  exact { params := h.params, mem := hmem, status := statusSound_clear rfl rfl rfl
          rs := Resampler.sound_reset _ }

/-- A hardware reset is the reset state, in all the invariant speaks of (70_reset_and_hazards.md
R360). -/
theorem hardwareReset (h : s.Inv) : s.hardwareReset.Inv :=
  (resetMeetsTheInvariant s.params h.params).of_same rfl rfl rfl rfl rfl rfl rfl

theorem writeReg (h : s.Inv) (r : Reg) (v : Word) : (s.writeReg r v).Inv := by
  have hien : ({ s with irqEn := v.getLsbD 2 } : State).Inv := h.of_same rfl rfl rfl rfl rfl rfl rfl
  obtain hw | hw | hw | hw | hw | ⟨-, hw⟩ := s.writeReg_cases r v
  · rwa [hw]
  · rw [hw]; exact h.softReset
  · rwa [hw]
  · rw [hw]; exact hien.start
  · rw [hw]; exact h.writeStatus v
  · obtain hw | hw | hw | hw | hw | hw := hw <;>
      exact hw ▸ h.of_same rfl rfl rfl rfl rfl rfl rfl

end State.Inv

/-! ## The turns -/

theorem exec_keeps_inv {i : Instr} {s t : State} (h : s.Inv) (hx : exec i s = .next t) : t.Inv := by
  cases hc : checkOf i s with
  | some e =>
    rw [exec_of_check_some hc] at hx
    injection hx with hx
    exact hx ▸ h.completeError e
  | none =>
    obtain ⟨vs, rs, n, r0, r1, rfl, hlen, hrs⟩ := exec_success hc hx
    have hin := (inRange_iff _ _ _).1 (writeRange_inRange hc)
    have hroom : vs = [] ∨ (writeRange i s).1 + vs.length ≤ s.params.memWords := by
      rw [← List.length_eq_zero_iff]
      omega
    have hsound : rs.Sound s.params := h.rs.rsAfter h.taps_pos hc hrs
    exact (((h.store hroom).setRs hsound).draw n).complete r0 r1

theorem engineTurn_keeps_inv {s t : State} (h : s.Inv) (ht : engineTurn s = .next t) : t.Inv := by
  unfold engineTurn at ht
  split at ht
  · unfold runCommand at ht
    split at ht
    · exact exec_keeps_inv h ht
    · injection ht with ht
      exact ht ▸ h.completeError .illegal
  · injection ht with ht
    exact ht ▸ h

theorem hostAccess_keeps_inv {a : Access} {s t : State} (h : s.Inv) (ht : hostAccess a s = .next t) :
    t.Inv := by
  obtain ⟨-, w, -, hf⟩ | ⟨u, resp, rdata, hu, hcase⟩ := hostAccess_cases a s
  · cases hf.symm.trans ht
  · injection hu.symm.trans ht with hu
    rw [← hu]
    refine State.Inv.respond ?_ resp rdata
    obtain rfl | rfl | ⟨r, v, rfl⟩ | ⟨-, w, v, hw, rfl⟩ := hcase
    · exact h
    · exact h.draw 1
    · exact h.writeReg r v
    · exact h.store (.inr hw)

theorem takeTurn_keeps_inv {i : Input} {s t : State} (h : s.Inv) (ht : takeTurn i s = .next t) :
    t.Inv := by
  cases i with
  | engine => exact engineTurn_keeps_inv h ht
  | host a => exact hostAccess_keeps_inv h ht
  | hardwareReset =>
    injection ht with ht
    exact ht ▸ h.hardwareReset

/-- Settles O57: the step is one agent's turn, and every turn keeps the invariant. -/
theorem everyStepKeepsTheInvariant : Obligations.EveryStepKeepsTheInvariant := by
  unfold Obligations.EveryStepKeepsTheInvariant
  intro s t h hstep
  cases hin : s.inputs with
  | nil => exact engineTurn_keeps_inv h (step_of_schedule_nil hin ▸ hstep)
  | cons i rest =>
    rw [step_of_schedule_cons hin] at hstep
    have hrest : ({ s with inputs := rest } : State).Inv := h.of_same rfl rfl rfl rfl rfl rfl rfl
    exact takeTurn_keeps_inv hrest hstep

end Sys2Proof.Machine
end

section
/-! PROOFS. The port outside the register page: accesses it rejects, unmapped offsets, and the DMEM
window (20_memory.md R91-R98). -/

namespace Sys2Proof.Machine

/-! ## Rejected and unmapped accesses -/

section
variable {s : State} {off : Offset}

theorem hostAccess_of_not_aligned {width : Nat} (v : Word) (h : width ≠ 4 ∨ off.toNat % 4 ≠ 0) :
    hostAccess (.read off width) s = .next (s.respond .slverr (some 0)) ∧
    hostAccess (.write off width v) s = .next (s.respond .slverr (some 0)) := by
  have hna : ¬ aligned off width = true := by
    rw [aligned_iff]
    omega
  exact ⟨if_neg hna, if_neg hna⟩

theorem hostAccess_unmapped (v : Word) (h4 : off.toNat % 4 = 0) (hlo : 0x100 ≤ off.toNat)
    (hout : off.toNat < dmemBase ∨ dmemBase + 4 * s.params.memWords ≤ off.toNat) :
    hostAccess (.read off 4) s = .next (s.respond .decerr (some 0)) ∧
    hostAccess (.write off 4 v) s = .next (s.respond .decerr (some 0)) := by
  simp only [hostAccess, hostRead, hostWrite, (aligned_iff off 4).2 ⟨rfl, h4⟩, if_true,
    regionOf_unmapped s.params hlo hout, and_self]

end

/-- Settles O42: the alignment test, then the region. -/
theorem badAccessesChangeNothing : Obligations.BadAccessesChangeNothing := by
  unfold Obligations.BadAccessesChangeNothing
  refine fun s off width v => ⟨hostAccess_of_not_aligned v, ?unmapped⟩
  case unmapped =>
    rintro rfl h4 hlo hout
    exact hostAccess_unmapped v h4 hlo hout

/-! ## The DMEM window -/

section
variable {s : State} {off : Offset} {w : Nat}

/-- A word of the window is at a multiple of 4, in its own region. -/
theorem dmem_aligned_regionOf (hw : w < s.params.memWords) (hoff : off.toNat = wordAddr w) :
    aligned off 4 = true ∧ regionOf s.params off.toNat = .dmem w := by
  refine ⟨(aligned_iff off 4).2 ⟨rfl, ?_⟩, hoff ▸ regionOf_dmem s.params hw⟩
  rw [hoff, wordAddr, dmemBase]
  omega

theorem hostAccess_read_dmem (hw : w < s.params.memWords) (hoff : off.toNat = wordAddr w) :
    hostAccess (.read off 4) s = .next (s.readDmem w) := by
  obtain ⟨hal, hreg⟩ := dmem_aligned_regionOf hw hoff
  simp only [hostAccess, hostRead, hal, if_true, hreg]

theorem hostAccess_write_dmem (v : Word) (hw : w < s.params.memWords) (hoff : off.toNat = wordAddr w) :
    hostAccess (.write off 4 v) s = s.writeDmem w v := by
  obtain ⟨hal, hreg⟩ := dmem_aligned_regionOf hw hoff
  simp only [hostAccess, hostWrite, hal, if_true, hreg]

theorem State.writeDmem_of_busy (v : Word) (hb : s.busy = true) :
    s.writeDmem w v = .fault (.hostWriteBusy w) := if_pos hb

theorem State.writeDmem_of_idle (v : Word) (hb : s.busy = false) :
    s.writeDmem w v = .next ((s.store w [v]).respond .okay none) := by
  simp only [State.writeDmem, hb, Bool.false_eq_true, if_false]

theorem State.readDmem_of_some {v : Word} (hb : s.busy = false) (hv : s.mem.readWord w = some v) :
    s.readDmem w = s.respond .okay (some v) := by
  simp only [State.readDmem, hb, hv]

/-- A read of the window answers OKAY with some word and at most takes free values. -/
theorem State.readDmem_eq (s : State) (w : Nat) :
    ∃ x n, s.readDmem w = (s.respond .okay (some x)).draw n := by
  unfold State.readDmem
  split
  · exact ⟨_, 0, rfl⟩
  · exact ⟨_, 1, rfl⟩

/-- A one-word store reaches no byte of another word. -/
theorem State.sameOutside_store (s : State) (w : Nat) (v : Word) :
    s.sameOutside (s.store w [v]) w 1 :=
  fun _ hk => s.mem.readByte_writeWords_outside [v] hk

end

/-- Settles O43: the write by BUSY; the read by whether the word is held while idle. -/
theorem dmemAccesses : Obligations.DmemAccesses := by
  unfold Obligations.DmemAccesses
  intro s off w v hw hoff
  rw [hostAccess_write_dmem v hw hoff, hostAccess_read_dmem hw hoff]
  refine ⟨State.writeDmem_of_busy v, fun hb => ?store, ?read⟩
  case store =>
    exact ⟨_, State.writeDmem_of_idle v hb, rfl, s.mem.readWord_writeWord_same w v,
      s.sameOutside_store w v⟩
  case read =>
    obtain ⟨x, n, hx⟩ := s.readDmem_eq w
    refine ⟨x, _, rfl, by rw [hx]; rfl, fun hb y hy => ?_⟩
    have hport := congrArg State.port (hx.symm.trans (State.readDmem_of_some hb hy))
    simpa using hport

/-- Settles O44: the store leaves the word's lanes in its four bytes and BUSY = 0, and such a word
is what the read answers. -/
theorem dmemIsLittleEndian : Obligations.DmemIsLittleEndian := by
  unfold Obligations.DmemIsLittleEndian
  intro s t off w v hw hoff hb ht
  rw [hostAccess_write_dmem v hw hoff, State.writeDmem_of_idle v hb] at ht
  injection ht with ht
  have hidle : t.busy = false := ht ▸ hb
  have hwin : w < t.params.memWords := ht ▸ hw
  have hmem : t.mem = s.mem.writeWord w v := ht ▸ rfl
  refine ⟨fun j hj => ?lanes, ?readBack⟩
  case lanes =>
    rw [hmem, hoff]
    exact s.mem.readByte_writeWord_lane w v hj
  case readBack =>
    have hheld : t.mem.readWord w = some v := hmem ▸ s.mem.readWord_writeWord_same w v
    rw [hostAccess_read_dmem hwin hoff, State.readDmem_of_some hidle hheld]
    rfl

/-! ## Faults -/

/-- Only a 32-bit write of a DMEM word can do anything but go on to a next state. -/
theorem hostAccess_next_or_dmem_write (a : Access) (s : State) :
    (∃ t, hostAccess a s = .next t) ∨
    ∃ off v w, a = .write off 4 v ∧ w < s.params.memWords ∧ off.toNat = wordAddr w := by
  cases a with
  | read off width =>
    simp only [hostAccess, hostRead]
    split
    · split <;> exact .inl ⟨_, rfl⟩
    · exact .inl ⟨_, rfl⟩
  | write off width v =>
    simp only [hostAccess, hostWrite]
    split
    next hal =>
      obtain ⟨rfl, h4⟩ := (aligned_iff off width).1 hal
      split
      next => exact .inl ⟨_, rfl⟩
      next w hreg => exact .inr ⟨off, v, w, rfl, regionOf_eq_dmem h4 hreg⟩
      next => exact .inl ⟨_, rfl⟩
    next => exact .inl ⟨_, rfl⟩

/-- Settles O53: a write of the window by BUSY; every other access has a next state. -/
theorem hostFaultsExactlyOnBusyWrites : Obligations.HostFaultsExactlyOnBusyWrites := by
  unfold Obligations.HostFaultsExactlyOnBusyWrites
  refine fun a s => ⟨fun r hr => ?noRefusal, fun f => ⟨fun hf => ?faultOnlyOn, ?busyWrite⟩⟩
  case noRefusal =>
    obtain ⟨-, w, -, h⟩ | ⟨t, resp, rdata, h, -⟩ := hostAccess_cases a s <;> cases h.symm.trans hr
  case faultOnlyOn =>
    obtain ⟨t, h⟩ | ⟨off, v, w, rfl, hw, hoff⟩ := hostAccess_next_or_dmem_write a s
    · cases h.symm.trans hf
    · rw [hostAccess_write_dmem v hw hoff] at hf
      cases hb : s.busy with
      | false => cases (State.writeDmem_of_idle v hb).symm.trans hf
      | true =>
        cases (State.writeDmem_of_busy v hb).symm.trans hf
        exact ⟨rfl, off, v, w, rfl, hw, hoff, rfl⟩
  case busyWrite =>
    rintro ⟨hb, off, v, w, rfl, hw, hoff, rfl⟩
    rw [hostAccess_write_dmem v hw hoff, State.writeDmem_of_busy v hb]

end Sys2Proof.Machine
end

section
/-! PROOFS. The decoder and the encoder: which words decode to a command, and which are ILLEGAL
(30_encoding.md R120-R131). -/

namespace Sys2Proof

/-! ## The words that decode to a command -/

/-- ARG0..ARG4 of a command, by number (30_encoding.md R120). -/
def Command.args (c : Command) : List Word := [c.arg0, c.arg1, c.arg2, c.arg3, c.arg4]

theorem rsvField_cmdWord (i : Instr) : rsvField i.cmdWord = 0 := by
  cases i <;> simp only [Instr.cmdWord] <;> decide

/-- A command's six words decode to `i` exactly when they are `i`'s CMD word and, in the argument
registers `i` uses, its operands (30_encoding.md R123-R125, R129). -/
theorem decode_eq_ok_iff {c : Command} {i : Instr} :
    decode c = .ok i ↔
      c.cmd = i.cmdWord ∧ ∀ kv ∈ Machine.usedArgs i, c.args[kv.1]? = some kv.2 := by
  constructor
  · intro h
    have hrsv : rsvField c.cmd = 0 := by
      by_contra hne
      cases (decode_of_rsv_ne hne).symm.trans h
    rw [decode_of_rsv_eq hrsv] at h
    rcases decodeOpcode_cases c with ⟨hop, hd⟩ | ⟨hop, hd⟩ | ⟨hop, hd⟩ | ⟨hop, hd⟩ | ⟨hop, hd⟩ |
      ⟨hop, hd⟩ | ⟨hop, hd⟩ | ⟨hop, hd⟩ | ⟨hop, hd⟩ | ⟨-, hd⟩ <;> cases hd.symm.trans h
    all_goals exact ⟨cmd_eq_of_fields hrsv hop, by simp [Machine.usedArgs, Command.args]⟩
  · rintro ⟨hcmd, hargs⟩
    have hrsv : rsvField c.cmd = 0 := hcmd ▸ rsvField_cmdWord i
    rw [decode_of_rsv_eq hrsv, decodeOpcode, opcField_toNat, hcmd]
    cases i <;> simp_all [Instr.cmdWord, Machine.usedArgs, Command.args]

/-- The encoder writes the CMD word and the operands. -/
theorem encode_words (i : Instr) :
    (encode i).cmd = i.cmdWord ∧
      ∀ kv ∈ Machine.usedArgs i, (encode i).args[kv.1]? = some kv.2 := by
  cases i <;> exact ⟨rfl, by simp [Machine.usedArgs, Command.args, encode]⟩

/-- Settles O2: both parts say which words decode to a command. -/
theorem decodeEncodeAgree : Obligations.DecodeEncodeAgree := by
  unfold Obligations.DecodeEncodeAgree
  exact ⟨fun i => decode_eq_ok_iff.2 (encode_words i), fun c i h => decode_eq_ok_iff.1 h⟩

/-- Settles O1: each row of the opcode map has its command's CMD word and operands. -/
theorem opcodeMapDecodes : Obligations.OpcodeMapDecodes := by
  unfold Obligations.OpcodeMapDecodes
  intro a0 a1 a2 a3 a4
  refine ⟨?_, ?_, ?_, ?_, ?_, ?_, ?_, ?_, ?_⟩
  all_goals exact decode_eq_ok_iff.2 ⟨rfl, by simp [Machine.usedArgs, Command.args]⟩

/-! ## The ILLEGAL words -/

/-- With RSV = 0 a word is its opcode, and decoding goes by the opcode map: a gap of the map, or a
command (30_encoding.md R124, R126). -/
theorem decode_cases_of_div_eq_zero {c : Command} (h : c.cmd.toNat / 256 = 0) :
    (((6 ≤ c.cmd.toNat ∧ c.cmd.toNat ≤ 15) ∨ 19 ≤ c.cmd.toNat) ∧
      decode c = .error .unassignedOpcode) ∨
    ((c.cmd.toNat < 6 ∨ (16 ≤ c.cmd.toNat ∧ c.cmd.toNat ≤ 18)) ∧ ∃ i, decode c = .ok i) := by
  have hop : (opcField c.cmd).toNat = c.cmd.toNat := by
    rw [opcField_toNat]
    omega
  rw [decode_of_rsv_eq ((rsvField_eq_zero_iff c.cmd).2 h), ← hop]
  rcases decodeOpcode_cases c with ⟨ho, hd⟩ | ⟨ho, hd⟩ | ⟨ho, hd⟩ | ⟨ho, hd⟩ | ⟨ho, hd⟩ |
    ⟨ho, hd⟩ | ⟨ho, hd⟩ | ⟨ho, hd⟩ | ⟨ho, hd⟩ | hgap
  iterate 9 exact .inr ⟨by omega, _, hd⟩
  exact .inl hgap

/-- Settles O3: RSV ≠ 0, a gap of the opcode map, or a command. -/
theorem illegalWordsExactly : Obligations.IllegalWordsExactly := by
  unfold Obligations.IllegalWordsExactly
  intro c
  by_cases h : c.cmd.toNat / 256 = 0
  · obtain ⟨hop, hd⟩ | ⟨hop, i, hd⟩ := decode_cases_of_div_eq_zero h <;> rw [hd]
    · simp only [Except.error.injEq, reduceCtorEq, false_iff, true_iff, exists_false, or_false]
      omega
    · simp only [reduceCtorEq, false_iff, Except.ok.injEq, exists_eq', or_true, and_true]
      omega
  · rw [decode_of_rsv_ne (mt (rsvField_eq_zero_iff c.cmd).1 h)]
    simp only [reduceCtorEq, Except.error.injEq, true_iff, false_iff, exists_false, or_false]
    omega

end Sys2Proof
end

section
/-! PROOFS. The argument registers a command ignores (30_encoding.md R129; 10_state.md R54). -/

namespace Sys2Proof.Machine

section
variable (i : Instr) (s : State) (a0 a1 a2 a3 a4 : Word)

@[simp] theorem State.withArgs_rs : (s.withArgs a0 a1 a2 a3 a4).rs = s.rs := rfl
@[simp] theorem State.withArgs_mem : (s.withArgs a0 a1 a2 a3 a4).mem = s.mem := rfl
@[simp] theorem State.withArgs_params : (s.withArgs a0 a1 a2 a3 a4).params = s.params := rfl
@[simp] theorem State.withArgs_draws : (s.withArgs a0 a1 a2 a3 a4).draws = s.draws := rfl

/-- The checks read the operands, the parameters and `rs`. -/
theorem checkOf_withArgs : checkOf i (s.withArgs a0 a1 a2 a3 a4) = checkOf i s := by
  cases i <;> rfl

/-- Execution looks at no argument register and writes none: its operands come with the command, and
beside them it reads DMEM, the parameters, `rs` and the draw counter. -/
theorem exec_withArgs :
    exec i (s.withArgs a0 a1 a2 a3 a4) =
      mapNext (fun t => t.withArgs a0 a1 a2 a3 a4) (exec i s) := by
  have hchecks := checkOf_withArgs i s a0 a1 a2 a3 a4
  cases hc : checkOf i s with
  | some e => rw [exec_of_check_some hc, exec_of_check_some (hchecks.trans hc)]; rfl
  | none =>
    rw [hc] at hchecks
    cases i with
    | nop => rfl
    | fdes | rscfg | rsfeed =>
      simp only [checkOf] at hc hchecks
      simp only [exec, execFdes, execRscfg, execRsfeed, hc, hchecks]
      rfl
    | power src n | ngen dst src n snr =>
      simp only [checkOf] at hc hchecks
      simp only [exec, execPower, execNgen, hc, hchecks, State.withArgs_mem]
      cases s.mem.readWords src.toNat n.toNat <;> rfl
    | vadd dst a n b =>
      simp only [checkOf] at hc hchecks
      simp only [exec, execVadd, hc, hchecks, State.withArgs_mem]
      cases s.mem.readPairs a.toNat b.toNat n.toNat <;> rfl
    | conv dst sig n ker m =>
      simp only [checkOf] at hc hchecks
      simp only [exec, execConv, hc, hchecks, State.withArgs_mem]
      cases s.mem.readWords sig.toNat n.toNat with
      | error => rfl
      | ok => cases s.mem.readWords ker.toNat m.toNat <;> rfl
    | rsrun dst max =>
      simp only [checkOf] at hc hchecks
      simp only [exec, execRsrun, hc, hchecks, State.withArgs_mem, State.withArgs_params,
        State.withArgs_draws, State.withArgs_rs]
      cases rsRunLoop s.mem s.params.taps max.toNat s.draws s.rs <;> rfl

end

/-- Settles O7: one command, whose execution the argument registers do not enter. -/
theorem ignoredArgumentsNeverMatter : Obligations.IgnoredArgumentsNeverMatter := by
  unfold Obligations.IgnoredArgumentsNeverMatter
  intro s a0 a1 a2 a3 a4 i hs ht
  rw [runCommand, runCommand, hs, ht]
  exact exec_withArgs i s a0 a1 a2 a3 a4

end Sys2Proof.Machine
end

section
/-! PROOFS. The register writes of a command pseudo-instruction (30_encoding.md R135; 40_common.md R150,
R151). While BUSY = 0 the writes of the ARGs and CMD change the six command words and the port's response
alone, so a state between them is `s.latching c port` for the words `c` written so far. -/

namespace Sys2Proof.Machine

/-! ## The argument registers by number -/

/-- The command with `v` in argument register `k`. -/
def setArg (c : Command) (k : Nat) (v : Word) : Command :=
  { c with
    arg0 := if k = 0 then v else c.arg0, arg1 := if k = 1 then v else c.arg1,
    arg2 := if k = 2 then v else c.arg2, arg3 := if k = 3 then v else c.arg3,
    arg4 := if k = 4 then v else c.arg4 }

/-- The command with each value of a list in the argument register it is paired with. -/
def setArgs (c : Command) : List (Nat × Word) → Command
  | [] => c
  | kv :: rest => setArgs (setArg c kv.1 kv.2) rest

theorem setArg_args (c : Command) {k : Nat} (v : Word) (hk : k < 5) :
    (setArg c k v).args = c.args.set k v := by
  interval_cases k <;> rfl

theorem setArgs_args_of_not_mem {l : List (Nat × Word)} (hl : ∀ kv ∈ l, kv.1 < 5) (c : Command)
    {k : Nat} (hk : k ∉ l.map Prod.fst) : (setArgs c l).args[k]? = c.args[k]? := by
  induction l generalizing c with
  | nil => rfl
  | cons kv rest ih =>
    obtain ⟨hkv, hrest⟩ := List.forall_mem_cons.1 hl
    simp only [List.map_cons, List.mem_cons, not_or] at hk
    rw [setArgs, ih hrest _ hk.2, setArg_args c kv.2 hkv, List.getElem?_set_ne (Ne.symm hk.1)]

theorem setArgs_args_of_mem {l : List (Nat × Word)} (hl : ∀ kv ∈ l, kv.1 < 5)
    (hdistinct : (l.map Prod.fst).Nodup) (c : Command) :
    ∀ kv ∈ l, (setArgs c l).args[kv.1]? = some kv.2 := by
  induction l generalizing c with
  | nil => simp
  | cons kv rest ih =>
    obtain ⟨hkv, hrest⟩ := List.forall_mem_cons.1 hl
    obtain ⟨hnew, hdistinct⟩ := List.nodup_cons.1 hdistinct
    refine List.forall_mem_cons.2 ⟨?_, ih hrest hdistinct _⟩
    rw [setArgs, setArgs_args_of_not_mem hrest _ hnew, setArg_args c kv.2 hkv]
    exact List.getElem?_set_self hkv

theorem usedArgs_lt (i : Instr) : ∀ kv ∈ usedArgs i, kv.1 < 5 := by
  cases i <;> simp [usedArgs]

theorem usedArgs_distinct (i : Instr) : ((usedArgs i).map Prod.fst).Nodup := by
  cases i <;> simp [usedArgs]

/-! ## The writes -/

/-- `s` with the command words `c` and the response `port`. -/
def State.latching (s : State) (c : Command) (port : Option PortResponse) : State :=
  { s with
    cmd := c.cmd, arg0 := c.arg0, arg1 := c.arg1, arg2 := c.arg2, arg3 := c.arg3, arg4 := c.arg4,
    port := port }

theorem hostAll_append {as bs : List Access} {s t : State} (h : hostAll as s = .next t) :
    hostAll (as ++ bs) s = hostAll bs t := by
  induction as generalizing s with
  | nil =>
    injection h with h
    rw [h, List.nil_append]
  | cons a rest ih =>
    simp only [hostAll, List.cons_append] at h ⊢
    split at h
    · exact ih h
    · cases h
    · cases h

theorem hostAll_cons {a : Access} {as : List Access} {s t : State} (h : hostAccess a s = .next t) :
    hostAll (a :: as) s = hostAll as t := by
  rw [hostAll, h]

/-- A write of an argument register while BUSY = 0 (40_common.md R151). -/
theorem hostAccess_write_arg {s : State} (hb : s.busy = false) {k : Nat} (v : Word) (hk : k < 5) :
    hostAccess (.write (BitVec.ofNat 25 (0x014 + 4 * k)) 4 v) s =
      .next (s.latching (setArg s.command k v) (some ⟨.okay, none⟩)) := by
  have hoff : (BitVec.ofNat 25 (0x014 + 4 * k)).toNat = 0x014 + 4 * k := by
    rw [BitVec.toNat_ofNat]
    omega
  rw [hostAccess_write_page v (by omega) (by omega), hoff,
    s.pageWrite_command v (by omega) (by omega) (by omega), s.whenIdle_of_idle _ hb]
  interval_cases k <;> rfl

/-- A write of CMD while BUSY = 0 (40_common.md R151). -/
theorem hostAccess_write_cmd {s : State} (hb : s.busy = false) (v : Word) :
    hostAccess (.write 0x010 4 v) s =
      .next (s.latching { s.command with cmd := v } (some ⟨.okay, none⟩)) := by
  rw [hostAccess_write_page v (by decide) (by decide),
    s.pageWrite_command v (by decide) (by decide) (by decide), s.whenIdle_of_idle _ hb]
  rfl

/-- The write of CTRL that ends a pseudo-instruction sets IRQ_EN and starts the command
(40_common.md R150). -/
theorem hostAccess_write_start {s : State} (hb : s.busy = false) (ien : Bool) :
    hostAccess (.write 0x008 4 (startWord ien)) s =
      .next { s with
        irqEn := ien, busy := true, done := false, err := false, errcode := 0,
        port := some ⟨.okay, none⟩ } := by
  have hpage : s.pageWrite (0x008 : Offset).toNat (startWord ien) = s.writeCtrl (startWord ien) := rfl
  have hien : (startWord ien).getLsbD 2 = ien := by cases ien <;> rfl
  rw [hostAccess_write_page _ (by decide) (by decide), hpage,
    State.writeCtrl_start hb (by cases ien <;> rfl) (by cases ien <;> rfl), hien]
  rfl

/-- The write of one argument register (30_encoding.md R135). -/
def argWrite (kv : Nat × Word) : Access := .write (BitVec.ofNat 25 (0x014 + 4 * kv.1)) 4 kv.2

theorem hostAll_argWrites {l : List (Nat × Word)} (hl : ∀ kv ∈ l, kv.1 < 5) {s : State}
    (hb : s.busy = false) :
    ∃ port, hostAll (l.map argWrite) s = .next (s.latching (setArgs s.command l) port) := by
  induction l generalizing s with
  | nil => exact ⟨s.port, rfl⟩
  | cons kv rest ih =>
    obtain ⟨hkv, hrest⟩ := List.forall_mem_cons.1 hl
    rw [List.map_cons, argWrite, hostAll_cons (hostAccess_write_arg hb kv.2 hkv)]
    exact ih hrest (s := s.latching _ _) hb

/-- The accesses of a command pseudo-instruction without its wait: the ARGs, CMD, CTRL. -/
theorem expandCommand_accesses (ien : Bool) (i : Instr) :
    (expandCommand ien i true).filterMap AsmItem.access? =
      (usedArgs i).map argWrite ++
        [.write 0x010 4 i.cmdWord, .write 0x008 4 (startWord ien)] := by
  simp [expandCommand, AsmItem.access?, argWrite, List.filterMap_append, List.filterMap_map,
    Function.comp_def]

/-- Settles O6: the writes leave the command's words latched, and the last of them starts it. -/
theorem hostSequenceLatchesTheCommand : Obligations.HostSequenceLatchesTheCommand := by
  unfold Obligations.HostSequenceLatchesTheCommand
  intro i ien s hb
  obtain ⟨port, hargs⟩ := hostAll_argWrites (usedArgs_lt i) hb
  rw [expandCommand_accesses, hostAll_append hargs,
    hostAll_cons (hostAccess_write_cmd (s := s.latching _ _) hb _),
    hostAll_cons (hostAccess_write_start (s := (s.latching _ _).latching _ _) hb ien)]
  refine ⟨_, rfl, decode_eq_ok_iff.2 ⟨rfl, ?operands⟩,
    rfl, rfl, rfl, rfl, rfl, rfl, rfl, rfl, rfl, rfl, rfl, rfl, ?unused⟩
  case operands => exact setArgs_args_of_mem (usedArgs_lt i) (usedArgs_distinct i) s.command
  case unused => exact fun k _ hk => setArgs_args_of_not_mem (usedArgs_lt i) s.command hk

end Sys2Proof.Machine
end

section
/-! PROOFS. How a command ends: completion with success, completion with an error, and the fault of a
word without a value (40_common.md R152-R157, R160; 60_exceptions.md R321, R325, R330). -/

namespace Sys2Proof.Machine

/-! ## Completions -/

/-- The two forms of a completion: a check failed and the command only reports it, or it passed its
checks and stored words, replaced `rs`, took free values and reported two results. -/
theorem exec_next_cases {i : Instr} {s t : State} (h : exec i s = .next t) :
    (∃ e, checkOf i s = some e ∧ t = s.completeError e) ∨
    (∃ base vs rs n r0 r1, t = (((s.store base vs).setRs rs).draw n).complete r0 r1) := by
  obtain ⟨e, hc, hx⟩ | ⟨-, w, hx⟩ | ⟨-, base, vs, rs, n, r0, r1, hx⟩ := exec_cases i s
  · injection h.symm.trans hx with ht
    exact .inl ⟨e, hc, ht⟩
  · cases h.symm.trans hx
  · injection h.symm.trans hx with ht
    exact .inr ⟨base, vs, rs, n, r0, r1, ht⟩

/-- `failed` is the error completion, its code spelt out. -/
theorem State.completeError_eq_failed (s : State) (e : ErrCode) :
    s.completeError e = s.failed e.code := rfl

theorem State.irq_of_done {s : State} (h : s.done = true) : s.irq = s.irqEn := by
  rw [State.irq, h, Bool.and_true]

theorem State.keepsHostRegisters_completeError (s : State) (e : ErrCode) :
    s.KeepsHostRegisters (s.completeError e) :=
  ⟨rfl, rfl, rfl, rfl, rfl, rfl, rfl, rfl, rfl, rfl⟩

theorem State.keepsHostRegisters_complete (s : State) (base : Nat) (vs : List Word) (rs : Resampler)
    (n : Nat) (r0 r1 : Word) :
    s.KeepsHostRegisters ((((s.store base vs).setRs rs).draw n).complete r0 r1) :=
  ⟨rfl, rfl, rfl, rfl, rfl, rfl, rfl, rfl, rfl, rfl⟩

/-- Settles O8: both forms of a completion set DONE and keep what the host wrote. -/
theorem everyCompletionSignals : Obligations.EveryCompletionSignals := by
  unfold Obligations.EveryCompletionSignals
  intro i s t h
  obtain ⟨e, -, rfl⟩ | ⟨base, vs, rs, n, r0, r1, rfl⟩ := exec_next_cases h
  · exact ⟨rfl, rfl, State.irq_of_done rfl, s.keepsHostRegisters_completeError e⟩
  · exact ⟨rfl, rfl, State.irq_of_done rfl, s.keepsHostRegisters_complete base vs rs n r0 r1⟩

/-- Settles O9: a success keeps ERR = 0, so the completion is that of a failed check. -/
theorem failureHasNoOtherEffect : Obligations.FailureHasNoOtherEffect := by
  unfold Obligations.FailureHasNoOtherEffect
  intro i s t hs h ht
  obtain ⟨e, hc, rfl⟩ | ⟨base, vs, rs, n, r0, r1, rfl⟩ := exec_next_cases h
  · exact ⟨s.completeError_eq_failed e, checkOf_code hc⟩
  · cases hs.symm.trans ht

/-- Settles O11: NOP is the completion and nothing else. -/
theorem nopOnlyCompletes : Obligations.NopOnlyCompletes := by
  unfold Obligations.NopOnlyCompletes
  intro s
  have hkeeps : s.KeepsHostRegisters (s.complete 0 0) :=
    s.keepsHostRegisters_complete 0 [] s.rs 0 0 0
  exact ⟨s.complete 0 0, rfl, ⟨rfl, rfl, rfl, rfl, rfl, rfl, hkeeps⟩, rfl, rfl, rfl⟩

/-! ## The Engine's turn while BUSY = 1 -/

theorem engineTurn_of_decode_ok {s : State} {i : Instr} (hb : s.busy = true)
    (hd : decode s.command = .ok i) : engineTurn s = exec i s := by
  rw [engineTurn, if_pos hb, runCommand, hd]

theorem engineTurn_of_decode_error {s : State} {e : Illegal} (hb : s.busy = true)
    (hd : decode s.command = .error e) : engineTurn s = .next (s.failed 1) := by
  rw [engineTurn, if_pos hb, runCommand, hd]
  rfl

/-- Settles O4: either schedule gives the Engine its turn, with the same latched words. -/
theorem stepRunsDecodedCommand : Obligations.StepRunsDecodedCommand := by
  unfold Obligations.StepRunsDecodedCommand
  intro s rest hb
  refine ⟨fun i hd => ⟨fun hin => ?okNil, fun hin => ?okEngine⟩,
    fun e hd => ⟨fun hin => ?errorNil, fun hin => ?errorEngine⟩⟩
  case okNil => exact (step_of_schedule_nil hin).trans (engineTurn_of_decode_ok hb hd)
  case okEngine => exact (step_of_schedule_cons hin).trans (engineTurn_of_decode_ok hb hd)
  case errorNil => exact (step_of_schedule_nil hin).trans (engineTurn_of_decode_error hb hd)
  case errorEngine => exact (step_of_schedule_cons hin).trans (engineTurn_of_decode_error hb hd)

/-! ## Words without a value -/

theorem Memory.readWords_error_missing {m : Memory} {base n w : Nat}
    (h : m.readWords base n = .error w) : m.readWord w = none :=
  (Memory.firstMissing_some ((m.readWords_error_iff base n w).1 h)).2

theorem Memory.readPairs_error_missing {m : Memory} {a b n w : Nat}
    (h : m.readPairs a b n = .error w) : m.readWord w = none :=
  (Memory.firstMissing_some ((m.readPairs_error_iff a b n w).1 h)).2

theorem pullLoop_error_missing {m : Memory} {k w : Nat} {rs : Resampler}
    (h : pullLoop m k rs = .error w) : m.readWord w = none := by
  induction k generalizing rs with
  | zero => cases h
  | succ k ih =>
    simp only [pullLoop] at h
    split at h
    · split at h <;> cases h
    · split at h
      next hp =>
        cases h
        exact Memory.readWords_error_missing (pull_error hp)
      next => exact ih h

theorem rsStep_error_missing {m : Memory} {taps d w : Nat} {rs : Resampler}
    (h : rsStep m taps d rs = .error w) : m.readWord w = none := by
  simp only [rsStep] at h
  split at h
  · cases h
  · split at h
    next hl =>
      cases h
      exact pullLoop_error_missing hl
    all_goals cases h

theorem rsRunLoop_error_missing {m : Memory} {taps k d w : Nat} {rs : Resampler}
    (h : rsRunLoop m taps k d rs = .error w) : m.readWord w = none := by
  induction k generalizing d rs with
  | zero => cases h
  | succ k ih =>
    simp only [rsRunLoop] at h
    split at h
    case h_1 hs =>
      cases h
      exact rsStep_error_missing hs
    case h_4 =>
      split at h
      next hr =>
        cases h
        exact ih hr
      next => cases h
    all_goals cases h

/-- A command that passed its checks faults only where a read of its operands, or a pull of its run,
stopped (60_exceptions.md R325). -/
theorem exec_uninit_missing {i : Instr} {s : State} {w : Nat} (hc : checkOf i s = none)
    (h : exec i s = .fault (.uninit w)) : s.mem.readWord w = none := by
  cases i with
  | nop => cases h
  | fdes | rscfg | rsfeed =>
    simp only [checkOf] at hc
    simp only [exec, execFdes, execRscfg, execRsfeed, hc] at h
    cases h
  | power src n | ngen dst src n snr =>
    simp only [checkOf] at hc
    simp only [exec, execPower, execNgen, hc] at h
    split at h
    next hw =>
      cases h
      exact Memory.readWords_error_missing hw
    next => cases h
  | vadd dst a n b =>
    simp only [checkOf] at hc
    simp only [exec, execVadd, hc] at h
    split at h
    next hw =>
      cases h
      exact Memory.readPairs_error_missing hw
    next => cases h
  | conv dst sig n ker m =>
    simp only [checkOf] at hc
    simp only [exec, execConv, hc] at h
    split at h
    next hw =>
      cases h
      exact Memory.readWords_error_missing hw
    next =>
      split at h
      next hw =>
        cases h
        exact Memory.readWords_error_missing hw
      next => cases h
  | rsrun dst max =>
    simp only [checkOf] at hc
    simp only [exec, execRsrun, hc] at h
    split at h
    next hw =>
      cases h
      exact rsRunLoop_error_missing hw
    next => cases h

/-- Settles O10: no outcome is a refusal, and a fault passed the checks. -/
theorem faultsAreUninitialisedReads : Obligations.FaultsAreUninitialisedReads := by
  unfold Obligations.FaultsAreUninitialisedReads
  intro i s
  obtain ⟨e, -, hx⟩ | ⟨hc, w, hx⟩ | ⟨-, base, vs, rs, n, r0, r1, hx⟩ := exec_cases i s
  · simp [hx]
  · refine ⟨by simp [hx], fun f hf => ?_⟩
    obtain rfl : .uninit w = f := by injection hx.symm.trans hf
    exact ⟨hc, w, rfl, exec_uninit_missing hc hx⟩
  · simp [hx]

end Sys2Proof.Machine
end

section
/-! PROOFS. The host beside a running command: the start request of a CTRL write, and what an access can
change while BUSY = 1 (10_state.md R45, R46; 40_common.md R150, R151; 20_memory.md R109). -/

namespace Sys2Proof.Machine

/-! ## CTRL -/

/-- A CTRL write without SOFT_RESET: IRQ_EN, then the start if it is requested and BUSY = 0. -/
theorem State.writeCtrl_of_no_reset {s : State} {v : Word} (hreset : v.getLsbD 1 = false) :
    s.writeCtrl v =
      if v.getLsbD 0 = true ∧ s.busy = false then
        { s with irqEn := v.getLsbD 2, busy := true, done := false, err := false, errcode := 0 }
      else { s with irqEn := v.getLsbD 2 } := by
  split
  next h => exact State.writeCtrl_start h.2 hreset h.1
  next h =>
    simp only [State.writeCtrl, hreset, Bool.false_eq_true, if_false]
    split
    next hstart =>
      have hb : s.busy = true := by simpa [hstart] using h
      exact State.start_of_busy _ hb
    next => rfl

/-- Settles O49: the access is the write of CTRL, answered OKAY. -/
theorem controlWrites : Obligations.ControlWrites := by
  unfold Obligations.ControlWrites
  intro s v hreset
  have hpage : s.pageWrite (0x008 : Offset).toNat v = s.writeCtrl v := rfl
  rw [hostAccess_write_page v (by decide) (by decide), hpage, State.writeCtrl_of_no_reset hreset]
  split <;> rfl

/-! ## Accesses while BUSY = 1 -/

/-- While BUSY = 1 a register write is a soft reset or touches IRQ_EN, DONE, ERR and ERRCODE alone, and
sets no DONE. -/
theorem State.writeReg_of_busy {s : State} (hb : s.busy = true) (r : Reg) (v : Word) :
    s.writeReg r v = s.softReset ∨
    ∃ ien d e c, s.writeReg r v =
      { s with irqEn := ien, done := s.done && d, err := e, errcode := c } := by
  obtain hw | hw | hw | hw | hw | ⟨hidle, -⟩ := s.writeReg_cases r v
  · exact .inr ⟨s.irqEn, true, s.err, s.errcode, by rw [hw, Bool.and_true]⟩
  · exact .inl hw
  · exact .inr ⟨v.getLsbD 2, true, s.err, s.errcode, by rw [hw, Bool.and_true]⟩
  · exact .inr ⟨v.getLsbD 2, true, s.err, s.errcode, by
      rw [hw, Bool.and_true]
      exact State.start_of_busy _ hb⟩
  · exact .inr ⟨s.irqEn, _, _, _, hw.trans (s.writeStatus_eq v)⟩
  · cases hb.symm.trans hidle

/-- Settles O52: of what an access does while BUSY = 1, only a soft reset reaches the command, and it
clears BUSY. -/
theorem runningCommandIsUndisturbed : Obligations.RunningCommandIsUndisturbed := by
  unfold Obligations.RunningCommandIsUndisturbed
  intro a s t hb h ht
  obtain ⟨-, w, -, hf⟩ | ⟨u, resp, rdata, hu, hcase⟩ := hostAccess_cases a s
  · cases hf.symm.trans h
  · injection hu.symm.trans h with hu
    subst hu
    obtain rfl | rfl | ⟨r, v, rfl⟩ | ⟨hidle, -⟩ := hcase
    · exact ⟨rfl, rfl, rfl, rfl, rfl, (Bool.and_self _).symm, rfl⟩
    · exact ⟨rfl, rfl, rfl, rfl, rfl, (Bool.and_self _).symm, rfl⟩
    · obtain hw | ⟨ien, d, e, c, hw⟩ := State.writeReg_of_busy hb r v
      · rw [hw] at ht
        cases ht
      · rw [hw]
        exact ⟨rfl, rfl, rfl, rfl, rfl, by simp, rfl⟩
    · cases hb.symm.trans hidle

end Sys2Proof.Machine
end

section
/-! PROOFS. FDES: its checks in their order, the taps it writes, and the ideal taps over the reals
(41_filter_designer.md R180-R188; 60_exceptions.md R322). -/

namespace Sys2Proof.Machine

/-! ## A completion that stored words -/

/-- Every success that stores words, replaces `rs` and takes free values is a completion in the sense of
40_common.md R152. -/
theorem State.succeedsTo_complete (s : State) (base : Nat) (vs : List Word) (rs : Resampler) (n : Nat)
    (r0 r1 : Word) : s.SucceedsTo ((((s.store base vs).setRs rs).draw n).complete r0 r1) r0 r1 :=
  ⟨rfl, rfl, rfl, rfl, rfl, rfl, s.keepsHostRegisters_complete base vs rs n r0 r1⟩

/-- A store reaches no byte outside the words it writes (00_scope.md R10). -/
theorem State.sameOutside_storeWords (s : State) (base : Nat) {vs : List Word} {n : Nat}
    (h : vs.length = n) : s.sameOutside (s.store base vs) base n :=
  fun _ hk => s.mem.readByte_writeWords_outside vs (h ▸ hk)

/-! ## FDES's checks -/

section
variable {dst len low high rate : Word} {s : State}

theorem checkFdes_of_even (h : len.toNat % 2 = 0) : checkFdes dst len rate s = some .param := by
  rw [checkFdes, beq_iff_eq.2 h, firstError_cons_true]

theorem checkFdes_of_rate_zero (hlen : len.toNat % 2 = 1) (h : rate.toNat = 0) :
    checkFdes dst len rate s = some .param := by
  have hodd : (len.toNat % 2 == 0) = false := by simp [hlen]
  rw [checkFdes, hodd, firstError_cons_false, beq_iff_eq.2 h, firstError_cons_true]

/-- Past the first two checks only the destination range is left. -/
theorem checkFdes_of_params (hlen : len.toNat % 2 = 1) (hrate : rate.toNat ≠ 0) :
    checkFdes dst len rate s =
      firstError [(!inRange s.params dst.toNat len.toNat, .range)] := by
  have hodd : (len.toNat % 2 == 0) = false := by simp [hlen]
  rw [checkFdes, hodd, firstError_cons_false, beq_eq_false_iff_ne.2 hrate, firstError_cons_false]

theorem checkFdes_of_not_inRange (hlen : len.toNat % 2 = 1) (hrate : rate.toNat ≠ 0)
    (h : ¬ s.InRange dst.toNat len.toNat) : checkFdes dst len rate s = some .range := by
  rw [checkFdes_of_params hlen hrate, (inRange_eq_false_iff _ _ _).2 h]
  rfl

theorem checkFdes_of_inRange (hlen : len.toNat % 2 = 1) (hrate : rate.toNat ≠ 0)
    (h : s.InRange dst.toNat len.toNat) : checkFdes dst len rate s = none := by
  rw [checkFdes_of_params hlen hrate, (inRange_iff _ _ _).2 h]
  rfl

theorem exec_fdes_of_error {e : ErrCode} (h : checkFdes dst len rate s = some e) :
    exec (.fdes dst len low high rate) s = .next (s.failed e.code) := by
  rw [exec, execFdes, h]
  rfl

theorem exec_fdes_of_ok (h : checkFdes dst len rate s = none) :
    exec (.fdes dst len low high rate) s = .next
      ((s.store dst.toNat (fdesTaps len.toNat low.toNat high.toNat rate.toNat)).complete len 0) := by
  rw [exec, execFdes, h]

end

/-- Settles O13: the three checks, one after the other; none reads a cutoff. -/
theorem fdesErrorsInOrder : Obligations.FdesErrorsInOrder := by
  unfold Obligations.FdesErrorsInOrder
  intro dst len low high rate s
  exact ⟨fun heven => exec_fdes_of_error (checkFdes_of_even heven),
    fun hodd hrate => exec_fdes_of_error (checkFdes_of_rate_zero hodd hrate),
    fun hodd hrate hout => exec_fdes_of_error (checkFdes_of_not_inRange hodd hrate hout)⟩

/-! ## The taps in memory -/

@[simp] theorem fdesTaps_length (len low high rate : Nat) :
    (fdesTaps len low high rate).length = len := by
  simp [fdesTaps]

theorem fdesCentreValue_eq (low high rate : Nat) :
    fdesCentreValue low high rate = 2 * ((high : ℚ) - (low : ℚ)) / (rate : ℚ) := by
  rw [fdesCentreValue, Rat.mkRat_eq_div]
  push_cast
  rfl

theorem fdesTap_eq (len low high rate i : Nat) :
    fdesTap len low high rate i =
      if i = (len - 1) / 2 then rne32 (2 * ((high : ℚ) - (low : ℚ)) / (rate : ℚ))
      else Config.fdTap len i low high rate := by
  rw [fdesTap, fdesCentre, fdesCentreValue_eq]

/-- Word `i` of the destination holds tap `i` (41_filter_designer.md R180). -/
theorem State.readWord_store_fdesTaps (s : State) (dst len low high rate : Nat) {i : Nat}
    (h : i < len) :
    (s.store dst (fdesTaps len low high rate)).mem.readWord (dst + i) =
      some (fdesTap len low high rate i) := by
  have hi : i < (fdesTaps len low high rate).length := by rwa [fdesTaps_length]
  have hget : (fdesTaps len low high rate)[i] = fdesTap len low high rate i := by simp [fdesTaps]
  exact hget ▸ s.mem.readWord_writeWords_inside dst _ hi

/-- Settles O12: past its checks FDES is the store of its taps and the completion. -/
theorem fdesWritesDesignedTaps : Obligations.FdesWritesDesignedTaps := by
  unfold Obligations.FdesWritesDesignedTaps
  intro dst len low high rate s hodd hrate hin
  refine ⟨_, exec_fdes_of_ok (checkFdes_of_inRange hodd hrate hin),
    s.succeedsTo_complete dst.toNat _ s.rs 0 len 0, rfl, rfl,
    s.sameOutside_storeWords dst.toNat (fdesTaps_length _ _ _ _), fun i hi => ?tap⟩
  case tap =>
    rw [← fdesTap_eq]
    exact s.readWord_store_fdesTaps _ _ _ _ _ hi

/-! ## The ideal taps -/

section
open Real

theorem hamming_one (i : ℕ) : hamming 1 i = 1 := if_pos rfl

theorem idealBase_zero (low high rate : ℕ) :
    idealBase low high rate 0 = 2 * ((high : ℝ) - low) / rate := if_pos rfl

/-- The base is even: sine and denominator both change their sign (41_filter_designer.md R182). -/
theorem idealBase_neg (low high rate : ℕ) (n : ℤ) :
    idealBase low high rate (-n) = idealBase low high rate n := by
  unfold idealBase
  by_cases hn : n = 0
  · simp [hn]
  · rw [if_neg (neg_ne_zero.2 hn), if_neg hn]
    simp only [Int.cast_neg, mul_neg, neg_div, sin_neg]
    ring

/-- An odd length is `2c + 1` with its centre `c` (41_filter_designer.md R181). -/
theorem eq_two_mul_fdesCentre_add_one {len : ℕ} (h : len % 2 = 1) : len = 2 * fdesCentre len + 1 := by
  unfold fdesCentre
  omega

/-- The window of a length other than 1, by the number of steps between its ends. -/
theorem hamming_succ {m : ℕ} (hm : m ≠ 0) (i : ℕ) :
    hamming (m + 1) i = 54 / 100 - 46 / 100 * cos (2 * π * i / m) := by
  rw [hamming, if_neg (by omega)]
  push_cast
  rw [add_sub_cancel_right]

/-- Half way between the ends of the window the cosine is -1. -/
theorem hamming_fdesCentre {len : ℕ} (h : len % 2 = 1) : hamming len (fdesCentre len) = 1 := by
  have hlen := eq_two_mul_fdesCentre_add_one h
  generalize fdesCentre len = c at hlen ⊢
  subst hlen
  rcases Nat.eq_zero_or_pos c with rfl | hc
  · exact hamming_one 0
  · have hc' : (c : ℝ) ≠ 0 := Nat.cast_ne_zero.2 hc.ne'
    have hangle : 2 * π * c / ((2 * c : ℕ) : ℝ) = π := by
      push_cast
      field_simp
    rw [hamming_succ (by omega), hangle, cos_pi]
    norm_num

/-- Reflecting the index turns the window's angle `x` into `2π - x`. -/
theorem hamming_reflect {len i : ℕ} (hi : i < len) : hamming len (len - 1 - i) = hamming len i := by
  obtain ⟨m, rfl⟩ : ∃ m, len = m + 1 := Nat.exists_eq_add_of_le' (Nat.one_le_of_lt hi)
  rw [Nat.add_sub_cancel]
  by_cases hm : m = 0
  · rw [hm, hamming_one, hamming_one]
  · have hm' : (m : ℝ) ≠ 0 := Nat.cast_ne_zero.2 hm
    have hangle : 2 * π * ((m - i : ℕ) : ℝ) / m = 2 * π - 2 * π * i / m := by
      rw [Nat.cast_sub (Nat.le_of_lt_succ hi)]
      field_simp
    rw [hamming_succ hm, hamming_succ hm, hangle, cos_two_pi_sub]

/-- Settles O14: at the centre the base is its case 0 and the window is 1. -/
theorem idealCentreTap : Obligations.IdealCentreTap := by
  unfold Obligations.IdealCentreTap
  intro len low high rate hodd
  have hwindow : hamming len ((len - 1) / 2) = 1 := hamming_fdesCentre hodd
  refine ⟨hwindow, ?_⟩
  rw [idealTap, hwindow, mul_one, fdesCentre, sub_self, idealBase_zero]

/-- Settles O15: the reflected index lies as far on the other side of the centre, where the base and the
window are the same. -/
theorem idealTapsSymmetric : Obligations.IdealTapsSymmetric := by
  unfold Obligations.IdealTapsSymmetric
  intro len low high rate i hodd hi
  have hoffset : ((len - 1 - i : ℕ) : ℤ) - fdesCentre len = -((i : ℤ) - fdesCentre len) := by
    have := eq_two_mul_fdesCentre_add_one hodd
    omega
  rw [idealTap, idealTap, hoffset, idealBase_neg, hamming_reflect hi]

end

end Sys2Proof.Machine
end

section
/-! PROOFS. CONV: its lengths, its checks in their order, the words it writes, and its padded transform
product over the reals (42_convolution.md R200-R214; 60_exceptions.md R322). -/

namespace Sys2Proof.Machine

/-! ## Lengths -/

/-- `next_pow2` is Mathlib's ceiling logarithm, raised (42_convolution.md R202). -/
theorem nextPow2_eq_two_pow_clog (n : Nat) : nextPow2 n = 2 ^ Nat.clog 2 n := by
  unfold nextPow2
  split
  case isTrue h => rw [Nat.clog_of_right_le_one h, pow_zero]
  case isFalse h =>
    have hlog : (n - 1).log2 + 1 = Nat.clog 2 n := eq_of_forall_ge_iff fun j => by
      rw [Nat.succ_le_iff, Nat.log2_lt (by omega), Nat.clog_le_iff_le_pow one_lt_two]
      omega
    rw [hlog]

theorem convFftLen_eq {len : Nat} (h : 1 ≤ len) : convFftLen len = 2 ^ Nat.clog 2 len := by
  rw [convFftLen, if_neg (Nat.one_le_iff_ne_zero.1 h), nextPow2_eq_two_pow_clog]

theorem le_convFftLen (len : Nat) : len ≤ convFftLen len := by
  rcases Nat.eq_zero_or_pos len with rfl | h
  · exact Nat.zero_le _
  · exact convFftLen_eq h ▸ Nat.le_pow_clog one_lt_two len

/-- Settles O19: the exponent is the ceiling logarithm, which is the least that reaches the length. -/
theorem transformLengthIsNextPowerOfTwo : Obligations.TransformLengthIsNextPowerOfTwo := by
  unfold Obligations.TransformLengthIsNextPowerOfTwo
  refine ⟨fun n m => convOutLen_eq, convOutLen_zero, rfl, fun len hlen => ?smallest⟩
  case smallest =>
    exact ⟨Nat.clog 2 len, convFftLen_eq hlen, Nat.le_pow_clog one_lt_two len,
      fun j hj => Nat.pow_le_pow_right two_pos (Nat.clog_le_of_le_pow hj)⟩

/-! ## CONV's checks -/

section
variable {dst sig n ker m : Word} {s : State}

theorem checkConv_of_signal (hsig : ¬ s.InRange sig.toNat n.toNat) :
    checkConv dst sig n ker m s = some .range := by
  rw [checkConv, (inRange_eq_false_iff _ _ _).2 hsig, Bool.not_false, firstError_cons_true]

theorem checkConv_of_kernel (hsig : s.InRange sig.toNat n.toNat)
    (hker : ¬ s.InRange ker.toNat m.toNat) : checkConv dst sig n ker m s = some .range := by
  rw [checkConv, (inRange_iff _ _ _).2 hsig, Bool.not_true, firstError_cons_false,
    (inRange_eq_false_iff _ _ _).2 hker, Bool.not_false, firstError_cons_true]

/-- Past the ranges of both inputs only the destination and the transform length are left. -/
theorem checkConv_of_inputs (hsig : s.InRange sig.toNat n.toNat)
    (hker : s.InRange ker.toNat m.toNat) :
    checkConv dst sig n ker m s = firstError
      [(!inRange s.params dst.toNat (convOutLen n.toNat m.toNat), .range),
       (decide (s.params.fftMax < convFftLen (convOutLen n.toNat m.toNat)), .length)] := by
  rw [checkConv, (inRange_iff _ _ _).2 hsig, Bool.not_true, firstError_cons_false,
    (inRange_iff _ _ _).2 hker, Bool.not_true, firstError_cons_false]

theorem checkConv_of_destination (hsig : s.InRange sig.toNat n.toNat)
    (hker : s.InRange ker.toNat m.toNat)
    (hdst : ¬ s.InRange dst.toNat (convOutLen n.toNat m.toNat)) :
    checkConv dst sig n ker m s = some .range := by
  rw [checkConv_of_inputs hsig hker, (inRange_eq_false_iff _ _ _).2 hdst, Bool.not_false,
    firstError_cons_true]

/-- Past the three ranges only the transform length is left (42_convolution.md R203). -/
theorem checkConv_of_ranges (hsig : s.InRange sig.toNat n.toNat)
    (hker : s.InRange ker.toNat m.toNat) (hdst : s.InRange dst.toNat (convOutLen n.toNat m.toNat)) :
    checkConv dst sig n ker m s =
      if s.params.fftMax < convFftLen (convOutLen n.toNat m.toNat) then some .length else none := by
  rw [checkConv_of_inputs hsig hker, (inRange_iff _ _ _).2 hdst, Bool.not_true,
    firstError_cons_false]
  simp [firstError]

theorem exec_conv_of_error {e : ErrCode} (h : checkConv dst sig n ker m s = some e) :
    exec (.conv dst sig n ker m) s = .next (s.failed e.code) :=
  exec_of_check_some (i := .conv dst sig n ker m) h

/-- CONV past its checks, both operands holding values: the store of the output words, the draws they
take, and the two lengths as results (42_convolution.md R200). -/
theorem exec_conv_of_ok {xs hs : List Word} (hc : checkConv dst sig n ker m s = none)
    (hxs : xs.length = n.toNat) (hhs : hs.length = m.toNat) (hsig : s.mem.holds sig.toNat xs)
    (hker : s.mem.holds ker.toNat hs) :
    exec (.conv dst sig n ker m) s = .next
      (((s.store dst.toNat (convWords xs hs s.draws (convOutLen n.toNat m.toNat))).draw
        (convDraws xs hs (convOutLen n.toNat m.toNat))).complete
          (natWord (convOutLen n.toNat m.toNat))
          (natWord (convFftLen (convOutLen n.toNat m.toNat)))) := by
  have hreadSig : s.mem.readWords sig.toNat n.toNat = .ok xs :=
    hxs ▸ Memory.readWords_of_holds hsig
  have hreadKer : s.mem.readWords ker.toNat m.toNat = .ok hs :=
    hhs ▸ Memory.readWords_of_holds hker
  simp only [exec, execConv, hc, hreadSig, hreadKer]

end

/-- Settles O18: each premise decides the check it is about and lets the earlier ones pass. -/
theorem convErrorsInOrder : Obligations.ConvErrorsInOrder := by
  unfold Obligations.ConvErrorsInOrder
  intro dst sig n ker m s
  exact ⟨fun hsig => exec_conv_of_error (checkConv_of_signal hsig),
    fun hsig hker => exec_conv_of_error (checkConv_of_kernel hsig hker),
    fun hsig hker hdst => exec_conv_of_error (checkConv_of_destination hsig hker hdst),
    fun hsig hker hdst hlong =>
      exec_conv_of_error ((checkConv_of_ranges hsig hker hdst).trans (if_pos hlong))⟩

/-! ## The output words -/

@[simp] theorem convWords_length (xs hs : List Word) (d outLen : Nat) :
    (convWords xs hs d outLen).length = outLen := by
  simp [convWords]

/-- Finite operands of which one is all zeros give zeros of free sign (42_convolution.md R211). -/
theorem convWord_of_zero {xs hs : List Word} (hx : xs.all isFinite32 = true)
    (hh : hs.all isFinite32 = true) (hz : xs.all isZero32 = true ∨ hs.all isZero32 = true)
    (d k : Nat) : convWord xs hs d k = signedZero (Config.anySign (d + k)) := by
  have hor : (xs.all isZero32 || hs.all isZero32) = true := Bool.or_eq_true_iff.2 hz
  simp only [convWord, hx, hh, hor, Bool.and_self, Bool.not_true, Bool.false_eq_true, if_false,
    if_true]

/-- Finite operands, neither all zeros, give the realisation's words (42_convolution.md R210). -/
theorem convWord_of_ordinary {xs hs : List Word} (hx : xs.all isFinite32 = true)
    (hh : hs.all isFinite32 = true) (hxz : xs.all isZero32 = false) (hhz : hs.all isZero32 = false)
    (d k : Nat) : convWord xs hs d k = Config.conv xs hs k := by
  simp only [convWord, hx, hh, hxz, hhz, Bool.and_self, Bool.or_self, Bool.not_true,
    Bool.false_eq_true, if_false]

theorem signedZero_cases (neg : Bool) :
    signedZero neg = 0x00000000 ∨ signedZero neg = 0x80000000 := by
  cases neg
  · exact .inl rfl
  · exact .inr rfl

/-- Word `k` of the destination holds output word `k` (42_convolution.md R208). -/
theorem State.readWord_store_convWords (s : State) (dst : Nat) (xs hs : List Word) (d : Nat)
    {outLen k : Nat} (h : k < outLen) :
    (s.store dst (convWords xs hs d outLen)).mem.readWord (dst + k) = some (convWord xs hs d k) := by
  have hk : k < (convWords xs hs d outLen).length := by rwa [convWords_length]
  have hget : (convWords xs hs d outLen)[k] = convWord xs hs d k := by simp [convWords]
  exact hget ▸ s.mem.readWord_writeWords_inside dst _ hk

/-- Settles O16: CONV past its checks is the store of its words, and both operands were read before it
(42_convolution.md R214). -/
theorem convWritesOutput : Obligations.ConvWritesOutput := by
  unfold Obligations.ConvWritesOutput
  intro dst sig n ker m s xs hs hxs hhs hsig hker hdst hlen hsigVal hkerVal
  have hc : checkConv dst sig n ker m s = none :=
    (checkConv_of_ranges hsig hker hdst).trans (if_neg (not_lt.2 hlen))
  have hword := fun k => s.readWord_store_convWords dst.toNat xs hs s.draws
    (outLen := convOutLen n.toNat m.toNat) (k := k)
  refine ⟨_, exec_conv_of_ok hc hxs hhs hsigVal hkerVal,
    s.succeedsTo_complete dst.toNat _ s.rs _ _ _, rfl,
    s.sameOutside_storeWords dst.toNat (convWords_length _ _ _ _),
    fun k hk => ⟨_, hword k hk⟩, fun hx hh hxz hhz k hk => ?ordinary⟩
  case ordinary => exact convWord_of_ordinary hx hh hxz hhz s.draws k ▸ hword k hk

/-- Settles O17: the words stored are zeros of either sign. -/
theorem convZeroOperandIsExact : Obligations.ConvZeroOperandIsExact := by
  unfold Obligations.ConvZeroOperandIsExact
  intro dst sig n ker m s xs hs hxs hhs hsigVal hkerVal hx hh hzero hc
  refine ⟨_, exec_conv_of_ok hc hxs hhs hsigVal hkerVal, fun k hk => ?zeros⟩
  case zeros =>
    have hword := s.readWord_store_convWords dst.toNat xs hs s.draws hk
    rw [convWord_of_zero hx hh hzero] at hword
    exact (signedZero_cases (Config.anySign (s.draws + k))).imp (hword.trans <| congrArg some ·)
      (hword.trans <| congrArg some ·)

/-! ## The transform over the reals

The transform of a padded sequence is the value of a polynomial at a root of unity, so the product of
two transforms is the transform of the product's coefficients; the inverse transform gives them back. -/

section
open Complex Finset

/-- The padded sequence as a polynomial, sample `n` the coefficient of `X ^ n`. -/
noncomputable def samplePoly (xs : List Word) : Polynomial ℝ :=
  ∑ n ∈ range xs.length, Polynomial.monomial n (padded xs n)

theorem padded_eq_zero {xs : List Word} {n : ℕ} (h : xs.length ≤ n) : padded xs n = 0 := by
  simp [padded, h]

theorem samplePoly_coeff (xs : List Word) (n : ℕ) : (samplePoly xs).coeff n = padded xs n := by
  simp only [samplePoly, Polynomial.finsetSum_coeff, Polynomial.coeff_monomial, sum_ite_eq',
    mem_range, ite_eq_left_iff, not_lt]
  exact fun h => (padded_eq_zero h).symm

theorem samplePoly_natDegree_lt {xs : List Word} (h : 1 ≤ xs.length) :
    (samplePoly xs).natDegree < xs.length := by
  have hdeg : (samplePoly xs).natDegree ≤ xs.length - 1 :=
    Polynomial.natDegree_le_iff_coeff_eq_zero.2 fun n hn => by
      rw [samplePoly_coeff, padded_eq_zero (by omega)]
  omega

/-- `e^(2πi/L)`, whose powers are the twiddle factors of 42_convolution.md R205 and R207. -/
noncomputable def twiddle (len : ℕ) : ℂ := exp (2 * Real.pi * I / len)

theorem twiddle_isPrimitiveRoot {len : ℕ} (h : len ≠ 0) : IsPrimitiveRoot (twiddle len) len :=
  isPrimitiveRoot_exp len h

theorem exp_eq_twiddle_pow (len n k : ℕ) :
    exp (2 * Real.pi * I * n * k / len) = (twiddle len ^ n) ^ k := by
  rw [twiddle, ← exp_nat_mul, ← exp_nat_mul]
  congr 1
  ring

theorem exp_neg_eq_twiddle_inv_pow (len n k : ℕ) :
    exp (-2 * Real.pi * I * n * k / len) = ((twiddle len ^ k)⁻¹) ^ n := by
  rw [inv_pow, ← exp_eq_twiddle_pow, ← exp_neg]
  congr 1
  ring

theorem inverseDft_eq (len : ℕ) (p : ℕ → ℂ) (n : ℕ) :
    inverseDft len p n = (1 / len) * ∑ k ∈ range len, p k * (twiddle len ^ n) ^ k := by
  simp only [inverseDft, exp_eq_twiddle_pow]

/-- A transform long enough for a polynomial evaluates it at a root of unity. -/
theorem dft_coeff {p : Polynomial ℝ} {len : ℕ} (h : p.natDegree < len) (k : ℕ) :
    dft len (fun n => (p.coeff n : ℂ)) k = Polynomial.aeval ((twiddle len ^ k)⁻¹) p := by
  rw [Polynomial.aeval_eq_sum_range' h]
  simp only [dft, exp_neg_eq_twiddle_inv_pow, real_smul]

/-- Two twiddle factors of different index are orthogonal. -/
theorem sum_twiddle_ratio {len n j : ℕ} (hn : n < len) (hj : j < len) :
    ∑ k ∈ range len, ((twiddle len ^ j)⁻¹ * twiddle len ^ n) ^ k = if j = n then (len : ℂ) else 0 := by
  have hroot := twiddle_isPrimitiveRoot (Nat.ne_zero_of_lt hn)
  have hne : twiddle len ^ j ≠ 0 := pow_ne_zero _ (hroot.ne_zero (Nat.ne_zero_of_lt hn))
  split
  case isTrue h => simp [← h, inv_mul_cancel₀ hne]
  case isFalse h =>
    set r := (twiddle len ^ j)⁻¹ * twiddle len ^ n
    have hr1 : r ≠ 1 := fun hr => h (hroot.pow_inj hj hn ((inv_mul_eq_one₀ hne).1 hr))
    have hrlen : r ^ len = 1 := by
      rw [mul_pow, inv_pow, pow_right_comm, pow_right_comm _ n, hroot.pow_eq_one, one_pow, one_pow,
        inv_one, one_mul]
    rw [geom_sum_eq hr1, hrlen, sub_self, zero_div]

/-- The inverse transform undoes the forward one inside the transform length. -/
theorem inverseDft_dft {len n : ℕ} (x : ℕ → ℂ) (hn : n < len) :
    inverseDft len (dft len x) n = x n := by
  have hlen : (len : ℂ) ≠ 0 := Nat.cast_ne_zero.2 (Nat.ne_zero_of_lt hn)
  calc inverseDft len (dft len x) n
      = (1 / len) * ∑ k ∈ range len, ∑ j ∈ range len,
          x j * ((twiddle len ^ j)⁻¹ * twiddle len ^ n) ^ k := by
        simp only [inverseDft_eq, dft, exp_neg_eq_twiddle_inv_pow, sum_mul, mul_pow, ← mul_assoc]
        simp only [inv_pow, pow_right_comm]
    _ = (1 / len) * ∑ j ∈ range len, x j * if j = n then (len : ℂ) else 0 := by
        rw [sum_comm]
        congr 1
        refine sum_congr rfl fun j hj => ?_
        rw [← mul_sum, sum_twiddle_ratio hn (mem_range.1 hj)]
    _ = x n := by
        simp only [mul_ite, mul_zero, sum_ite_eq', mem_range, if_pos hn]
        field_simp

/-- A transform long enough for the product of the operands gives the product's coefficients. -/
theorem fftProduct_eq_coeff {sig ker : List Word} {len k : ℕ} (hsig : 1 ≤ sig.length)
    (hker : 1 ≤ ker.length) (hlen : sig.length + ker.length - 1 ≤ len) (hk : k < len) :
    fftProduct len sig ker k = ((samplePoly sig * samplePoly ker).coeff k : ℝ) := by
  have hdegSig := samplePoly_natDegree_lt hsig
  have hdegKer := samplePoly_natDegree_lt hker
  have hdeg : (samplePoly sig * samplePoly ker).natDegree < len :=
    lt_of_le_of_lt Polynomial.natDegree_mul_le (by omega)
  have hproduct : (fun j => dft len (fun i => padded sig i) j * dft len (fun i => padded ker i) j) =
      dft len (fun i => ((samplePoly sig * samplePoly ker).coeff i : ℂ)) := by
    funext j
    rw [dft_coeff hdeg, map_mul, ← dft_coeff (by omega), ← dft_coeff (by omega)]
    simp only [samplePoly_coeff]
  rw [fftProduct, hproduct, inverseDft_dft _ hk]

/-- The product's coefficients are the direct convolution: outside the bounds of its sum one of the two
samples is padding (42_convolution.md R209). -/
theorem coeff_samplePoly_mul (sig ker : List Word) (hsig : 1 ≤ sig.length) (k : ℕ) :
    (samplePoly sig * samplePoly ker).coeff k = directConv sig ker k := by
  rw [Polynomial.coeff_mul, Nat.sum_antidiagonal_eq_sum_range_succ_mk, directConv]
  simp only [samplePoly_coeff]
  refine (sum_subset (fun j hj => ?inside) fun j hj hout => ?padding).symm
  case inside =>
    rw [mem_Icc] at hj
    exact mem_range.2 (by omega)
  case padding =>
    rw [mem_range] at hj
    rw [mem_Icc] at hout
    rcases Nat.lt_or_ge j sig.length with hlt | hge
    · rw [padded_eq_zero (xs := ker) (by omega), mul_zero]
    · rw [padded_eq_zero hge, zero_mul]

/-- Settles O20: CONV's transform length holds the whole product of the operands, whose coefficients are
real. -/
theorem fftConvolutionIsDirect : Obligations.FftConvolutionIsDirect := by
  unfold Obligations.FftConvolutionIsDirect
  intro sig ker k hsig hker hk
  have hfit : convOutLen sig.length ker.length ≤ fftLenOf sig ker := le_convFftLen _
  have hlen : sig.length + ker.length - 1 ≤ fftLenOf sig ker :=
    convOutLen_eq (n := sig.length) (by omega) ▸ hfit
  have hreal : fftProduct (fftLenOf sig ker) sig ker k = (directConv sig ker k : ℝ) := by
    rw [fftProduct_eq_coeff hsig hker hlen (hk.trans_le hfit), coeff_samplePoly_mul sig ker hsig]
  rw [idealConv, hreal]
  exact ⟨ofReal_re _, ofReal_im _⟩

end

end Sys2Proof.Machine
end

section
/-! PROOFS. The arithmetic under POWER: the classes of data, values that round to themselves, what
each operation answers for data of sign +, and binary32 data in binary64 (00_scope.md R13-R16). -/

namespace Sys2Proof.Machine

section
variable {f : FloatFormat} {a b : Nat}

/-! ## The classes of data -/

theorem FloatFormat.class_cases (f : FloatFormat) (n : Nat) :
    f.isNaN n = true ∨ f.isInf n = true ∨ f.isFinite n = true := by
  unfold FloatFormat.isNaN FloatFormat.isInf FloatFormat.isFinite
  by_cases he : f.expo n = f.expTop <;> by_cases hf : f.frac n = 0 <;> simp [he, hf]

theorem FloatFormat.expTop_eq (hf : 1 ≤ f.bias) : f.expTop = 2 * f.bias + 1 := by
  have hpos : 0 < 2 ^ f.fracBits := by positivity
  have hinf := FloatFormat.infBits_eq hf
  refine Nat.eq_of_mul_eq_mul_right hpos (hinf.trans ?_)
  rw [pow_succ, Nat.mul_comm (2 ^ f.fracBits), ← Nat.add_mul]
  congr 1
  omega

theorem FloatFormat.isFinite_of_isZero (hf : 1 ≤ f.bias) (h : f.isZero a = true) :
    f.isFinite a = true := by
  have he : f.expo a = 0 := by simpa using (Bool.and_eq_true_iff.1 h).1
  simp [FloatFormat.isFinite, he, FloatFormat.expTop_eq hf]

theorem isFinite32_of_isZero32 {w : Word} (h : isZero32 w = true) : isFinite32 w = true :=
  FloatFormat.isFinite_of_isZero binary32_bias_pos h

theorem FloatFormat.not_isZero_of_isInf (hf : 1 ≤ f.bias) (h : f.isInf a = true) :
    f.isZero a = false := by
  by_contra hz
  have hfin := FloatFormat.isFinite_of_isZero hf (Bool.eq_true_of_not_eq_false hz)
  exact absurd ((not_special_of_isFinite hfin).2.symm.trans h) Bool.false_ne_true

theorem FloatFormat.signif_lt (f : FloatFormat) (n : Nat) : f.signif n < 2 ^ (f.fracBits + 1) := by
  have hfrac : f.frac n < 2 ^ f.fracBits := Nat.mod_lt _ (by positivity)
  unfold FloatFormat.signif
  split <;> rw [pow_succ] <;> omega

theorem FloatFormat.val_eq (f : FloatFormat) (n : Nat) :
    f.val n = (if f.sign n then -1 else 1) *
      ((f.signif n * 2 ^ f.scaleExp n : ℕ) / 2 ^ (f.bias + f.fracBits)) := by
  rw [FloatFormat.val, Rat.mkRat_eq_div]
  cases f.sign n <;> simp only [Bool.false_eq_true, if_true, if_false] <;> push_cast <;> ring

theorem FloatFormat.abs_val (f : FloatFormat) (n : Nat) :
    |f.val n| = (f.signif n * 2 ^ f.scaleExp n : ℕ) / 2 ^ (f.bias + f.fracBits) := by
  have hsign : |(if f.sign n then -1 else 1 : ℚ)| = 1 := by split <;> simp
  rw [f.val_eq, abs_mul, hsign, one_mul, abs_of_nonneg (by positivity)]

theorem FloatFormat.val_nonneg (h : f.sign a = false) : 0 ≤ f.val a := by
  rw [f.val_eq, h, if_neg Bool.false_ne_true, one_mul]
  positivity

/-- The two zeros are the only data of value 0 (00_scope.md R13). -/
theorem FloatFormat.val_eq_zero_iff : f.val a = 0 ↔ f.isZero a = true := by
  refine ⟨fun h => ?_, FloatFormat.val_of_isZero⟩
  have hsig : f.signif a = 0 := by
    rw [← abs_eq_zero, f.abs_val, div_eq_zero_iff, Nat.cast_eq_zero] at h
    simpa using h
  unfold FloatFormat.signif at hsig
  split at hsig
  next he => simp [FloatFormat.isZero, he, hsig]
  next =>
    have hpos : 0 < 2 ^ f.fracBits := by positivity
    omega

theorem FloatFormat.sign_of_lt (h : a < f.signBit) : f.sign a = false :=
  (FloatFormat.fields_signBit_add h).2.2.2

/-! ## Values that round to themselves -/

theorem FloatFormat.rne_zero (f : FloatFormat) : f.rne 0 = 0 := by
  simp [FloatFormat.rne, FloatFormat.roundMag, FloatFormat.withSign]

theorem FloatFormat.sign_rne (hf : 1 ≤ f.bias) {r : ℚ} (hr : 0 ≤ r) : f.sign (f.rne r) = false := by
  obtain ⟨k, m, -, he⟩ := FloatFormat.rne_rounds hf r
  rw [he, decide_eq_false hr.not_gt]
  exact FloatFormat.sign_of_lt ((Nat.min_le_right _ _).trans_lt f.infBits_lt_signBit)

theorem FloatFormat.withSign_lt (neg : Bool) (h : a < f.signBit) :
    f.withSign neg a < 2 * f.signBit := by
  unfold FloatFormat.withSign
  split <;> omega

theorem FloatFormat.rne_lt (hf : 1 ≤ f.bias) (r : ℚ) : f.rne r < 2 * f.signBit := by
  obtain ⟨k, m, -, he⟩ := FloatFormat.rne_rounds hf r
  rw [he]
  exact FloatFormat.withSign_lt _ ((Nat.min_le_right _ _).trans_lt f.infBits_lt_signBit)

/-- A value of the format below the overflow threshold rounds to itself (00_scope.md R14). -/
theorem FloatFormat.rne_exact (hf : 1 ≤ f.bias) (hF : 1 ≤ f.fracBits) {r : ℚ}
    (hr : |r| < f.overflowAt) (hgrid : f.OnGrid r) :
    f.isFinite (f.rne r) = true ∧ f.val (f.rne r) = r := by
  obtain ⟨_, _, -, -, hfin, -⟩ := FloatFormat.rne_of_lt_overflow hf hr
  have hnear := (FloatFormat.rne_nearest hf hF hr hgrid).1
  rw [sub_self, abs_zero] at hnear
  exact ⟨hfin, sub_eq_zero.1 (abs_nonpos_iff.1 hnear)⟩

/-- A finite datum's biased exponent is at most `2 * bias` (00_scope.md R12). -/
theorem FloatFormat.abs_val_lt (hf : 1 ≤ f.bias) (h : f.isFinite a = true) :
    |f.val a| < 2 ^ (f.bias + 1) := by
  have hexpo : f.expo a < f.expTop := by
    have hlt : f.expo a < 2 ^ f.expBits := Nat.mod_lt _ (by positivity)
    have hne : f.expo a ≠ f.expTop := by simpa [FloatFormat.isFinite] using h
    have htop : f.expTop = 2 ^ f.expBits - 1 := rfl
    omega
  have hscale : f.scaleExp a ≤ 2 * f.bias := by
    rw [FloatFormat.expTop_eq hf] at hexpo
    unfold FloatFormat.scaleExp
    omega
  have hmag : f.signif a * 2 ^ f.scaleExp a < 2 ^ (f.bias + 1) * 2 ^ (f.bias + f.fracBits) :=
    calc f.signif a * 2 ^ f.scaleExp a
        < 2 ^ (f.fracBits + 1) * 2 ^ (2 * f.bias) :=
          Nat.mul_lt_mul_of_lt_of_le (f.signif_lt a) (Nat.pow_le_pow_right two_pos hscale)
            (by positivity)
      _ = 2 ^ (f.bias + 1) * 2 ^ (f.bias + f.fracBits) := by
          rw [← pow_add, ← pow_add]
          congr 1
          ring
  rw [f.abs_val, div_lt_iff₀ (by positivity)]
  exact_mod_cast hmag

theorem FloatFormat.two_pow_bias_le_overflowAt (hf : 1 ≤ f.bias) : 2 ^ f.bias ≤ f.overflowAt := by
  have hpow : (2 : ℚ) ^ f.bias = 2 ^ f.fracBits * f.unit (2 * f.bias - 1) := by
    rw [f.pow_mul_unit, ← zpow_natCast]
    congr 1
    omega
  have hF : (1 : ℚ) ≤ 2 ^ f.fracBits := one_le_pow₀ one_le_two
  rw [hpow, FloatFormat.overflowAt, pow_succ]
  exact mul_le_mul_of_nonneg_right (by linarith) (f.unit_pos _).le

/-! ## Operations on data of sign + -/

theorem FloatFormat.mul_self_of_isNaN (h : f.isNaN a = true) : f.mul a a = f.canonicalNaN := by
  simp [FloatFormat.mul, h]

theorem FloatFormat.mul_self_of_isInf (hf : 1 ≤ f.bias) (h : f.isInf a = true) :
    f.mul a a = f.infBits := by
  simp [FloatFormat.mul, FloatFormat.withSign, not_isNaN_of_isInf h,
    FloatFormat.not_isZero_of_isInf hf h, h]

theorem FloatFormat.mul_self_of_isFinite (h : f.isFinite a = true) :
    f.mul a a = f.rne (f.val a * f.val a) := by
  obtain ⟨hn, hi⟩ := not_special_of_isFinite h
  cases hz : f.isZero a
  · simp [FloatFormat.mul, hn, hi, hz]
  · simp [FloatFormat.mul, FloatFormat.withSign, hn, hi, hz, FloatFormat.val_of_isZero hz,
      FloatFormat.rne_zero]

/-- Everything the sum of two data of sign + can be (00_scope.md R15): no two infinities are
opposite, and no sum is the negative zero. -/
theorem FloatFormat.add_cases (ha : f.sign a = false) (hb : f.sign b = false) :
    ((f.isNaN a = true ∨ f.isNaN b = true) ∧ f.add a b = f.canonicalNaN) ∨
    (f.isNaN a = false ∧ f.isNaN b = false ∧
      ((f.isInf a = true ∧ f.add a b = a) ∨ (f.isInf b = true ∧ f.add a b = b) ∨
        (f.isFinite a = true ∧ f.isFinite b = true ∧ f.add a b = f.rne (f.val a + f.val b)))) := by
  obtain h | h | h := f.class_cases a
  · exact .inl ⟨.inl h, FloatFormat.add_of_isNaN (.inl h)⟩
  · obtain h' | h' | h' := f.class_cases b
    · exact .inl ⟨.inr h', FloatFormat.add_of_isNaN (.inr h')⟩
    · exact .inr ⟨not_isNaN_of_isInf h, not_isNaN_of_isInf h', .inl ⟨h,
        (FloatFormat.add_of_isInf_isInf h h').trans (if_pos (ha.trans hb.symm))⟩⟩
    · exact .inr ⟨not_isNaN_of_isInf h, (not_special_of_isFinite h').1, .inl ⟨h,
        FloatFormat.add_of_isInf_isFinite h h'⟩⟩
  · obtain h' | h' | h' := f.class_cases b
    · exact .inl ⟨.inr h', FloatFormat.add_of_isNaN (.inr h')⟩
    · exact .inr ⟨(not_special_of_isFinite h).1, not_isNaN_of_isInf h', .inr (.inl ⟨h',
        FloatFormat.add_of_isFinite_isInf h h'⟩)⟩
    · refine .inr ⟨(not_special_of_isFinite h).1, (not_special_of_isFinite h').1,
        .inr (.inr ⟨h, h', ?_⟩)⟩
      rw [FloatFormat.add_of_isFinite h h', ha, if_neg (by simp)]

theorem FloatFormat.div_of_isNaN (h : f.isNaN a = true) : f.div a b = f.canonicalNaN := by
  simp [FloatFormat.div, h]

section
variable (ha : f.sign a = false) (hb : f.sign b = false) (hfin : f.isFinite b = true)
include ha hb hfin

theorem FloatFormat.div_of_isInf (h : f.isInf a = true) : f.div a b = f.infBits := by
  obtain ⟨hn, hi⟩ := not_special_of_isFinite hfin
  simp [FloatFormat.div, FloatFormat.withSign, not_isNaN_of_isInf h, h, hn, hi, ha, hb]

theorem FloatFormat.div_of_isFinite (hz : f.isZero b = false) (h : f.isFinite a = true) :
    f.div a b = f.rne (f.val a / f.val b) := by
  obtain ⟨hn, hi⟩ := not_special_of_isFinite hfin
  obtain ⟨hn', hi'⟩ := not_special_of_isFinite h
  cases hza : f.isZero a
  · simp [FloatFormat.div, hn, hi, hn', hi', hz, hza]
  · simp [FloatFormat.div, FloatFormat.withSign, hn, hi, hn', hi', hz, hza, ha, hb,
      FloatFormat.val_of_isZero hza, FloatFormat.rne_zero]

end

end

/-! ## binary64 -/

theorem binary64_bias_pos : 1 ≤ binary64.bias := by decide

theorem binary64_signBit : 2 * binary64.signBit = 2 ^ 64 := by decide

theorem binary64_isNaN_canonicalNaN : binary64.isNaN binary64.canonicalNaN = true := by decide

theorem binary64_isInf_withSign (neg : Bool) :
    binary64.isInf (binary64.withSign neg binary64.infBits) = true := by
  cases neg <;> decide

theorem binary64_isNaN_rne (r : ℚ) : binary64.isNaN (binary64.rne r) = false := by
  rcases lt_or_ge |r| binary64.overflowAt with hr | hr
  · obtain ⟨_, _, -, -, hfin, -⟩ := FloatFormat.rne_of_lt_overflow binary64_bias_pos hr
    exact (FloatFormat.not_special_of_isFinite hfin).1
  · rw [FloatFormat.rne_of_overflow binary64_bias_pos hr]
    exact FloatFormat.not_isNaN_of_isInf (binary64_isInf_withSign _)

theorem toNat_ofNat64 {n : Nat} (h : n < 2 * binary64.signBit) : (BitVec.ofNat 64 n).toNat = n := by
  rw [binary64_signBit] at h
  rw [BitVec.toNat_ofNat, Nat.mod_eq_of_lt h]

theorem rne64_toNat (r : ℚ) : (rne64 r).toNat = binary64.rne r :=
  toNat_ofNat64 (FloatFormat.rne_lt binary64_bias_pos r)

theorem add64_toNat {a b : DWord} (ha : binary64.sign a.toNat = false)
    (hb : binary64.sign b.toNat = false) :
    (add64 a b).toNat = binary64.add a.toNat b.toNat := by
  refine toNat_ofNat64 ?_
  obtain ⟨-, h⟩ | ⟨-, -, ⟨-, h⟩ | ⟨-, h⟩ | ⟨-, -, h⟩⟩ := FloatFormat.add_cases ha hb <;> rw [h]
  · decide
  · exact binary64_signBit ▸ a.isLt
  · exact binary64_signBit ▸ b.isLt
  · exact FloatFormat.rne_lt binary64_bias_pos _

theorem mul64_self_toNat (a : DWord) : (mul64 a a).toNat = binary64.mul a.toNat a.toNat := by
  refine toNat_ofNat64 ?_
  obtain h | h | h := binary64.class_cases a.toNat
  · rw [FloatFormat.mul_self_of_isNaN h]
    decide
  · rw [FloatFormat.mul_self_of_isInf binary64_bias_pos h]
    decide
  · rw [FloatFormat.mul_self_of_isFinite h]
    exact FloatFormat.rne_lt binary64_bias_pos _

theorem div64_toNat {a b : DWord} (ha : binary64.sign a.toNat = false)
    (hb : binary64.sign b.toNat = false) (hfin : binary64.isFinite b.toNat = true)
    (hz : binary64.isZero b.toNat = false) :
    (div64 a b).toNat = binary64.div a.toNat b.toNat := by
  refine toNat_ofNat64 ?_
  obtain h | h | h := binary64.class_cases a.toNat
  · rw [FloatFormat.div_of_isNaN h]
    decide
  · rw [FloatFormat.div_of_isInf ha hb hfin h]
    decide
  · rw [FloatFormat.div_of_isFinite ha hb hfin hz h]
    exact FloatFormat.rne_lt binary64_bias_pos _

/-! ## binary32 data in binary64 -/

theorem binary32_unit_eq_zpow (k : Nat) : binary32.unit k = (2 : ℚ) ^ ((k : ℤ) - 149) := by
  have h := binary32.pow_mul_unit 0 k
  rw [pow_zero, one_mul, show binary32.bias = 127 from rfl,
    show binary32.fracBits = 23 from rfl] at h
  rw [h]
  congr 1
  push_cast
  ring

theorem binary64_unit_eq_zpow (k : Nat) : binary64.unit k = (2 : ℚ) ^ ((k : ℤ) - 1074) := by
  have h := binary64.pow_mul_unit 0 k
  rw [pow_zero, one_mul, show binary64.bias = 1023 from rfl,
    show binary64.fracBits = 52 from rfl] at h
  rw [h]
  congr 1
  push_cast
  ring

/-- The quanta of binary32 are quanta of binary64. -/
theorem binary32_unit (e : Nat) : binary32.unit e = binary64.unit (e + 925) := by
  have hexp : ((e + 925 : ℕ) : ℤ) - 1074 = e - 149 := by omega
  rw [binary32_unit_eq_zpow, binary64_unit_eq_zpow, hexp]

/-- So are their squares. -/
theorem binary32_unit_mul_self (e : Nat) :
    binary32.unit e * binary32.unit e = binary64.unit (2 * e + 776) := by
  have hexp : ((2 * e + 776 : ℕ) : ℤ) - 1074 = (e - 149) + (e - 149) := by omega
  rw [binary32_unit_eq_zpow, binary64_unit_eq_zpow, hexp, zpow_add₀ two_ne_zero]

theorem binary32_onGrid64 {v : ℚ} (h : binary32.OnGrid v) : binary64.OnGrid v := by
  obtain ⟨n, e, hn, rfl⟩ := h
  exact ⟨n, e + 925, hn.trans (by decide), by rw [binary32_unit]⟩

/-- The product of two 24-bit significands has 48 bits (43_noise.md R231). -/
theorem binary32_sq_onGrid64 {v : ℚ} (h : binary32.OnGrid v) : binary64.OnGrid (v * v) := by
  obtain ⟨n, e, hn, rfl⟩ := h
  refine ⟨n * n, 2 * e + 776, ?_, ?_⟩
  · rw [abs_mul]
    calc |n| * |n| < 2 ^ (binary32.fracBits + 1) * 2 ^ (binary32.fracBits + 1) :=
          mul_lt_mul'' hn hn (abs_nonneg n) (abs_nonneg n)
      _ < 2 ^ (binary64.fracBits + 1) := by decide
  · rw [← binary32_unit_mul_self]
    push_cast
    ring

theorem natCast_onGrid64 {n : Nat} (h : n < 2 ^ 53) : binary64.OnGrid n := by
  have hsig : |(n : ℤ)| < 2 ^ (binary64.fracBits + 1) := by
    rw [Nat.abs_cast, show binary64.fracBits + 1 = 53 from rfl]
    exact_mod_cast h
  have hunit : binary64.unit 1074 = 1 := by
    rw [binary64_unit_eq_zpow, Nat.cast_ofNat, sub_self, zpow_zero]
  exact ⟨n, 1074, hsig, by rw [hunit, mul_one, Int.cast_natCast]⟩

/-- Anything below `2^256` is far from binary64's overflow. -/
theorem lt_binary64_overflowAt {r : ℚ} (h : r < 2 ^ 256) : r < binary64.overflowAt :=
  h.trans_le ((pow_le_pow_right₀ one_le_two (by decide)).trans
    (FloatFormat.two_pow_bias_le_overflowAt binary64_bias_pos))

theorem abs_val32_lt {w : Word} (h : isFinite32 w = true) : |val32 w| < 2 ^ 128 :=
  FloatFormat.abs_val_lt binary32_bias_pos h

/-- `to64` keeps the class and, of a finite datum, the value (00_scope.md R16). -/
theorem to64_of_isNaN {w : Word} (h : isNaN32 w = true) : binary64.isNaN (to64 w).toNat = true := by
  rw [to64, if_pos h]
  decide

theorem to64_of_isInf {w : Word} (h : isInf32 w = true) : binary64.isInf (to64 w).toNat = true := by
  have hn : isNaN32 w = false := FloatFormat.not_isNaN_of_isInf h
  rw [to64, hn, if_neg Bool.false_ne_true, if_pos h]
  cases sign32 w <;> decide

theorem to64_of_isFinite {w : Word} (h : isFinite32 w = true) :
    binary64.isFinite (to64 w).toNat = true ∧ binary64.val (to64 w).toNat = val32 w := by
  obtain ⟨hn, hi⟩ : isNaN32 w = false ∧ isInf32 w = false := FloatFormat.not_special_of_isFinite h
  rw [to64, hn, hi, if_neg Bool.false_ne_true, if_neg Bool.false_ne_true]
  split
  next hz =>
    have hval : val32 w = 0 := FloatFormat.val_of_isZero hz
    have hzero : ∀ neg,
        binary64.isZero (BitVec.ofNat 64 (binary64.withSign neg 0)).toNat = true := by decide
    rw [hval]
    exact ⟨FloatFormat.isFinite_of_isZero binary64_bias_pos (hzero _),
      FloatFormat.val_of_isZero (hzero _)⟩
  next =>
    rw [rne64_toNat]
    exact FloatFormat.rne_exact binary64_bias_pos (by decide)
      (lt_binary64_overflowAt ((abs_val32_lt h).trans (by norm_num)))
      (binary32_onGrid64 (binary32.val_onGrid w.toNat))

end Sys2Proof.Machine
end

section
/-! PROOFS. POWER's result: the squares, their accumulation in index order, the mean and its
conversion, and the ideal value (43_noise.md R230-R232). Every datum on the way has sign +. -/

namespace Sys2Proof.Machine

/-! ## Squares -/

/-- The term POWER accumulates for a word (43_noise.md R231). -/
def square64 (w : Word) : DWord := mul64 (to64 w) (to64 w)

theorem square64_toNat (w : Word) :
    (square64 w).toNat = binary64.mul (to64 w).toNat (to64 w).toNat := mul64_self_toNat _

theorem square64_of_isNaN {w : Word} (h : isNaN32 w = true) :
    (square64 w).toNat = binary64.canonicalNaN := by
  rw [square64_toNat, FloatFormat.mul_self_of_isNaN (to64_of_isNaN h)]

theorem square64_of_isInf {w : Word} (h : isInf32 w = true) :
    (square64 w).toNat = binary64.infBits := by
  rw [square64_toNat, FloatFormat.mul_self_of_isInf binary64_bias_pos (to64_of_isInf h)]

theorem square64_of_isFinite {w : Word} (h : isFinite32 w = true) :
    (square64 w).toNat = binary64.rne (val32 w * val32 w) := by
  obtain ⟨hfin, hval⟩ := to64_of_isFinite h
  rw [square64_toNat, FloatFormat.mul_self_of_isFinite hfin, hval]

theorem square64_exact {w : Word} (h : isFinite32 w = true) :
    binary64.isFinite (square64 w).toNat = true ∧
    binary64.val (square64 w).toNat = val32 w * val32 w := by
  rw [square64_of_isFinite h]
  refine FloatFormat.rne_exact binary64_bias_pos (by decide) (lt_binary64_overflowAt ?_)
    (binary32_sq_onGrid64 (binary32.val_onGrid w.toNat))
  rw [abs_mul]
  calc |val32 w| * |val32 w| < 2 ^ 128 * 2 ^ 128 :=
        mul_lt_mul'' (abs_val32_lt h) (abs_val32_lt h) (abs_nonneg _) (abs_nonneg _)
    _ = 2 ^ 256 := by norm_num

/-- Settles O22: conversion and square both round a value that binary64 holds. -/
theorem squareIsExact : Obligations.SquareIsExact := by
  unfold Obligations.SquareIsExact
  intro x hx
  obtain ⟨hfin, hval⟩ := square64_exact hx
  exact ⟨hfin, (to64_of_isFinite hx).2, hval.trans (sq (val32 x)).symm⟩

theorem isNaN_square64 (w : Word) : binary64.isNaN (square64 w).toNat = isNaN32 w := by
  obtain h | h | h := binary32.class_cases w.toNat
  · rw [square64_of_isNaN h, binary64_isNaN_canonicalNaN]
    exact h.symm
  · rw [square64_of_isInf h]
    exact (FloatFormat.not_isNaN_of_isInf h).symm
  · rw [square64_of_isFinite h, binary64_isNaN_rne]
    exact (FloatFormat.not_special_of_isFinite h).1.symm

theorem sign_square64 (w : Word) : binary64.sign (square64 w).toNat = false := by
  obtain h | h | h := binary32.class_cases w.toNat
  · rw [square64_of_isNaN h]
    decide
  · rw [square64_of_isInf h]
    decide
  · rw [square64_of_isFinite h]
    exact FloatFormat.sign_rne binary64_bias_pos (mul_self_nonneg _)

/-! ## The accumulation -/

section
variable {acc : DWord} (hacc : binary64.sign acc.toNat = false)
include hacc

theorem powerAcc_toNat (w : Word) :
    (powerAcc acc w).toNat = binary64.add acc.toNat (square64 w).toNat :=
  add64_toNat hacc (sign_square64 w)

/-- The accumulator keeps sign +. -/
theorem sign_powerAcc (w : Word) : binary64.sign (powerAcc acc w).toNat = false := by
  have hw := sign_square64 w
  rw [powerAcc_toNat hacc]
  obtain ⟨-, h⟩ | ⟨-, -, ⟨-, h⟩ | ⟨-, h⟩ | ⟨-, -, h⟩⟩ := FloatFormat.add_cases hacc hw <;> rw [h]
  · decide
  · exact hacc
  · exact hw
  · exact FloatFormat.sign_rne binary64_bias_pos
      (add_nonneg (FloatFormat.val_nonneg hacc) (FloatFormat.val_nonneg hw))

/-- The accumulator becomes NaN by a NaN alone, and stays it. -/
theorem isNaN_powerAcc (w : Word) :
    binary64.isNaN (powerAcc acc w).toNat = (binary64.isNaN acc.toNat || isNaN32 w) := by
  rw [powerAcc_toNat hacc, ← isNaN_square64]
  obtain ⟨hn, h⟩ | ⟨hn, hn', ⟨-, h⟩ | ⟨-, h⟩ | ⟨-, -, h⟩⟩ :=
    FloatFormat.add_cases hacc (sign_square64 w) <;> rw [h]
  · rw [binary64_isNaN_canonicalNaN, Bool.or_eq_true_iff.2 hn]
  · rw [hn, hn', Bool.or_self]
  · rw [hn, hn', Bool.or_self]
  · rw [hn, hn', Bool.or_self, binary64_isNaN_rne]

/-- Without a NaN an infinity makes the accumulator infinite, and it stays so. -/
theorem isInf_powerAcc {w : Word} (hn : binary64.isNaN acc.toNat = false) (hw : isNaN32 w = false)
    (h : binary64.isInf acc.toNat = true ∨ isInf32 w = true) :
    binary64.isInf (powerAcc acc w).toNat = true := by
  have hinf : binary64.isInf acc.toNat = true ∨ binary64.isInf (square64 w).toNat = true :=
    h.imp_right fun h => by rw [square64_of_isInf h]; decide
  rw [powerAcc_toNat hacc]
  obtain ⟨hbad, -⟩ | ⟨-, -, ⟨h, he⟩ | ⟨h, he⟩ | ⟨hf, hf', -⟩⟩ :=
    FloatFormat.add_cases hacc (sign_square64 w)
  · rw [hn, isNaN_square64, hw] at hbad
    simp at hbad
  · rwa [he]
  · rwa [he]
  · obtain ⟨-, hi⟩ := FloatFormat.not_special_of_isFinite hf
    obtain ⟨-, hi'⟩ := FloatFormat.not_special_of_isFinite hf'
    rw [hi, hi'] at hinf
    simp at hinf

end

theorem sign_foldl_powerAcc {acc : DWord} (hacc : binary64.sign acc.toNat = false)
    (xs : List Word) :
    binary64.sign (xs.foldl powerAcc acc).toNat = false := by
  induction xs generalizing acc with
  | nil => exact hacc
  | cons w ws ih => exact ih (sign_powerAcc hacc w)

theorem isNaN_foldl_powerAcc {acc : DWord} (hacc : binary64.sign acc.toNat = false)
    (xs : List Word) :
    binary64.isNaN (xs.foldl powerAcc acc).toNat =
      (binary64.isNaN acc.toNat || xs.any isNaN32) := by
  induction xs generalizing acc with
  | nil => simp
  | cons w ws ih =>
    rw [List.foldl_cons, ih (sign_powerAcc hacc w), isNaN_powerAcc hacc, List.any_cons,
      Bool.or_assoc]

theorem isInf_foldl_powerAcc {acc : DWord} {xs : List Word} (hacc : binary64.sign acc.toNat = false)
    (hn : binary64.isNaN acc.toNat = false) (hxs : xs.any isNaN32 = false)
    (h : binary64.isInf acc.toNat = true ∨ xs.any isInf32 = true) :
    binary64.isInf (xs.foldl powerAcc acc).toNat = true := by
  induction xs generalizing acc with
  | nil => exact h.resolve_right (by simp)
  | cons w ws ih =>
    rw [List.any_cons, Bool.or_eq_false_iff] at hxs
    obtain ⟨hw, hws⟩ := hxs
    rw [List.any_cons, Bool.or_eq_true_iff, ← or_assoc] at h
    exact ih (sign_powerAcc hacc w) (by rw [isNaN_powerAcc hacc, hn, hw, Bool.or_self]) hws
      (h.imp_left (isInf_powerAcc hacc hn hw))

theorem sign_zero64 : binary64.sign (0 : DWord).toNat = false := by decide

theorem isZero_zero64 : binary64.isZero (0 : DWord).toNat = true := by decide

/-- The first accumulation is exact: the sum with +0 is the square itself. -/
theorem powerAcc_zero {w : Word} (h : isFinite32 w = true) : powerAcc 0 w = square64 w := by
  obtain ⟨hfin, hval⟩ := square64_exact h
  refine BitVec.eq_of_toNat_eq ?_
  rw [powerAcc_toNat sign_zero64,
    FloatFormat.add_of_isFinite (FloatFormat.isFinite_of_isZero binary64_bias_pos isZero_zero64)
      hfin,
    sign_zero64, if_neg (by simp), FloatFormat.val_of_isZero isZero_zero64, zero_add, hval,
    square64_of_isFinite h]

theorem square64_of_isZero {w : Word} (h : isZero32 w = true) : square64 w = 0 := by
  have hval : val32 w = 0 := FloatFormat.val_of_isZero h
  refine BitVec.eq_of_toNat_eq ?_
  rw [square64_of_isFinite (isFinite32_of_isZero32 h), hval, mul_zero, FloatFormat.rne_zero]
  rfl

/-- Zeros of either sign leave the accumulator at +0. -/
theorem foldl_powerAcc_of_isZero {xs : List Word} (h : xs.all isZero32 = true) :
    xs.foldl powerAcc 0 = 0 := by
  induction xs with
  | nil => rfl
  | cons w ws ih =>
    rw [List.all_cons, Bool.and_eq_true] at h
    obtain ⟨hw, hws⟩ := h
    rw [List.foldl_cons, powerAcc_zero (isFinite32_of_isZero32 hw), square64_of_isZero hw, ih hws]

/-! ## The mean -/

/-- A count of words is a positive binary64 datum (00_scope.md R16). -/
theorem u2f64_exact {n : Nat} (hpos : n ≠ 0) (h : n < 2 ^ 32) :
    binary64.isFinite (u2f64 n).toNat = true ∧ binary64.val (u2f64 n).toNat = n ∧
    binary64.sign (u2f64 n).toNat = false ∧ binary64.isZero (u2f64 n).toNat = false := by
  have hlt : |(n : ℚ)| < 2 ^ 256 := by
    rw [Nat.abs_cast]
    exact lt_of_lt_of_le (b := 2 ^ 32) (by exact_mod_cast h) (by norm_num)
  obtain ⟨hfin, hval⟩ := FloatFormat.rne_exact binary64_bias_pos (by decide)
    (lt_binary64_overflowAt hlt) (natCast_onGrid64 (h.trans (by norm_num)))
  rw [u2f64, rne64_toNat]
  refine ⟨hfin, hval, FloatFormat.sign_rne binary64_bias_pos n.cast_nonneg, ?_⟩
  rw [← Bool.not_eq_true, ← FloatFormat.val_eq_zero_iff, hval]
  exact Nat.cast_ne_zero.2 hpos

section
variable {acc : DWord} {n : Nat} (hpos : n ≠ 0) (hn : n < 2 ^ 32)
include hpos hn

theorem div64_u2f64_of_isNaN (hacc : binary64.sign acc.toNat = false)
    (h : binary64.isNaN acc.toNat = true) :
    (div64 acc (u2f64 n)).toNat = binary64.canonicalNaN := by
  obtain ⟨hfin, -, hs, hz⟩ := u2f64_exact hpos hn
  rw [div64_toNat hacc hs hfin hz, FloatFormat.div_of_isNaN h]

theorem div64_u2f64_of_isInf (hacc : binary64.sign acc.toNat = false)
    (h : binary64.isInf acc.toNat = true) :
    (div64 acc (u2f64 n)).toNat = binary64.infBits := by
  obtain ⟨hfin, -, hs, hz⟩ := u2f64_exact hpos hn
  rw [div64_toNat hacc hs hfin hz, FloatFormat.div_of_isInf hacc hs hfin h]

theorem div64_u2f64_of_isFinite (hacc : binary64.sign acc.toNat = false)
    (h : binary64.isFinite acc.toNat = true) :
    (div64 acc (u2f64 n)).toNat = binary64.rne (binary64.val acc.toNat / n) := by
  obtain ⟨hfin, hval, hs, hz⟩ := u2f64_exact hpos hn
  rw [div64_toNat hacc hs hfin hz, FloatFormat.div_of_isFinite hacc hs hfin hz h, hval]

theorem zero_div64_u2f64 : div64 0 (u2f64 n) = 0 := by
  refine BitVec.eq_of_toNat_eq ?_
  rw [div64_u2f64_of_isFinite hpos hn sign_zero64
      (FloatFormat.isFinite_of_isZero binary64_bias_pos isZero_zero64),
    FloatFormat.val_of_isZero isZero_zero64, zero_div, FloatFormat.rne_zero]
  rfl

theorem sign_div64_u2f64 (hacc : binary64.sign acc.toNat = false) :
    binary64.sign (div64 acc (u2f64 n)).toNat = false := by
  obtain h | h | h := binary64.class_cases acc.toNat
  · rw [div64_u2f64_of_isNaN hpos hn hacc h]
    decide
  · rw [div64_u2f64_of_isInf hpos hn hacc h]
    decide
  · rw [div64_u2f64_of_isFinite hpos hn hacc h]
    exact FloatFormat.sign_rne binary64_bias_pos
      (div_nonneg (FloatFormat.val_nonneg hacc) n.cast_nonneg)

end

/-! ## Back to binary32 -/

theorem to32_of_isNaN {d : DWord} (h : binary64.isNaN d.toNat = true) :
    to32 d = canonicalNaN32 := by
  rw [to32, if_pos h]

theorem to32_of_isInf {d : DWord} (hd : binary64.sign d.toNat = false)
    (h : binary64.isInf d.toNat = true) : to32 d = 0x7F800000 := by
  rw [to32, FloatFormat.not_isNaN_of_isInf h, if_neg Bool.false_ne_true, if_pos h, hd]
  rfl

theorem to32_of_isFinite {d : DWord} (h : binary64.isFinite d.toNat = true) :
    to32 d = rne32 (binary64.val d.toNat) := by
  obtain ⟨hn, hi⟩ := FloatFormat.not_special_of_isFinite h
  rw [to32, hn, hi, if_neg Bool.false_ne_true, if_neg Bool.false_ne_true]
  rfl

theorem to32_zero : to32 0 = 0x00000000 := by
  rw [to32_of_isFinite (FloatFormat.isFinite_of_isZero binary64_bias_pos isZero_zero64),
    FloatFormat.val_of_isZero isZero_zero64, rne32_zero]

theorem sign32_to32 {d : DWord} (hd : binary64.sign d.toNat = false) : sign32 (to32 d) = false := by
  obtain h | h | h := binary64.class_cases d.toNat
  · rw [to32_of_isNaN h]
    decide
  · rw [to32_of_isInf hd h]
    decide
  · rw [to32_of_isFinite h, sign32, rne32_toNat]
    exact FloatFormat.sign_rne binary32_bias_pos (FloatFormat.val_nonneg hd)

/-! ## POWER's result -/

theorem powerOf_nil : powerOf [] = 0x00000000 := rfl

theorem powerOf_of_length_ne_zero {xs : List Word} (h : xs.length ≠ 0) :
    powerOf xs = to32 (div64 (xs.foldl powerAcc 0) (u2f64 xs.length)) := by
  rw [powerOf, if_neg h]

/-- A word that meets a test makes the list no empty one. -/
theorem length_ne_zero_of_any {xs : List Word} {p : Word → Bool} (h : xs.any p = true) :
    xs.length ≠ 0 := by
  rintro hlen
  rw [List.length_eq_zero_iff.1 hlen] at h
  cases h

/-- Settles O24: squares, sums, mean and conversion all keep sign +. -/
theorem powerNeverNegative : Obligations.PowerNeverNegative := by
  unfold Obligations.PowerNeverNegative
  intro xs hlen
  by_cases h0 : xs.length = 0
  · rw [List.length_eq_zero_iff.1 h0, powerOf_nil]
    decide
  · rw [powerOf_of_length_ne_zero h0]
    exact sign32_to32 (sign_div64_u2f64 h0 hlen (sign_foldl_powerAcc sign_zero64 xs))

/-- Settles O23: the class of the accumulator goes through the mean and the conversion. -/
theorem powerSpecialResults : Obligations.PowerSpecialResults := by
  unfold Obligations.PowerSpecialResults
  intro xs hlen
  have hsign := sign_foldl_powerAcc sign_zero64 xs
  refine ⟨fun hzero => ?zeros, fun hnan => ?nan, fun hno hinf => ?infinity⟩
  case zeros =>
    by_cases h0 : xs.length = 0
    · rw [List.length_eq_zero_iff.1 h0, powerOf_nil]
    · rw [powerOf_of_length_ne_zero h0, foldl_powerAcc_of_isZero hzero, zero_div64_u2f64 h0 hlen,
        to32_zero]
  case nan =>
    have h0 := length_ne_zero_of_any hnan
    have hacc := isNaN_foldl_powerAcc sign_zero64 xs
    rw [hnan, Bool.or_true] at hacc
    rw [powerOf_of_length_ne_zero h0, to32_of_isNaN]
    · rfl
    · rw [div64_u2f64_of_isNaN h0 hlen hsign hacc, binary64_isNaN_canonicalNaN]
  case infinity =>
    have h0 := length_ne_zero_of_any hinf
    have hacc := isInf_foldl_powerAcc sign_zero64 (by decide) hno (.inr hinf)
    rw [powerOf_of_length_ne_zero h0, to32_of_isInf (sign_div64_u2f64 h0 hlen hsign)]
    rw [div64_u2f64_of_isInf h0 hlen hsign hacc]
    exact binary64_isInf_withSign false

/-! ## POWER against its ideal -/

theorem idealPower_singleton (w : Word) : idealPower [w] = val32 w * val32 w := by
  simp [idealPower, sq]

/-- A sum of squares vanishes only where every square does. -/
theorem sum_sq_eq_zero_iff (xs : List Word) :
    (xs.map (fun w => val32 w ^ 2)).sum = 0 ↔ xs.all isZero32 = true := by
  induction xs with
  | nil => simp
  | cons w ws ih =>
    have hnonneg : 0 ≤ (ws.map (fun w => val32 w ^ 2)).sum :=
      List.sum_nonneg (by simp [sq_nonneg])
    have hw : val32 w = 0 ↔ isZero32 w = true := FloatFormat.val_eq_zero_iff
    rw [List.map_cons, List.sum_cons, add_eq_zero_iff_of_nonneg (sq_nonneg _) hnonneg,
      sq_eq_zero_iff, ih, hw, List.all_cons, Bool.and_eq_true]

theorem idealPower_eq_zero_iff (xs : List Word) :
    idealPower xs = 0 ↔ xs.all isZero32 = true := by
  have hsum := sum_sq_eq_zero_iff xs
  rw [idealPower, div_eq_zero_iff, hsum, Nat.cast_eq_zero, List.length_eq_zero_iff]
  exact or_iff_left_of_imp fun h => by rw [h]; rfl

/-- The mean of one finite word is its square, without a rounding before the conversion. -/
theorem powerOf_singleton {w : Word} (h : isFinite32 w = true) :
    powerOf [w] = rne32 (val32 w * val32 w) := by
  obtain ⟨hfin, hval⟩ := square64_exact h
  have hmean := div64_u2f64_of_isFinite one_ne_zero (by norm_num) (sign_square64 w) hfin
  rw [hval, Nat.cast_one, div_one, ← square64_of_isFinite h] at hmean
  rw [powerOf_of_length_ne_zero (by simp), List.foldl_cons, List.foldl_nil, List.length_singleton,
    powerAcc_zero h, BitVec.eq_of_toNat_eq hmean, to32_of_isFinite hfin, hval]

/-- Settles O59: one word's mean is exact, and a mean of squares is 0 exactly for zeros. -/
theorem powerAgainstItsIdeal : Obligations.PowerAgainstItsIdeal := by
  unfold Obligations.PowerAgainstItsIdeal
  exact ⟨fun x hx => (powerOf_singleton hx).trans (by rw [idealPower_singleton]),
    fun xs _ => idealPower_eq_zero_iff xs⟩

end Sys2Proof.Machine
end

section
/-! PROOFS. POWER, NGEN and VADD as commands: their checks in their order, the words they write, and
what they report (43_noise.md R230, R240, R250; 60_exceptions.md R322). -/

namespace Sys2Proof.Machine

/-! ## Checks that raise one code -/

/-- Neighbouring checks with the same code are one check: which of them fired cannot be told. -/
theorem firstError_merge (b c : Bool) (e : ErrCode) (cs : Checks) :
    firstError ((b, e) :: (c, e) :: cs) = firstError ((b || c, e) :: cs) := by
  cases b <;> rfl

theorem State.not_inRange_iff (s : State) (base n : Nat) :
    (!inRange s.params base n) = true ↔ ¬ s.InRange base n := by
  rw [Bool.not_eq_true', inRange_eq_false_iff, State.InRange]

theorem partialOverlap_iff (dst src n : Nat) :
    partialOverlap dst src n = true ↔ overlap dst n src n = true ∧ dst ≠ src := by
  simp [partialOverlap]

section
variable {dst src a b n snr : Word} {s : State}

/-! ## The checks of the three commands -/

theorem checkPower_of_not_inRange (h : ¬ s.InRange src.toNat n.toNat) :
    checkPower src n s = some .range := by
  rw [checkPower, (s.not_inRange_iff _ _).2 h, firstError_cons_true]

theorem checkPower_of_inRange (h : s.InRange src.toNat n.toNat) : checkPower src n s = none := by
  rw [checkPower, (inRange_iff _ _ _).2 h]
  rfl

theorem checkNgen_of_not_finite (h : isFinite32 snr = false) :
    checkNgen dst src n snr s = some .param := by
  rw [checkNgen, h, Bool.not_false, firstError_cons_true]

theorem checkNgen_of_not_inRange (hsnr : isFinite32 snr = true)
    (h : ¬ s.InRange src.toNat n.toNat ∨ ¬ s.InRange dst.toNat n.toNat) :
    checkNgen dst src n snr s = some .range := by
  have hbad :
      (!inRange s.params src.toNat n.toNat || !inRange s.params dst.toNat n.toNat) = true := by
    rwa [Bool.or_eq_true, s.not_inRange_iff, s.not_inRange_iff]
  rw [checkNgen, hsnr, Bool.not_true, firstError_cons_false, firstError_merge, hbad,
    firstError_cons_true]

theorem checkNgen_of_inRange (hsnr : isFinite32 snr = true) (hsrc : s.InRange src.toNat n.toNat)
    (hdst : s.InRange dst.toNat n.toNat) : checkNgen dst src n snr s = none := by
  rw [checkNgen, hsnr, (inRange_iff _ _ _).2 hsrc, (inRange_iff _ _ _).2 hdst]
  rfl

/-- VADD's three range tests raise one code; the overlap comes after them (43_noise.md R250). -/
theorem checkVadd_eq (dst a n b : Word) (s : State) :
    checkVadd dst a n b s = firstError
      [((!inRange s.params a.toNat n.toNat || !inRange s.params b.toNat n.toNat) ||
          !inRange s.params dst.toNat n.toNat, .range),
       (partialOverlap dst.toNat a.toNat n.toNat || partialOverlap dst.toNat b.toNat n.toNat,
          .overlap)] := by
  rw [checkVadd, firstError_merge, firstError_merge]

theorem checkVadd_of_not_inRange (h : ¬ s.InRange a.toNat n.toNat ∨ ¬ s.InRange b.toNat n.toNat ∨
    ¬ s.InRange dst.toNat n.toNat) : checkVadd dst a n b s = some .range := by
  have hbad : ((!inRange s.params a.toNat n.toNat || !inRange s.params b.toNat n.toNat) ||
      !inRange s.params dst.toNat n.toNat) = true := by
    rwa [Bool.or_eq_true, Bool.or_eq_true, or_assoc, s.not_inRange_iff, s.not_inRange_iff,
      s.not_inRange_iff]
  rw [checkVadd_eq, hbad, firstError_cons_true]

/-- Past the ranges only the overlap with an input is left (43_noise.md R251). -/
theorem checkVadd_of_ranges (ha : s.InRange a.toNat n.toNat) (hb : s.InRange b.toNat n.toNat)
    (hdst : s.InRange dst.toNat n.toNat) :
    checkVadd dst a n b s =
      if partialOverlap dst.toNat a.toNat n.toNat || partialOverlap dst.toNat b.toNat n.toNat
      then some .overlap else none := by
  rw [checkVadd_eq, (inRange_iff _ _ _).2 ha, (inRange_iff _ _ _).2 hb, (inRange_iff _ _ _).2 hdst]
  rfl

theorem checkVadd_of_overlap (ha : s.InRange a.toNat n.toNat) (hb : s.InRange b.toNat n.toNat)
    (hdst : s.InRange dst.toNat n.toNat)
    (h : (overlap dst.toNat n.toNat a.toNat n.toNat = true ∧ dst ≠ a) ∨
      (overlap dst.toNat n.toNat b.toNat n.toNat = true ∧ dst ≠ b)) :
    checkVadd dst a n b s = some .overlap := by
  rw [checkVadd_of_ranges ha hb hdst, if_pos]
  rwa [Bool.or_eq_true, partialOverlap_iff, partialOverlap_iff, Ne, BitVec.toNat_inj, Ne,
    BitVec.toNat_inj]

theorem checkVadd_of_ok (ha : s.InRange a.toNat n.toNat) (hb : s.InRange b.toNat n.toNat)
    (hdst : s.InRange dst.toNat n.toNat)
    (hda : overlap dst.toNat n.toNat a.toNat n.toNat = true → dst = a)
    (hdb : overlap dst.toNat n.toNat b.toNat n.toNat = true → dst = b) :
    checkVadd dst a n b s = none := by
  rw [checkVadd_of_ranges ha hb hdst, if_neg]
  rw [Bool.or_eq_true, partialOverlap_iff, partialOverlap_iff, Ne, BitVec.toNat_inj, Ne,
    BitVec.toNat_inj]
  rintro (⟨ho, hne⟩ | ⟨ho, hne⟩)
  · exact hne (hda ho)
  · exact hne (hdb ho)

/-! ## Past the checks -/

theorem exec_power_of_ok {xs : List Word} (hxs : xs.length = n.toNat)
    (hsrc : s.InRange src.toNat n.toNat) (hval : s.mem.holds src.toNat xs) :
    exec (.power src n) s = .next (s.complete (powerOf xs) 0) := by
  have hread : s.mem.readWords src.toNat n.toNat = .ok xs := hxs ▸ Memory.readWords_of_holds hval
  simp only [exec, execPower, checkPower_of_inRange hsrc, hread]

theorem exec_ngen_of_ok {xs : List Word} (hxs : xs.length = n.toNat) (hsnr : isFinite32 snr = true)
    (hsrc : s.InRange src.toNat n.toNat) (hdst : s.InRange dst.toNat n.toNat)
    (hval : s.mem.holds src.toNat xs) :
    exec (.ngen dst src n snr) s = .next
      (((s.store dst.toNat (ngenWords (powerOf xs) snr s.draws n.toNat)).draw
        (ngenDraws (powerOf xs) n.toNat)).complete (powerOf xs)
          (ngenResult1 (powerOf xs) snr s.draws n.toNat)) := by
  have hread : s.mem.readWords src.toNat n.toNat = .ok xs := hxs ▸ Memory.readWords_of_holds hval
  simp only [exec, execNgen, checkNgen_of_inRange hsnr hsrc hdst, hread]

theorem exec_vadd_of_ok {xs ys : List Word} (hc : checkVadd dst a n b s = none)
    (hxs : xs.length = n.toNat) (hys : ys.length = n.toNat) (ha : s.mem.holds a.toNat xs)
    (hb : s.mem.holds b.toNat ys) :
    exec (.vadd dst a n b) s = .next
      ((s.store dst.toNat ((xs.zip ys).map fun xy => add32 xy.1 xy.2)).complete n 0) := by
  have hread : s.mem.readPairs a.toNat b.toNat n.toNat = .ok (xs.zip ys) :=
    hxs ▸ Memory.readPairs_of_holds (hys.trans hxs.symm) ha hb
  simp only [exec, execVadd, hc, hread]

end

/-- Settles O29: each premise decides the check it is about and lets the earlier ones pass. -/
theorem noiseErrorsInOrder : Obligations.NoiseErrorsInOrder := by
  unfold Obligations.NoiseErrorsInOrder
  intro dst a n b snr s
  exact ⟨fun ha => exec_of_check_some (i := .power a n) (checkPower_of_not_inRange ha),
    fun hsnr => exec_of_check_some (i := .ngen dst a n snr) (checkNgen_of_not_finite hsnr),
    fun hsnr hout =>
      exec_of_check_some (i := .ngen dst a n snr) (checkNgen_of_not_inRange hsnr hout),
    fun hout => exec_of_check_some (i := .vadd dst a n b) (checkVadd_of_not_inRange hout),
    fun ha hb hdst hmeet =>
      exec_of_check_some (i := .vadd dst a n b) (checkVadd_of_overlap ha hb hdst hmeet)⟩

/-- Settles O21: past its check POWER only completes. -/
theorem powerReportsMeanSquare : Obligations.PowerReportsMeanSquare := by
  unfold Obligations.PowerReportsMeanSquare
  intro src n s xs hxs hsrc hval
  refine ⟨_, exec_power_of_ok hxs hsrc hval, ?completion, rfl, rfl, rfl⟩
  case completion =>
    rw [← hxs]
    exact s.succeedsTo_complete 0 [] s.rs 0 (powerOf xs) 0

/-! ## The noise words -/

section
variable {p : Word}

/-- A silent signal (43_noise.md R244). -/
theorem ngenWords_of_zero (h : isZero32 p = true) (snr : Word) (d n : Nat) :
    ngenWords p snr d n = List.replicate n 0x00000000 ∧ ngenDraws p n = 0 ∧
    ngenResult1 p snr d n = 0 := by
  simp [ngenWords, ngenDraws, ngenResult1, isFinite32_of_isZero32 h, h]

/-- A signal with a power to scale the draws by (43_noise.md R243). -/
theorem ngenWords_of_ordinary (hfin : isFinite32 p = true) (hz : isZero32 p = false) (snr : Word)
    (d n : Nat) :
    ngenWords p snr d n =
      (List.range n).map (fun i => noiseWord (Config.ngSigma p snr) (Config.gauss (d + i))) ∧
    ngenDraws p n = n ∧ ngenResult1 p snr d n = rne32 (Config.ngSigma p snr : ℚ) := by
  simp only [ngenWords, ngenDraws, ngenResult1, hfin, hz]
  exact ⟨rfl, rfl, rfl⟩

end

/-- NGEN past its checks, whatever the power: the completion, the draws taken, the frame, and the
noise words in memory (43_noise.md R240). -/
theorem exec_ngen_completes {dst src n snr : Word} {s : State} {xs : List Word}
    (hxs : xs.length = n.toNat) (hsnr : isFinite32 snr = true)
    (hsrc : s.InRange src.toNat n.toNat) (hdst : s.InRange dst.toNat n.toNat)
    (hval : s.mem.holds src.toNat xs) :
    ∃ t, exec (.ngen dst src n snr) s = .next t ∧
      s.SucceedsTo t (powerOf xs) (ngenResult1 (powerOf xs) snr s.draws n.toNat) ∧
      t.rs = s.rs ∧ t.draws = s.draws + ngenDraws (powerOf xs) n.toNat ∧
      s.sameOutside t dst.toNat n.toNat ∧
      ∀ i (hi : i < (ngenWords (powerOf xs) snr s.draws n.toNat).length),
        t.mem.readWord (dst.toNat + i) = some (ngenWords (powerOf xs) snr s.draws n.toNat)[i] :=
  ⟨_, exec_ngen_of_ok hxs hsnr hsrc hdst hval, s.succeedsTo_complete dst.toNat _ s.rs _ _ _, rfl,
    rfl, s.sameOutside_storeWords dst.toNat (ngenWords_length _ _ _ _),
    fun _ hi => s.mem.readWord_writeWords_inside dst.toNat _ hi⟩

/-- Settles O25: the words are the scaled draws, one a sample. -/
theorem ngenScalesGaussianDraws : Obligations.NgenScalesGaussianDraws := by
  unfold Obligations.NgenScalesGaussianDraws
  intro dst src n snr s xs hxs hsnr hsrc hdst hval hfin hz
  obtain ⟨t, hexec, hdone, hrs, hdraws, hframe, hwords⟩ :=
    exec_ngen_completes hxs hsnr hsrc hdst hval
  obtain ⟨hw, hd, hr⟩ := ngenWords_of_ordinary hfin hz snr s.draws n.toNat
  rw [hr] at hdone
  rw [hd] at hdraws
  simp only [hw, List.length_map, List.length_range, List.getElem_map, List.getElem_range] at hwords
  exact ⟨t, hexec, hdone, hrs, hdraws, hframe, hwords⟩

/-- Settles O26: the words are zeros and no value is drawn. -/
theorem ngenSilentInput : Obligations.NgenSilentInput := by
  unfold Obligations.NgenSilentInput
  intro dst src n snr s xs hxs hsnr hsrc hdst hval hz
  obtain ⟨t, hexec, hdone, hrs, hdraws, hframe, hwords⟩ :=
    exec_ngen_completes hxs hsnr hsrc hdst hval
  obtain ⟨hw, hd, hr⟩ := ngenWords_of_zero hz snr s.draws n.toNat
  rw [hr] at hdone
  rw [hd] at hdraws
  simp only [hw, List.length_replicate, List.getElem_replicate] at hwords
  exact ⟨t, hexec, hdone, hrs, hdraws, hframe, hwords⟩

/-- Settles O27: the completion does not depend on the power, and `n` words are stored whatever they
are. -/
theorem ngenNonFinitePower : Obligations.NgenNonFinitePower := by
  unfold Obligations.NgenNonFinitePower
  intro dst src n snr s xs hxs hsnr hsrc hdst hval _
  obtain ⟨t, hexec, hdone, hrs, -, hframe, hwords⟩ := exec_ngen_completes hxs hsnr hsrc hdst hval
  exact ⟨t, _, hexec, hdone, hrs, hframe, fun i hi => ⟨_, hwords i (by rwa [ngenWords_length])⟩⟩

/-! ## The sums -/

/-- Settles O28: all pairs are read before the sums are stored, so equal ranges do no harm. -/
theorem vaddWritesSums : Obligations.VaddWritesSums := by
  unfold Obligations.VaddWritesSums
  intro dst a n b s xs ys hxs hys ha hb hdst hda hdb hx hy
  have hlen : ((xs.zip ys).map fun xy => add32 xy.1 xy.2).length = n.toNat := by simp [hxs, hys]
  refine ⟨_, exec_vadd_of_ok (checkVadd_of_ok ha hb hdst hda hdb) hxs hys hx hy,
    s.succeedsTo_complete dst.toNat _ s.rs 0 n 0, rfl, rfl, s.sameOutside_storeWords dst.toNat hlen,
    fun i hi => ?sum⟩
  case sum =>
    have hword := s.mem.readWord_writeWords_inside dst.toNat _ (hlen.symm ▸ hi)
    rw [List.getElem_map, List.getElem_zip] at hword
    exact hword

end Sys2Proof.Machine
end

section
/-! PROOFS. The resampler's commands: RSCFG, RSFEED and RSRUN's checks in their order, the fields they
set, one pull, and the ideal interpolation at phase 0 (44_resampler.md R274, R276, R280, R285, R290,
R292, R297, R300; 60_exceptions.md R322). -/

namespace Sys2Proof.Machine

/-! ## Checks that raise one code -/

/-- Where every check has the same code, a command that fails one raises that code. -/
theorem firstError_of_ne_none {cs : Checks} {e : ErrCode} (hcode : ∀ c ∈ cs, c.2 = e)
    (h : firstError cs ≠ none) : firstError cs = some e := by
  obtain ⟨e', he'⟩ := Option.ne_none_iff_exists'.1 h
  exact he'.trans (congrArg some (hcode _ (firstError_mem he')))

section
variable {ch srcRate dstRate src len flags dst max : Word} {s : State}

/-! ## The checks of the three commands -/

theorem checkRscfg_of_not_legal
    (h : ch.toNat = 0 ∨ s.params.chMax < ch.toNat ∨ srcRate.toNat = 0 ∨ maxRate < srcRate.toNat ∨
      dstRate.toNat = 0 ∨ maxRate < dstRate.toNat) :
    checkRscfg ch srcRate dstRate s = some .param := by
  refine firstError_of_ne_none (by simp) fun hnone => ?_
  have := (checkRscfg_eq_none_iff ch srcRate dstRate s).1 hnone
  omega

/-- RSFEED's first three tests raise one code (44_resampler.md R285). -/
theorem checkRsfeed_eq (src len flags : Word) (s : State) :
    checkRsfeed src len flags s = firstError
      [((!s.rs.cfg || s.rs.last) || s.rs.srcRem != 0, .rsState),
       (flagsReserved flags != 0, .param),
       (len.toNat % s.rs.ch != 0, .malformed),
       (!inRange s.params src.toNat len.toNat, .range)] := by
  rw [checkRsfeed, firstError_merge, firstError_merge]

theorem checkRsfeed_of_state (h : s.rs.cfg = false ∨ s.rs.last = true ∨ s.rs.srcRem ≠ 0) :
    checkRsfeed src len flags s = some .rsState := by
  have hbad : ((!s.rs.cfg || s.rs.last) || s.rs.srcRem != 0) = true := by
    rwa [Bool.or_eq_true, Bool.or_eq_true, or_assoc, Bool.not_eq_true', bne_iff_ne]
  rw [checkRsfeed_eq, hbad, firstError_cons_true]

/-- A stream that takes a feed: only the operands' checks are left. -/
theorem checkRsfeed_of_open (hcfg : s.rs.cfg = true) (hlast : s.rs.last = false)
    (hrem : s.rs.srcRem = 0) :
    checkRsfeed src len flags s = firstError
      [(flagsReserved flags != 0, .param),
       (len.toNat % s.rs.ch != 0, .malformed),
       (!inRange s.params src.toNat len.toNat, .range)] := by
  rw [checkRsfeed_eq, hcfg, hlast, hrem]
  rfl

theorem flagsReserved_bne_zero_of_le {flags : Word} (h : flags.toNat ≤ 1) :
    (flagsReserved flags != 0) = false := by
  rw [(flagsReserved_eq_zero_iff flags).2 h]
  rfl

theorem checkRsfeed_of_flags (hcfg : s.rs.cfg = true) (hlast : s.rs.last = false)
    (hrem : s.rs.srcRem = 0) (h : 2 ≤ flags.toNat) : checkRsfeed src len flags s = some .param := by
  have hbad : (flagsReserved flags != 0) = true := by
    rw [bne_iff_ne, Ne, flagsReserved_eq_zero_iff]
    omega
  rw [checkRsfeed_of_open hcfg hlast hrem, hbad, firstError_cons_true]

theorem checkRsfeed_of_malformed (hcfg : s.rs.cfg = true) (hlast : s.rs.last = false)
    (hrem : s.rs.srcRem = 0) (hflags : flags.toNat ≤ 1) (h : len.toNat % s.rs.ch ≠ 0) :
    checkRsfeed src len flags s = some .malformed := by
  rw [checkRsfeed_of_open hcfg hlast hrem, flagsReserved_bne_zero_of_le hflags, firstError_cons_false,
    bne_iff_ne.2 h, firstError_cons_true]

/-- Past the flags and the frames only the range is left. -/
theorem checkRsfeed_of_frames (hcfg : s.rs.cfg = true) (hlast : s.rs.last = false)
    (hrem : s.rs.srcRem = 0) (hflags : flags.toNat ≤ 1) (h : len.toNat % s.rs.ch = 0) :
    checkRsfeed src len flags s = firstError [(!inRange s.params src.toNat len.toNat, .range)] := by
  rw [checkRsfeed_of_open hcfg hlast hrem, flagsReserved_bne_zero_of_le hflags, h]
  rfl

theorem checkRsfeed_of_not_inRange (hcfg : s.rs.cfg = true) (hlast : s.rs.last = false)
    (hrem : s.rs.srcRem = 0) (hflags : flags.toNat ≤ 1) (hframes : len.toNat % s.rs.ch = 0)
    (h : ¬ s.InRange src.toNat len.toNat) : checkRsfeed src len flags s = some .range := by
  rw [checkRsfeed_of_frames hcfg hlast hrem hflags hframes, (s.not_inRange_iff _ _).2 h,
    firstError_cons_true]

theorem checkRsfeed_of_ok (hcfg : s.rs.cfg = true) (hlast : s.rs.last = false)
    (hrem : s.rs.srcRem = 0) (hflags : flags.toNat ≤ 1) (hframes : len.toNat % s.rs.ch = 0)
    (h : s.InRange src.toNat len.toNat) : checkRsfeed src len flags s = none := by
  rw [checkRsfeed_of_frames hcfg hlast hrem hflags hframes, (inRange_iff _ _ _).2 h]
  rfl

theorem checkRsrun_of_unconfigured (h : s.rs.cfg = false) : checkRsrun dst max s = some .rsState := by
  rw [checkRsrun, h, Bool.not_false, firstError_cons_true]

theorem checkRsrun_of_not_inRange (hcfg : s.rs.cfg = true)
    (h : ¬ s.InRange dst.toNat (max.toNat * s.rs.ch)) : checkRsrun dst max s = some .range := by
  rw [checkRsrun, hcfg, Bool.not_true, firstError_cons_false, (s.not_inRange_iff _ _).2 h,
    firstError_cons_true]

/-- Past the range only the overlap with the words still fed is left (44_resampler.md R292). -/
theorem checkRsrun_of_inRange (hcfg : s.rs.cfg = true)
    (h : s.InRange dst.toNat (max.toNat * s.rs.ch)) :
    checkRsrun dst max s =
      if overlap dst.toNat (max.toNat * s.rs.ch) s.rs.srcPtr s.rs.srcRem then some .overlap
      else none := by
  rw [checkRsrun, hcfg, (inRange_iff _ _ _).2 h]
  rfl

/-! ## Past the checks -/

theorem exec_rscfg_of_ok (h : checkRscfg ch srcRate dstRate s = none) :
    exec (.rscfg ch srcRate dstRate) s = .next
      ((s.setRs (configured s.params ch.toNat srcRate.toNat dstRate.toNat)).complete 0 0) := by
  rw [exec, execRscfg, h]

theorem exec_rsfeed_of_ok (h : checkRsfeed src len flags s = none) :
    exec (.rsfeed src len flags) s = .next
      ((s.setRs (fed s.rs src.toNat len.toNat (flagLast flags))).complete
        (natWord (len.toNat / s.rs.ch)) 0) := by
  rw [exec, execRsfeed, h]

theorem exec_rsrun_of_ok {r : RunResult} (hc : checkRsrun dst max s = none)
    (hr : rsRunLoop s.mem s.params.taps max.toNat s.draws s.rs = .ok r) :
    exec (.rsrun dst max) s = .next
      ((((s.store dst.toNat r.frames.flatten).setRs r.rs).draw r.frames.flatten.length).complete
        (natWord r.frames.length) r.reason.code) := by
  simp only [exec, execRsrun, hc, hr]

end

/-- Settles O34: each premise decides the check it is about and lets the earlier ones pass. -/
theorem resamplerErrorsInOrder : Obligations.ResamplerErrorsInOrder := by
  unfold Obligations.ResamplerErrorsInOrder
  intro a b c s
  exact ⟨fun h => exec_of_check_some (i := .rscfg a b c) (checkRscfg_of_not_legal h),
    fun h => exec_of_check_some (i := .rsfeed a b c) (checkRsfeed_of_state h),
    fun hcfg hlast hrem =>
      ⟨fun h => exec_of_check_some (i := .rsfeed a b c) (checkRsfeed_of_flags hcfg hlast hrem h),
       fun hflags h =>
        exec_of_check_some (i := .rsfeed a b c) (checkRsfeed_of_malformed hcfg hlast hrem hflags h),
       fun hflags hframes h => exec_of_check_some (i := .rsfeed a b c)
        (checkRsfeed_of_not_inRange hcfg hlast hrem hflags hframes h)⟩,
    fun h => exec_of_check_some (i := .rsrun a b) (checkRsrun_of_unconfigured h),
    fun hcfg h => exec_of_check_some (i := .rsrun a b) (checkRsrun_of_not_inRange hcfg h),
    fun hcfg hdst h => exec_of_check_some (i := .rsrun a b)
      ((checkRsrun_of_inRange hcfg hdst).trans (if_pos h))⟩

/-! ## RSCFG and RSFEED -/

/-- A success that only replaces `rs` is a completion in the sense of 40_common.md R152. -/
theorem State.succeedsTo_setRs (s : State) (rs : Resampler) (r0 r1 : Word) :
    s.SucceedsTo ((s.setRs rs).complete r0 r1) r0 r1 :=
  s.succeedsTo_complete 0 [] rs 0 r0 r1

theorem eq_zero_of_mem_zeroHist {p : Config.Params} {h : History} (hh : h ∈ Resampler.zeroHist p)
    {w : Word} (hw : w ∈ h) : w = 0 := by
  rw [Resampler.zeroHist] at hh
  rw [List.eq_of_mem_replicate hh] at hw
  exact List.eq_of_mem_replicate hw

/-- Settles O32: past its checks RSCFG replaces `rs` by the configured one. -/
theorem rscfgConfigures : Obligations.RscfgConfigures := by
  unfold Obligations.RscfgConfigures
  intro ch sr dr s hch hchMax hsr hsrMax hdr hdrMax
  have hc := (checkRscfg_eq_none_iff ch sr dr s).2 ⟨⟨hch, hchMax⟩, ⟨hsr, hsrMax⟩, hdr, hdrMax⟩
  obtain ⟨hrows, htaps⟩ := (Resampler.sound_reset s.params).shape
  exact ⟨_, exec_rscfg_of_ok hc, s.succeedsTo_setRs _ 0 0, rfl, rfl, rfl, rfl, rfl, rfl, rfl, rfl, rfl,
    rfl, rfl, rfl, hrows, fun h hh => ⟨htaps h hh, fun w => eq_zero_of_mem_zeroHist hh⟩⟩

/-- Settles O33: past its checks RSFEED replaces `rs` by the fed one, whose flag bit 0 is LAST. -/
theorem rsfeedAccepts : Obligations.RsfeedAccepts := by
  unfold Obligations.RsfeedAccepts
  intro src len flags s hcfg hlast hrem hflags hframes hsrc
  refine ⟨_, exec_rsfeed_of_ok (checkRsfeed_of_ok hcfg hlast hrem hflags hframes hsrc),
    s.succeedsTo_setRs _ _ 0, rfl, rfl, ?fields⟩
  case fields =>
    show fed s.rs src.toNat len.toNat (flagLast flags) = _
    rw [fed, flagLast_iff hflags]
    congr 1
    rcases Nat.eq_zero_or_pos len.toNat with h0 | hpos
    · rw [if_neg (by omega), if_pos h0]
    · rw [if_pos hpos, if_neg (by omega)]

/-! ## One pull -/

/-- A frame whose words hold values is pulled (44_resampler.md R297). -/
theorem pull_of_holds {m : Memory} {rs : Resampler} {vs : List Word} (hlen : vs.length = rs.ch)
    (h : m.holds rs.srcPtr vs) :
    pull m rs = .ok { rs with
      hist := shiftFrame rs.hist vs, srcPtr := rs.srcPtr + rs.ch, srcRem := rs.srcRem - rs.ch } := by
  have hread : m.readWords rs.srcPtr rs.ch = .ok vs := hlen ▸ Memory.readWords_of_holds h
  simp only [pull, hread]

/-- Places but the newest take the sample one place newer (10_state.md R63). -/
theorem shiftIn_getElem?_older {h : History} (v : Word) {k : Nat} (hk : k + 1 < h.length) :
    (shiftIn h v)[k]? = h[k + 1]? := by
  rw [shiftIn, List.getElem?_append_left (by rw [List.length_drop]; omega), List.getElem?_drop,
    Nat.add_comm]

/-- The newest place takes the sample shifted in (10_state.md R63). -/
theorem shiftIn_getElem?_newest (h : History) (v : Word) :
    (shiftIn h v)[h.length - 1]? = some v := by
  rw [shiftIn, ← List.length_drop, List.getElem?_concat_length]

/-- Settles O35: the pull answers, and each history is shifted or kept by its channel's number. -/
theorem pullShiftsOneFrame : Obligations.PullShiftsOneFrame := by
  unfold Obligations.PullShiftsOneFrame
  intro m p rs vs _ hs _ hlen hval hrem
  obtain ⟨-, hrow⟩ := hs.shape
  refine ⟨_, pull_of_holds hlen hval, rfl, Nat.sub_add_cancel hrem, rfl, shiftFrame_length _ _,
    fun c h h' hc hc' => ?_⟩
  have htaps : h.length = p.taps := hrow h (List.mem_of_getElem? hc)
  change (shiftFrame rs.hist vs)[c]? = some h' at hc'
  rw [shiftFrame_getElem?, hc] at hc'
  constructor
  · intro hlt
    have hv : vs[c]? = some vs[c] := List.getElem?_eq_getElem (hlen.symm ▸ hlt)
    rw [hv] at hc'
    obtain rfl : shiftIn h vs[c] = h' := Option.some.inj hc'
    rw [hv, ← htaps]
    exact ⟨fun k hk => shiftIn_getElem?_older _ hk, shiftIn_getElem?_newest h _⟩
  · intro hge
    have hv : vs[c]? = none := List.getElem?_eq_none (hlen.symm ▸ hge)
    rw [hv] at hc'
    exact (Option.some.inj hc').symm

/-! ## Exhaustion -/

/-- A run of an exhausted resampler produces nothing and keeps `rs` (44_resampler.md R299). -/
theorem rsRunLoop_of_exh {rs : Resampler} (h : rs.exh = true) (m : Memory) (taps k d : Nat) :
    rsRunLoop m taps k d rs =
      .ok { frames := [], reason := if k = 0 then .max else .exhausted, rs := rs } := by
  cases k with
  | zero => rfl
  | succ k => simp [rsRunLoop, rsStep, h]

/-- Settles O39: with no word left in the feed nothing can overlap, and the run stops at once. -/
theorem exhaustionIsSticky : Obligations.ExhaustionIsSticky := by
  unfold Obligations.ExhaustionIsSticky
  intro dst max s hcfg hexh hrem hdst
  have hc : checkRsrun dst max s = none := by
    rw [checkRsrun_of_inRange hcfg hdst, if_neg]
    rw [hrem, overlap_iff]
    omega
  have hcode : (if max.toNat = 0 then StopReason.max else .exhausted).code =
      if max.toNat = 0 then 0 else 2 := by
    split <;> rfl
  exact ⟨_, exec_rsrun_of_ok hc (rsRunLoop_of_exh hexh _ _ _ _),
    hcode ▸ s.succeedsTo_complete dst.toNat [] s.rs 0 0 _, rfl, rfl⟩

/-! ## The ideal interpolation at phase 0 -/

section
open Real

/-- `K` at the whole numbers: 1 at 0, and 0 elsewhere, where `sinc` is 0 (44_resampler.md R274). -/
theorem interpKernel_intCast (taps : ℕ) (n : ℤ) :
    interpKernel taps n = if n = 0 then 1 else 0 := by
  unfold interpKernel
  split
  case isTrue h =>
    have hzero : |(0 : ℝ)| ≤ (taps : ℝ) / 2 := by rw [abs_zero]; positivity
    rw [h, Int.cast_zero, sincKernel, if_pos rfl, hann, if_pos hzero, mul_zero, zero_div, cos_zero]
    norm_num
  case isFalse h =>
    rw [sincKernel, if_neg (Int.cast_ne_zero.2 h), mul_comm π, sin_int_mul_pi, zero_div, zero_mul]

theorem padded_of_lt {xs : List Word} {n : ℕ} (h : n < xs.length) :
    padded xs n = (val32 (xs.getD n 0) : ℝ) := by
  simp [padded, h]

/-- Settles O40: at phase 0 the kernel is read at the whole numbers `k - r` only. -/
theorem idealInterpolationAtZeroPhase : Obligations.IdealInterpolationAtZeroPhase := by
  unfold Obligations.IdealInterpolationAtZeroPhase
  intro taps dstRate h _ htaps hlen
  have hr : refTap taps < taps := by
    unfold refTap
    omega
  have harg : ∀ k : ℕ, ((k : ℝ) - (refTap taps : ℝ) - ((0 : ℕ) : ℝ) / dstRate) =
      (((k : ℤ) - (refTap taps : ℤ) : ℤ) : ℝ) := fun k => by
    push_cast
    ring
  calc idealInterp taps h 0 dstRate
      = ∑ k ∈ Finset.range taps, padded h k * if k = refTap taps then 1 else 0 :=
        Finset.sum_congr rfl fun k _ => by
          rw [harg, interpKernel_intCast]
          simp only [sub_eq_zero, Nat.cast_inj]
    _ = padded h (refTap taps) := by
        simp only [mul_ite, mul_one, mul_zero, Finset.sum_ite_eq', Finset.mem_range, if_pos hr]
    _ = (val32 (h.getD (taps / 2 - 1) 0) : ℝ) := padded_of_lt (hlen.symm ▸ hr)

end

end Sys2Proof.Machine
end

section
/-! PROOFS. RSRUN as a whole: where a run stands between its outputs, the frames it produces, how it
ends, and the source it reproduces at the identity ratio (44_resampler.md R271, R276, R278, R290,
R296-R299). -/

namespace Sys2Proof.Machine

/-! ## Phases and pulls -/

theorem Resampler.phaseAt_add_pullsAt_mul (rs : Resampler) (n : Nat) :
    rs.phaseAt n + rs.pullsAt n * rs.dstRate = rs.totalPhase n :=
  Nat.mod_add_div' _ _

/-- The phase only grows, and with it the pulls (44_resampler.md R271). -/
theorem Resampler.pullsAt_mono (rs : Resampler) : Monotone rs.pullsAt := fun _ _ h =>
  Nat.div_le_div_right (Nat.add_le_add_left (Nat.mul_le_mul_right _ h) _)

theorem Resampler.framesPulled_of_pos {rs : Resampler} (he : rs.exh = false) {max : Nat}
    (h : max ≠ 0) :
    rs.framesPulled max = min (rs.srcRem / rs.ch) (rs.pullsAt (max - 1)) := by
  simp [Resampler.framesPulled, he, h]

theorem Resampler.framesPulled_zero (rs : Resampler) : rs.framesPulled 0 = 0 := by
  simp [Resampler.framesPulled]

/-- The frames a run has pulled before its output `n`: those of the output before it. -/
def Resampler.pulledBefore (rs : Resampler) : Nat → Nat
  | 0 => 0
  | n + 1 => rs.pullsAt n

/-- The phase of a run before its output `n`, the units it took off for its pulls put back. -/
def Resampler.phaseBefore (rs : Resampler) : Nat → Nat
  | 0 => rs.posNum
  | n + 1 => rs.totalPhase n

/-- `pend` of a run before its output `n`: an output produced leaves no increment pending. -/
def Resampler.pendBefore (rs : Resampler) : Nat → Bool
  | 0 => rs.pend
  | _ + 1 => false

/-! ## What a run needs -/

/-- What a run needs of the resampler it starts from. The bounds of the fed region are not among it:
the words pulled need only hold values. -/
structure Resampler.CanRun (p : Config.Params) (rs : Resampler) : Prop where
  taps_pos : 1 ≤ p.taps
  shape : rs.histShape p
  ch_pos : 1 ≤ rs.ch
  ch_le : rs.ch ≤ p.chMax
  dst_pos : 1 ≤ rs.dstRate
  whole_frames : rs.srcRem % rs.ch = 0
  exh : rs.exh = false

/-- The legal numbers of taps (00_scope.md R7). -/
theorem taps_of_legal {p : Config.Params} (h : p.legal = true) :
    p.taps % 2 = 0 ∧ 2 ≤ p.taps := by
  simp only [Config.Params.legal, Bool.and_eq_true, decide_eq_true_eq] at h
  omega

theorem taps_pos_of_legal {p : Config.Params} (h : p.legal = true) : 1 ≤ p.taps := by
  obtain ⟨-, ht⟩ := taps_of_legal h
  omega

theorem Resampler.Sound.canRun {p : Config.Params} {rs : Resampler} (hs : rs.Sound p)
    (hp : p.legal = true) (hcfg : rs.cfg = true) (he : rs.exh = false) : rs.CanRun p :=
  have hb := hs.configured hcfg
  { taps_pos := taps_pos_of_legal hp
    shape := hs.shape
    ch_pos := hb.ch_pos
    ch_le := hb.ch_le
    dst_pos := hb.dst_pos
    whole_frames := hb.whole_frames
    exh := he }

section
variable {p : Config.Params} {rs0 rs : Resampler} {xs : List Word}

theorem Resampler.CanRun.srcRem_eq (hc : rs0.CanRun p) : rs0.srcRem = rs0.srcRem / rs0.ch * rs0.ch :=
  (Nat.div_mul_cancel (Nat.dvd_of_mod_eq_zero hc.whole_frames)).symm

/-- Every channel of the configuration has a history. -/
theorem Resampler.CanRun.hist_getElem? (hc : rs0.CanRun p) {c : Nat} (h : c < rs0.ch) :
    ∃ h0, rs0.hist[c]? = some h0 := by
  obtain ⟨hrows, -⟩ := hc.shape
  exact ⟨_, List.getElem?_eq_getElem (by rw [hrows]; exact h.trans_le hc.ch_le)⟩

/-! ## Between two outputs -/

/-- `rs` is where a run from `rs0` rests before its output `n`: all pulls of the outputs before it are
made and no others. -/
structure Resampler.AtRest (p : Config.Params) (rs0 : Resampler) (xs : List Word) (n : Nat)
    (rs : Resampler) : Prop where
  before : rs0.BeforeOutput p.taps xs n (rs0.pulledBefore n) rs
  posNum : rs.posNum + rs0.pulledBefore n * rs0.dstRate = rs0.phaseBefore n
  pend : rs.pend = rs0.pendBefore n

theorem Resampler.CanRun.atRest_zero (hc : rs0.CanRun p) (xs : List Word) : rs0.AtRest p xs 0 rs0 :=
  { before := .start xs hc.shape.2 hc.exh
    posNum := by simp [Resampler.pulledBefore, Resampler.phaseBefore]
    pend := rfl }

/-- No run pulls more than was fed. -/
theorem Resampler.AtRest.pulledBefore_le (hc : rs0.CanRun p) {n : Nat} (h : rs0.AtRest p xs n rs) :
    rs0.pulledBefore n ≤ rs0.srcRem / rs0.ch :=
  (Nat.le_div_iff_mul_le hc.ch_pos).2 h.before.pulls.bound

/-- `rs` is where a run from `rs0` stops when its output `j` wants more frames than were fed: all of
them are pulled and the increment is pending (44_resampler.md R296, R299). -/
structure Resampler.Starved (p : Config.Params) (rs0 : Resampler) (xs : List Word) (j : Nat)
    (rs : Resampler) : Prop where
  wants : rs0.srcRem / rs0.ch < rs0.pullsAt j
  pulls : rs0.AfterPulls p.taps xs (rs0.srcRem / rs0.ch) rs
  posNum : rs.posNum + rs0.srcRem / rs0.ch * rs0.dstRate = rs0.totalPhase j
  pend : rs.pend = true
  exh : rs.exh = rs0.last

/-! ## One output -/

theorem isOutputWord_outputWord (taps posNum dstRate d : Nat) (h : History) :
    IsOutputWord taps posNum dstRate h (outputWord taps posNum dstRate d h) := by
  refine ⟨fun h0 => ?copy, fun h0 hz => ?zeros, fun h0 hf hz => ?ordinary⟩
  case copy => rw [h0, outputWord_zero_phase]
  case zeros =>
    rw [outputWord, if_neg h0, if_pos hz]
    exact signedZero_cases _
  case ordinary => simp [outputWord, h0, hf, hz]

/-- `y` is output frame `n` of a run from `rs0`: the feed could supply its pulls, and it has the output
word of 44_resampler.md R276 for each channel. -/
structure Resampler.IsFrame (p : Config.Params) (rs0 : Resampler) (xs : List Word) (n : Nat)
    (y : List Word) : Prop where
  supplied : rs0.pullsAt n ≤ rs0.srcRem / rs0.ch
  length : y.length = rs0.ch
  word : ∀ c < rs0.ch, ∃ h0 w, rs0.hist[c]? = some h0 ∧ y[c]? = some w ∧
    IsOutputWord p.taps (rs0.phaseAt n) rs0.dstRate
      (pulledHistory p.taps rs0.ch c (rs0.pullsAt n) h0 xs) w

/-- The frame made from the histories after the pulls of output `n` is output frame `n`. -/
theorem Resampler.AfterPulls.isFrame (hc : rs0.CanRun p) {n : Nat}
    (hn : rs0.pullsAt n ≤ rs0.srcRem / rs0.ch) (h : rs0.AfterPulls p.taps xs (rs0.pullsAt n) rs)
    (d : Nat) :
    rs0.IsFrame p xs n
      (outputFrame p.taps (rs0.phaseAt n) rs0.dstRate d (rs.hist.take rs0.ch)) := by
  obtain ⟨hrows, -⟩ := hc.shape
  refine { supplied := hn, length := ?length, word := fun c hlt => ?word }
  case length =>
    rw [outputFrame_length, List.length_take, h.histLength, hrows, Nat.min_eq_left hc.ch_le]
  case word =>
    obtain ⟨h0, hh0⟩ := hc.hist_getElem? hlt
    refine ⟨h0, _, hh0, ?_, isOutputWord_outputWord _ _ _ (d + c) _⟩
    rw [outputFrame_getElem?, List.getElem?_take_of_lt hlt, h.pulled c hlt h0 hh0, Option.map_some]

/-- One step of a run at rest before output `n`: it produces that frame and rests again, or it stops
for want of source (44_resampler.md R296). -/
theorem Resampler.AtRest.step {m : Memory} {n : Nat} (hc : rs0.CanRun p) (hm : m.holds rs0.srcPtr xs)
    (hx : min (rs0.pullsAt n) (rs0.srcRem / rs0.ch) * rs0.ch ≤ xs.length)
    (h : rs0.AtRest p xs n rs) (d : Nat) :
    (∃ y rs', rsStep m p.taps d rs = .ok (.out y, rs') ∧ rs0.IsFrame p xs n y ∧
      rs0.AtRest p xs (n + 1) rs') ∨
    (∃ rs', rsStep m p.taps d rs = .ok (if rs0.last then .exhausted else .needSrc, rs') ∧
      rs0.Starved p xs n rs') := by
  obtain ⟨hout, hstop⟩ := h.before.step (d := d) hc.taps_pos hc.ch_pos hc.dst_pos hc.srcRem_eq hx hm
    (h.pulledBefore_le hc)
  rcases Nat.lt_or_ge (rs0.srcRem / rs0.ch) (rs0.pullsAt n) with hlt | hle
  · obtain ⟨rs', hpulls, hpend, hexh, hpos, hstep⟩ := hstop hlt
    exact .inr ⟨rs', hstep, hlt, hpulls, hpos, hpend, hexh⟩
  · obtain ⟨rs', hbefore, hpend, hpos, hstep⟩ := hout hle
    exact .inl ⟨_, rs', hstep, hbefore.pulls.isFrame hc hle d, hbefore,
      hpos ▸ rs0.phaseAt_add_pullsAt_mul n, hpend⟩

/-! ## How a run ends -/

/-- How a run from `rs0` that wants `max` outputs ends, `j` of them produced (44_resampler.md R290). -/
inductive Resampler.RunEnd (p : Config.Params) (rs0 : Resampler) (xs : List Word) (max : Nat) :
    Nat → StopReason → Resampler → Prop
  | reachedMax {rs : Resampler} (h : rs0.AtRest p xs max rs) : RunEnd p rs0 xs max max .max rs
  | starved {j : Nat} {rs : Resampler} (hj : j < max) (h : rs0.Starved p xs j rs) :
    RunEnd p rs0 xs max j (if rs0.last then .exhausted else .needSrc) rs

/-- The loop of RSRUN from rest before output `n`, with the words of all frames it reaches in place:
the frames it produces are output `n` and those after it. -/
theorem Resampler.AtRest.run {m : Memory} {n k d : Nat} (hc : rs0.CanRun p)
    (hm : m.holds rs0.srcPtr xs)
    (hx : ∀ i < n + k, min (rs0.pullsAt i) (rs0.srcRem / rs0.ch) * rs0.ch ≤ xs.length)
    (h : rs0.AtRest p xs n rs) :
    ∃ r, rsRunLoop m p.taps k d rs = .ok r ∧
      rs0.RunEnd p xs (n + k) (n + r.frames.length) r.reason r.rs ∧
      ∀ i y, r.frames[i]? = some y → rs0.IsFrame p xs (n + i) y := by
  induction k generalizing n d rs with
  | zero => exact ⟨_, rfl, .reachedMax h, by simp⟩
  | succ k ih =>
    have hassoc : n + 1 + k = n + (k + 1) := by omega
    obtain ⟨y, rs', hstep, hy, hrest⟩ | ⟨rs', hstep, hstarved⟩ := h.step hc hm (hx n (by omega)) d
    · obtain ⟨r, hr, hend, hframes⟩ := ih (d := d + y.length) (hassoc ▸ hx) hrest
      refine ⟨{ r with frames := y :: r.frames }, by simp only [rsRunLoop, hstep, hr], ?ends,
        fun i z hz => ?frame⟩
      case ends =>
        rw [hassoc, Nat.add_right_comm] at hend
        exact hend
      case frame =>
        cases i with
        | zero => exact Option.some.inj hz ▸ hy
        | succ i =>
          have := hframes i z hz
          rwa [Nat.add_right_comm] at this
    · refine ⟨{ frames := [], reason := if rs0.last then .exhausted else .needSrc, rs := rs' }, ?_,
        .starved (by simp) hstarved, by simp⟩
      rw [rsRunLoop, hstep]
      cases rs0.last <;> rfl

section
variable {max j : Nat} {reason : StopReason}

theorem Resampler.RunEnd.le_max (h : rs0.RunEnd p xs max j reason rs) : j ≤ max := by
  cases h with
  | reachedMax h => exact le_rfl
  | starved hj h => exact hj.le

theorem Resampler.RunEnd.wants (h : rs0.RunEnd p xs max j reason rs) (hj : j < max) :
    rs0.srcRem / rs0.ch < rs0.pullsAt j := by
  cases h with
  | reachedMax h => exact absurd hj (Nat.lt_irrefl _)
  | starved _ h => exact h.wants

/-- RESULT1 says which limit came first (40_common.md R158). -/
theorem Resampler.RunEnd.code (h : rs0.RunEnd p xs max j reason rs) :
    reason.code = if j = max then 0 else if rs0.last then 2 else 1 := by
  cases h with
  | reachedMax h => exact (if_pos rfl).symm
  | starved hj h =>
    rw [if_neg hj.ne]
    cases rs0.last <;> rfl

theorem Resampler.RunEnd.code_ne_zero_iff (h : rs0.RunEnd p xs max j reason rs) :
    reason.code ≠ 0 ↔ j < max := by
  rw [h.code, lt_iff_le_and_ne, and_iff_right h.le_max, Ne, not_iff_not]
  split
  case isTrue heq => simp [heq]
  case isFalse hne => cases rs0.last <;> simp [hne]

/-- However a run ends, it has pulled the frames of its last output or all that were fed. -/
theorem Resampler.RunEnd.pulls (hc : rs0.CanRun p) (h : rs0.RunEnd p xs max j reason rs) :
    rs0.AfterPulls p.taps xs (rs0.framesPulled max) rs := by
  cases h with
  | reachedMax h =>
    have hpulled : rs0.framesPulled max = rs0.pulledBefore max := by
      cases max with
      | zero => exact rs0.framesPulled_zero
      | succ n =>
        rw [Resampler.framesPulled_of_pos hc.exh n.succ_ne_zero]
        exact Nat.min_eq_right (h.pulledBefore_le hc)
    exact hpulled ▸ h.before.pulls
  | starved hj h =>
    have hlast : rs0.pullsAt j ≤ rs0.pullsAt (max - 1) := rs0.pullsAt_mono (Nat.le_sub_one_of_lt hj)
    rw [Resampler.framesPulled_of_pos hc.exh (Nat.ne_zero_of_lt hj),
      Nat.min_eq_left (h.wants.le.trans hlast)]
    exact h.pulls

theorem Resampler.RunEnd.exh_eq (h : rs0.RunEnd p xs max j reason rs) :
    rs.exh = decide (reason.code = 2) := by
  cases h with
  | reachedMax h => exact h.before.exh
  | starved hj h =>
    rw [h.exh]
    cases rs0.last <;> rfl

theorem Resampler.RunEnd.pend_eq (h : rs0.RunEnd p xs max j reason rs) :
    rs.pend = if j = 0 ∧ reason.code = 0 then rs0.pend else decide (reason.code ≠ 0) := by
  cases h with
  | reachedMax h =>
    rw [h.pend]
    cases max <;> rfl
  | starved hj h =>
    rw [h.pend]
    cases rs0.last <;> simp [StopReason.code]

end

/-! ## The run as a command -/

/-- RSRUN past its checks, the words of the frames it pulls in place: the loop answers, and the command
stores its frames. -/
theorem exec_rsrun_completes {dst max : Word} {s : State} (hc : checkRsrun dst max s = none)
    (hr : s.rs.CanRun s.params) (hlen : xs.length = s.rs.framesPulled max.toNat * s.rs.ch)
    (hval : s.mem.holds s.rs.srcPtr xs) :
    ∃ r : RunResult, exec (.rsrun dst max) s = .next
        ((((s.store dst.toNat r.frames.flatten).setRs r.rs).draw r.frames.flatten.length).complete
          (natWord r.frames.length) r.reason.code) ∧
      s.rs.RunEnd s.params xs max.toNat r.frames.length r.reason r.rs ∧
      ∀ i y, r.frames[i]? = some y → s.rs.IsFrame s.params xs i y := by
  have hx : ∀ i < 0 + max.toNat,
      min (s.rs.pullsAt i) (s.rs.srcRem / s.rs.ch) * s.rs.ch ≤ xs.length := fun i hi => by
    rw [hlen, Resampler.framesPulled_of_pos hr.exh (by omega), Nat.min_comm]
    exact Nat.mul_le_mul_right _ (min_le_min_left _ (s.rs.pullsAt_mono (by omega)))
  obtain ⟨r, hrun, hend, hframes⟩ := (hr.atRest_zero xs).run (d := s.draws) hr hval hx
  simp only [Nat.zero_add] at hend hframes
  exact ⟨r, exec_rsrun_of_ok hc hrun, hend, hframes⟩

end

/-! ## The frames in memory -/

theorem length_flatten_of_uniform {frames : List (List Word)} {n : Nat}
    (h : ∀ y ∈ frames, y.length = n) : frames.flatten.length = frames.length * n := by
  rw [List.length_flatten, List.map_congr_left h, List.map_const', List.sum_replicate, smul_eq_mul]

/-- Frame `i` of frames of one length starts at word `i * n` of them all (44_resampler.md R275). -/
theorem flatten_getElem?_of_uniform {frames : List (List Word)} {n : Nat}
    (h : ∀ y ∈ frames, y.length = n) {i c : Nat} (hc : c < n) {y : List Word}
    (hy : frames[i]? = some y) : frames.flatten[i * n + c]? = y[c]? := by
  induction frames generalizing i with
  | nil => simp at hy
  | cons z frames ih =>
    have hz : z.length = n := h z (by simp)
    rw [List.flatten_cons]
    cases i with
    | zero =>
      obtain rfl : z = y := Option.some.inj hy
      rw [Nat.zero_mul, Nat.zero_add, List.getElem?_append_left (hz.symm ▸ hc)]
    | succ i =>
      have hsub : (i + 1) * n + c - z.length = i * n + c := by rw [Nat.succ_mul]; omega
      rw [List.getElem?_append_right (by rw [Nat.succ_mul]; omega), hsub]
      exact ih (fun w hw => h w (List.mem_cons_of_mem _ hw)) hy

/-- A word of the frames stored, by its frame and its channel. -/
theorem State.readWord_store_frames (s : State) (dst : Nat) {frames : List (List Word)} {n : Nat}
    (h : ∀ y ∈ frames, y.length = n) {i c : Nat} (hc : c < n) {y : List Word} {w : Word}
    (hy : frames[i]? = some y) (hw : y[c]? = some w) :
    (s.store dst frames.flatten).mem.readWord (dst + i * n + c) = some w := by
  obtain ⟨hlt, hget⟩ :=
    List.getElem?_eq_some_iff.1 ((flatten_getElem?_of_uniform h hc hy).trans hw)
  rw [Nat.add_assoc]
  exact hget ▸ s.mem.readWord_writeWords_inside dst _ hlt

/-- What the frames of a run leave in memory: one word a channel and frame, and every byte outside as
before. -/
theorem stored_frames {p : Config.Params} {rs0 : Resampler} {xs : List Word}
    {frames : List (List Word)} (s : State) (dst : Nat)
    (hframes : ∀ i y, frames[i]? = some y → rs0.IsFrame p xs i y) :
    s.sameOutside (s.store dst frames.flatten) dst (frames.length * rs0.ch) ∧
    ∀ n < frames.length, ∀ c < rs0.ch, ∃ h0 w, rs0.hist[c]? = some h0 ∧
      (s.store dst frames.flatten).mem.readWord (dst + n * rs0.ch + c) = some w ∧
      IsOutputWord p.taps (rs0.phaseAt n) rs0.dstRate
        (pulledHistory p.taps rs0.ch c (rs0.pullsAt n) h0 xs) w := by
  have huniform : ∀ y ∈ frames, y.length = rs0.ch := fun y hy => by
    obtain ⟨i, hi⟩ := List.getElem?_of_mem hy
    exact (hframes i y hi).length
  refine ⟨s.sameOutside_storeWords dst (length_flatten_of_uniform huniform), fun n hn c hc => ?_⟩
  have hy := List.getElem?_eq_getElem hn
  obtain ⟨h0, w, hh0, hw, hout⟩ := (hframes n _ hy).word c hc
  exact ⟨h0, w, hh0, s.readWord_store_frames dst huniform hc hy hw, hout⟩

/-- Settles O36: the frames are those of the run's loop, and how it ended says the rest. -/
theorem rsrunProducesTheStream : Obligations.RsrunProducesTheStream := by
  unfold Obligations.RsrunProducesTheStream
  intro dst max s xs hp hs hcfg hexh hdst hmeet hlen hval
  have hc : checkRsrun dst max s = none := by
    rw [checkRsrun_of_inRange hcfg hdst, hmeet]
    rfl
  have hr := hs.canRun hp hcfg hexh
  obtain ⟨r, hexec, hend, hframes⟩ := exec_rsrun_completes hc hr hlen hval
  obtain ⟨hframe, hwords⟩ := stored_frames s dst.toNat hframes
  have hpulls := hend.pulls hr
  refine ⟨_, r.frames.length, r.reason.code, hexec, s.succeedsTo_complete dst.toNat _ r.rs _ _ _,
    hend.le_max, fun n hn => (hframes n _ (List.getElem?_eq_getElem hn)).supplied, hend.wants,
    hend.code, hframe, hwords, hpulls.srcPtr, ?remaining, hend.exh_eq, hend.pend_eq,
    hpulls.same.cfg.trans hcfg, hpulls.same.ch, hpulls.same.srcRate, hpulls.same.dstRate,
    hpulls.same.last⟩
  case remaining =>
    show r.rs.srcRem + _ = _
    rw [hpulls.srcRem, Nat.sub_add_cancel hpulls.bound]

/-! ## Where a run leaves the resampler -/

section
variable {p : Config.Params} {rs0 rs : Resampler} {xs : List Word}

/-- What `q` pulls leave of the fed region and the histories. -/
theorem Resampler.AfterPulls.region_and_histories {taps q : Nat}
    (h : rs0.AfterPulls taps xs q rs) :
    rs.srcPtr = rs0.srcPtr + q * rs0.ch ∧ rs.srcRem + q * rs0.ch = rs0.srcRem ∧
    rs.hist.length = rs0.hist.length ∧
    ∀ c h0, rs0.hist[c]? = some h0 → rs.hist[c]? = some
      (if c < rs0.ch then pulledHistory taps rs0.ch c q h0 xs else h0) := by
  refine ⟨h.srcPtr, by rw [h.srcRem, Nat.sub_add_cancel h.bound], h.histLength, fun c h0 hh0 => ?_⟩
  split
  case isTrue hlt => exact h.pulled c hlt h0 hh0
  case isFalse hge => rw [h.kept c (not_lt.1 hge), hh0]

/-- The frames pulled and the phase left, told by the results RSRUN reports. -/
theorem Resampler.RunEnd.pulls_and_phase {max j : Nat} {reason : StopReason}
    (h : rs0.RunEnd p xs max j reason rs) {q : Nat}
    (hq : q = if reason.code ≠ 0 then rs0.srcRem / rs0.ch
      else if j = 0 then 0 else rs0.pullsAt (j - 1)) :
    rs0.AfterPulls p.taps xs q rs ∧ rs.posNum + q * rs0.dstRate =
      if reason.code ≠ 0 then rs0.totalPhase j
      else if j = 0 then rs0.posNum else rs0.totalPhase (j - 1) := by
  have hcode := h.code_ne_zero_iff
  cases h with
  | reachedMax h =>
    have hzero := mt hcode.1 (Nat.lt_irrefl _)
    rw [if_neg hzero] at hq ⊢
    have hpulls := h.before.pulls
    have hpos := h.posNum
    cases max with
    | zero => exact hq ▸ ⟨hpulls, hpos⟩
    | succ n => exact hq ▸ ⟨hpulls, hpos⟩
  | starved hj h =>
    rw [if_pos (hcode.2 hj)] at hq ⊢
    exact hq ▸ ⟨h.pulls, h.posNum⟩

end

/-- Settles O37: the results tell how the run ended, and each end says where the pulls left `rs`. -/
theorem rsrunLeavesTheResampler : Obligations.RsrunLeavesTheResampler := by
  unfold Obligations.RsrunLeavesTheResampler
  intro dst max s t xs p hp hs hcfg hexh hlen hval hc hexec hq
  obtain ⟨r, hexec', hend, -⟩ := exec_rsrun_completes hc (hs.canRun hp hcfg hexh) hlen hval
  obtain rfl := Host.Outcome.next.inj (hexec.symm.trans hexec')
  have hnat : (natWord r.frames.length).toNat = r.frames.length := by
    have := hend.le_max
    have := max.isLt
    rw [natWord, BitVec.toNat_ofNat, Nat.mod_eq_of_lt (by omega)]
  have hnone : natWord r.frames.length = 0 ↔ r.frames.length = 0 := by
    rw [← BitVec.toNat_inj, hnat]
    rfl
  simp only [State.complete_result0, State.complete_result1, State.complete_rs, State.draw_rs,
    State.setRs_rs, hnat, hnone] at hq ⊢
  obtain ⟨hpulls, hphase⟩ := hend.pulls_and_phase hq
  obtain ⟨hptr, hrem, hrows, hhist⟩ := hpulls.region_and_histories
  exact ⟨hptr, hrem, hphase, hrows, hhist⟩

/-! ## The identity ratio -/

section
variable {rs : Resampler}

/-- At the identity ratio, with no increment pending, each output takes one pull and leaves phase 0
(44_resampler.md R278). -/
theorem Resampler.totalPhase_of_identity (hpend : rs.pend = false) (hpos : rs.posNum = 0)
    (hrates : rs.srcRate = rs.dstRate) (n : Nat) : rs.totalPhase n = (n + 1) * rs.dstRate := by
  rw [Resampler.totalPhase, hpend, hpos, hrates, Nat.succ_mul]
  simp [Nat.add_comm]

theorem Resampler.pullsAt_of_identity (hpend : rs.pend = false) (hpos : rs.posNum = 0)
    (hrates : rs.srcRate = rs.dstRate) (hd : 1 ≤ rs.dstRate) (n : Nat) : rs.pullsAt n = n + 1 := by
  rw [Resampler.pullsAt, Resampler.totalPhase_of_identity hpend hpos hrates,
    Nat.mul_div_cancel _ hd]

theorem Resampler.phaseAt_of_identity (hpend : rs.pend = false) (hpos : rs.posNum = 0)
    (hrates : rs.srcRate = rs.dstRate) (n : Nat) : rs.phaseAt n = 0 := by
  rw [Resampler.phaseAt, Resampler.totalPhase_of_identity hpend hpos hrates, Nat.mul_mod_left]

end

/-- The reference tap after `n + 1` pulls is T/2 frames older than the newest: zero for the first T/2
outputs of a cleared history, a sample of the feed after them (44_resampler.md R277). -/
theorem pulledHistory_refTap {taps ch c n : Nat} (heven : taps % 2 = 0) (ht : 2 ≤ taps)
    {h0 : History} (hzero : ∀ w ∈ h0, w = 0) (xs : List Word) :
    (pulledHistory taps ch c (n + 1) h0 xs).getD (taps / 2 - 1) 0 =
      if n < taps / 2 then 0x00000000 else xs.getD ((n - taps / 2) * ch + c) 0 := by
  have htap : taps / 2 - 1 < taps := by omega
  have hold : h0.getD (n + 1 + (taps / 2 - 1)) 0 = 0 := by
    rw [List.getD_eq_getElem?_getD]
    cases hw : h0[n + 1 + (taps / 2 - 1)]? with
    | none => rfl
    | some w => exact hzero w (List.mem_of_getElem? hw)
  have hnew : n + 1 + (taps / 2 - 1) - taps = n - taps / 2 := by omega
  rw [pulledHistory, List.getD_eq_getElem _ _ (by simpa using htap), List.getElem_map,
    List.getElem_range, hold, hnew]
  exact if_congr (by omega) rfl rfl

/-- Right after RSCFG and one feed of whole frames a run may start. -/
theorem Resampler.canRun_fed {p : Config.Params} {ch rate frames srcPtr : Nat} (hp : p.legal = true)
    (hch : 1 ≤ ch) (hchMax : ch ≤ p.chMax) (hrate : 1 ≤ rate) :
    ({ configured p ch rate rate with
      last := true, srcPtr := srcPtr, srcRem := frames * ch } : Resampler).CanRun p :=
  { taps_pos := taps_pos_of_legal hp
    shape := (Resampler.sound_reset p).shape
    ch_pos := hch
    ch_le := hchMax
    dst_pos := hrate
    whole_frames := Nat.mul_mod_left _ _
    exh := rfl }

/-- A run in which each output takes one pull produces the frames fed, when it may produce more. -/
theorem Resampler.RunEnd.frames_of_identity {p : Config.Params} {rs0 rs : Resampler}
    {xs : List Word} {max : Nat} {frames : List (List Word)} {reason : StopReason}
    (h : rs0.RunEnd p xs max frames.length reason rs)
    (hframes : ∀ i y, frames[i]? = some y → rs0.IsFrame p xs i y)
    (hpulls : ∀ n, rs0.pullsAt n = n + 1) (hmax : rs0.srcRem / rs0.ch < max) :
    frames.length = rs0.srcRem / rs0.ch := by
  apply Nat.le_antisymm
  · by_contra hmore
    have := (hframes _ _ (List.getElem?_eq_getElem (not_le.1 hmore))).supplied
    rw [hpulls] at this
    omega
  · by_contra hfewer
    have := h.wants (by omega)
    rw [hpulls] at this
    omega

/-- Settles O38: each output of an identity run is the reference tap after one more pull, and the run
stops when the feed has no frame for the next. -/
theorem identityRatioReproducesTheSource : Obligations.IdentityRatioReproducesTheSource := by
  unfold Obligations.IdentityRatioReproducesTheSource
  intro dst max s ch rate frames srcPtr xs hp hch hchMax hrate _ hrs hmax hdst hmeet hlen hval
  have hr : s.rs.CanRun s.params := hrs ▸ Resampler.canRun_fed hp hch hchMax hrate
  obtain ⟨hcfg, hsch, hrates, hpos, hpend, hlast, hptr, hrem, hhist⟩ :
      s.rs.cfg = true ∧ s.rs.ch = ch ∧ s.rs.srcRate = s.rs.dstRate ∧ s.rs.posNum = 0 ∧
      s.rs.pend = false ∧ s.rs.last = true ∧ s.rs.srcPtr = srcPtr ∧ s.rs.srcRem = frames * ch ∧
      s.rs.hist = Resampler.zeroHist s.params := by
    rw [hrs]
    exact ⟨rfl, rfl, rfl, rfl, rfl, rfl, rfl, rfl, rfl⟩
  have hpulls := Resampler.pullsAt_of_identity hpend hpos hrates hr.dst_pos
  have hfed : s.rs.srcRem / s.rs.ch = frames := by rw [hrem, hsch, Nat.mul_div_cancel _ hch]
  have hpulled : s.rs.framesPulled max.toNat = frames := by
    rw [Resampler.framesPulled_of_pos hr.exh (by omega), hfed, hpulls]
    omega
  have hc : checkRsrun dst max s = none := by
    rw [checkRsrun_of_inRange hcfg (hsch.symm ▸ hdst), hsch, hptr, hrem, hmeet]
    rfl
  obtain ⟨r, hexec, hend, hframes⟩ :=
    exec_rsrun_completes hc hr (by rw [hpulled, hsch, hlen]) (hptr.symm ▸ hval)
  obtain ⟨hframe, hwords⟩ := stored_frames s dst.toNat hframes
  have hcount : r.frames.length = frames :=
    (hend.frames_of_identity hframes hpulls (hfed.symm ▸ hmax)).trans hfed
  have hcode : r.reason.code = 2 := by
    rw [hend.code, hcount, if_neg hmax.ne, hlast]
    rfl
  have hdone := s.succeedsTo_complete dst.toNat r.frames.flatten r.rs r.frames.flatten.length
    (natWord r.frames.length) r.reason.code
  rw [hcount, hcode] at hexec hdone
  rw [hcount, hsch] at hframe
  refine ⟨_, hexec, hdone, hframe, hend.exh_eq.trans (decide_eq_true hcode), fun j hj c hlt => ?word⟩
  case word =>
    obtain ⟨h0, w, hh0, hw, hcopy, -⟩ := hwords j (hcount.symm ▸ hj) c (hsch.symm ▸ hlt)
    have hzero : ∀ v ∈ h0, v = 0 := fun v =>
      eq_zero_of_mem_zeroHist (hhist ▸ List.mem_of_getElem? hh0)
    obtain ⟨heven, htaps⟩ := taps_of_legal hp
    rw [hpulls, hsch, pulledHistory_refTap heven htaps hzero] at hcopy
    rw [hsch] at hw
    exact hw.trans (congrArg some (hcopy (Resampler.phaseAt_of_identity hpend hpos hrates j)))

end Sys2Proof.Machine
end

section
/-! PROOFS. The interrupt as a level, and the word a faulting command names: the first of its reads that
holds no value, RSRUN's reads being the frames its steps pull (60_exceptions.md R325, R330;
40_common.md R157; 44_resampler.md R290, R296, R297). -/

namespace Sys2Proof.Machine

/-! ## The interrupt -/

theorem State.ctrlWord_irqEn (s : State) : s.ctrlWord.getLsbD 2 = s.irqEn := by
  rw [State.ctrlWord_eq]
  cases s.irqEn <;> rfl

theorem State.statusWord_done (s : State) : s.statusWord.getLsbD 1 = s.done := by
  simp only [State.statusWord, BitVec.getLsbD_append]
  simp

/-- Settles O54: the two bits the host reads are the two fields whose conjunction irq is. -/
theorem interruptIsALevel : Obligations.InterruptIsALevel := by
  unfold Obligations.InterruptIsALevel
  intro s
  rw [State.ctrlWord_irqEn, State.statusWord_done, State.irq]

/-! ## The word a read reports -/

/-- The word a read of DMEM reports as holding no value, if it stopped at one. -/
def missingOf {α : Type} : Except Nat α → Option Nat
  | .error w => some w
  | .ok _ => none

@[simp] theorem missingOf_error {α : Type} (w : Nat) :
    missingOf (.error w : Except Nat α) = some w := rfl

@[simp] theorem missingOf_ok {α : Type} (a : α) : missingOf (.ok a : Except Nat α) = none := rfl

theorem missingOf_eq_some_iff {α : Type} {r : Except Nat α} {w : Nat} :
    missingOf r = some w ↔ r = .error w := by
  cases r <;> simp

theorem missingOf_readWords (m : Memory) (base n : Nat) :
    missingOf (m.readWords base n) = m.firstMissing (List.range' base n) :=
  Option.ext fun w => missingOf_eq_some_iff.trans (m.readWords_error_iff base n w)

theorem missingOf_readPairs (m : Memory) (a b n : Nat) :
    missingOf (m.readPairs a b n) =
      m.firstMissing ((List.range n).flatMap (fun i => [a + i, b + i])) :=
  Option.ext fun w => missingOf_eq_some_iff.trans (m.readPairs_error_iff a b n w)

theorem missingOf_pull (m : Memory) (rs : Resampler) :
    missingOf (pull m rs) = m.firstMissing (List.range' rs.srcPtr rs.ch) := by
  rw [← missingOf_readWords, pull]
  cases m.readWords rs.srcPtr rs.ch <;> rfl

/-- Consecutive frames are read one after the other. -/
theorem Memory.firstMissing_frames_add (m : Memory) (base a b ch : Nat) :
    m.firstMissing (List.range' base ((a + b) * ch)) =
      (m.firstMissing (List.range' base (a * ch))).or
        (m.firstMissing (List.range' (base + a * ch) (b * ch))) := by
  rw [Nat.add_mul, ← List.range'_append_1, Memory.firstMissing_append]

/-! ## The pulls of a step -/

/-- The pull loop reads the frames it pulls: one a turn, as far as the fed frames `f` reach. -/
theorem missingOf_pullLoop {m : Memory} {k f : Nat} {rs : Resampler} (hch : 1 ≤ rs.ch)
    (hf : rs.srcRem = f * rs.ch) :
    missingOf (pullLoop m k rs) = m.firstMissing (List.range' rs.srcPtr (min f k * rs.ch)) := by
  induction k generalizing rs f with
  | zero => simp [pullLoop]
  | succ k ih =>
    cases f with
    | zero =>
      have h0 : rs.srcRem = 0 := by simpa using hf
      cases hlast : rs.last <;> simp [pullLoop, h0, hlast]
    | succ f =>
      have hne : rs.srcRem ≠ 0 := hf ▸ Nat.mul_ne_zero f.succ_ne_zero (by omega)
      have hframe := missingOf_pull m rs
      rw [pullLoop, if_neg hne, Nat.add_min_add_right, Nat.add_comm (min f k) 1,
        m.firstMissing_frames_add, Nat.one_mul, ← hframe]
      cases hp : pull m rs with
      | error w => rfl
      | ok rs' =>
        obtain ⟨vs, -, rfl⟩ := pull_ok hp
        exact ih hch (by rw [hf, Nat.succ_mul, Nat.add_sub_cancel])

theorem advancePhase_eq (rs : Resampler) :
    advancePhase rs = { rs with posNum := rs.totalPhase 0, pend := true } := by
  unfold advancePhase Resampler.totalPhase
  split
  case isTrue h => cases rs; simp_all
  case isFalse => simp

section
variable {m : Memory} {p : Config.Params} {taps d : Nat} {rs rs' : Resampler}

theorem Resampler.Bounded.srcRem_eq (hb : rs.Bounded p) :
    rs.srcRem = rs.srcRem / rs.ch * rs.ch :=
  (Nat.div_mul_cancel (Nat.dvd_of_mod_eq_zero hb.whole_frames)).symm

/-- A step reads the frames that a run for one output pulls. -/
theorem missingOf_rsStep (hb : rs.Bounded p) (he : rs.exh = false) :
    missingOf (rsStep m taps d rs) =
      m.firstMissing (List.range' rs.srcPtr (rs.framesPulled 1 * rs.ch)) := by
  have hloop : missingOf (rsStep m taps d rs) = missingOf (pullLoop m
      ((advancePhase rs).posNum / (advancePhase rs).dstRate) (advancePhase rs)) := by
    unfold rsStep
    rw [if_neg (by simp [he])]
    dsimp only
    split
    all_goals
      rename_i hl
      rw [hl]
      rfl
  rw [hloop, advancePhase_eq, Resampler.framesPulled_of_pos he Nat.one_ne_zero]
  exact missingOf_pullLoop hb.ch_pos hb.srcRem_eq

/-- A step that produces a frame has pulled all its frames, and its phase lost one unit a pull. -/
theorem rsStep_out (hb : rs.Bounded p) {y : List Word}
    (h : rsStep m taps d rs = .ok (.out y, rs')) :
    rs.pullsAt 0 ≤ rs.srcRem / rs.ch ∧ rs'.srcPtr = rs.srcPtr + rs.pullsAt 0 * rs.ch ∧
      rs'.srcRem = (rs.srcRem / rs.ch - rs.pullsAt 0) * rs.ch ∧
      rs'.posNum + rs.pullsAt 0 * rs.dstRate = rs.totalPhase 0 ∧ rs'.pend = false ∧
      rs'.exh = false := by
  obtain ⟨-, hres, -⟩ | ⟨he, e, rs2, hl, ⟨rfl, rfl, -⟩ | ⟨-, -, hno⟩⟩ := rsStep_cases h
  · cases hres
  · have hadv := hb.advancePhase
    obtain ⟨hrem, hptr, hpos, -, hready, -, -, hexh⟩ := pullLoop_ok hadv.ch_pos hadv.srcRem_eq hl
    rw [advancePhase_eq] at hrem hptr hpos hready hexh
    have hle : rs.pullsAt 0 ≤ rs.srcRem / rs.ch := hready.1 rfl
    have hmin : min (rs.totalPhase 0 / rs.dstRate) (rs.srcRem / rs.ch) = rs.pullsAt 0 :=
      Nat.min_eq_left hle
    dsimp only at hrem hptr hpos
    rw [hmin] at hrem hptr hpos
    refine ⟨hle, hptr, hrem, ?phase, rfl, hexh.trans he⟩
    case phase =>
      have := Nat.div_mul_le_self (rs.totalPhase 0) rs.dstRate
      exact hpos ▸ Nat.sub_add_cancel this
  · exact absurd rfl (hno y)

/-- A step that stops for want of source wanted more frames than were fed. -/
theorem rsStep_stopped (hb : rs.Bounded p) (he : rs.exh = false) {res : StepResult}
    (h : rsStep m taps d rs = .ok (res, rs')) (hres : ∀ y, res ≠ .out y) :
    rs.srcRem / rs.ch < rs.pullsAt 0 := by
  obtain ⟨hexh, -, -⟩ | ⟨-, e, rs2, hl, ⟨-, -, hout⟩ | ⟨hne, -, -⟩⟩ := rsStep_cases h
  · cases he.symm.trans hexh
  · exact absurd hout (hres _)
  · have hadv := hb.advancePhase
    obtain ⟨-, -, -, -, hready, -, -, -⟩ := pullLoop_ok hadv.ch_pos hadv.srcRem_eq hl
    rw [advancePhase_eq] at hready
    exact not_le.1 (mt hready.2 hne)

/-! ## The pulls of a run -/

theorem Resampler.framesPulled_one_le (he : rs.exh = false) (k : Nat) :
    rs.framesPulled 1 ≤ rs.framesPulled (k + 1) := by
  rw [Resampler.framesPulled_of_pos he Nat.one_ne_zero,
    Resampler.framesPulled_of_pos he k.succ_ne_zero]
  exact min_le_min_left _ (rs.pullsAt_mono (Nat.zero_le k))

/-- Past a frame produced, a run pulls what a run from there pulls. -/
theorem Resampler.framesPulled_of_out (hb : rs.Bounded p) (he : rs.exh = false) {y : List Word}
    (h : rsStep m taps d rs = .ok (.out y, rs')) (k : Nat) :
    rs.framesPulled (k + 1) = rs.framesPulled 1 + rs'.framesPulled k ∧
      rs'.srcPtr = rs.srcPtr + rs.framesPulled 1 * rs.ch := by
  have hsame := rsStep_sameStream h
  obtain ⟨hle, hptr, hrem, hpos, hpend, hexh⟩ := rsStep_out hb h
  have hone : rs.framesPulled 1 = rs.pullsAt 0 :=
    (Resampler.framesPulled_of_pos he Nat.one_ne_zero).trans (Nat.min_eq_right hle)
  refine ⟨?pulls, hone.symm ▸ hptr⟩
  have hleft : rs'.srcRem / rs'.ch = rs.srcRem / rs.ch - rs.pullsAt 0 := by
    rw [hrem, hsame.ch, Nat.mul_div_cancel _ hb.ch_pos]
  have hphase (j : Nat) :
      rs.totalPhase (j + 1) = rs'.totalPhase j + rs.pullsAt 0 * rs.dstRate := by
    simp only [Resampler.totalPhase, hpend, hsame.srcRate, Nat.succ_mul] at hpos ⊢
    simp only [Bool.false_eq_true, if_false]
    omega
  have hlater (j : Nat) : rs.pullsAt (j + 1) = rs'.pullsAt j + rs.pullsAt 0 := by
    rw [Resampler.pullsAt, hphase, Nat.add_mul_div_right _ _ hb.dst_pos, ← hsame.dstRate]
    rfl
  cases k with
  | zero =>
    rw [Resampler.framesPulled_zero]
    rfl
  | succ j =>
    rw [hone, Resampler.framesPulled_of_pos he (j + 1).succ_ne_zero,
      Resampler.framesPulled_of_pos hexh j.succ_ne_zero, hleft]
    show min _ (rs.pullsAt (j + 1)) = _ + min _ (rs'.pullsAt j)
    rw [hlater]
    omega

/-- A run that stops for want of source at its first output pulls no more frames for more outputs. -/
theorem Resampler.framesPulled_of_stopped (he : rs.exh = false)
    (h : rs.srcRem / rs.ch < rs.pullsAt 0) (k : Nat) :
    rs.framesPulled (k + 1) = rs.framesPulled 1 := by
  have hmono : rs.pullsAt 0 ≤ rs.pullsAt k := rs.pullsAt_mono (Nat.zero_le k)
  rw [Resampler.framesPulled_of_pos he Nat.one_ne_zero,
    Resampler.framesPulled_of_pos he k.succ_ne_zero, Nat.min_eq_left h.le]
  exact Nat.min_eq_left (h.le.trans hmono)

/-- The loop of RSRUN reads the frames it pulls, in the order of the fed region. -/
theorem missingOf_rsRunLoop (hb : rs.Bounded p) (k : Nat) :
    missingOf (rsRunLoop m taps k d rs) =
      m.firstMissing (List.range' rs.srcPtr (rs.framesPulled k * rs.ch)) := by
  induction k generalizing d rs with
  | zero => simp [rsRunLoop, Resampler.framesPulled_zero]
  | succ k ih =>
    cases he : rs.exh with
    | true => simp [rsRunLoop_of_exh he, Resampler.framesPulled, he]
    | false =>
      have hstep := missingOf_rsStep (m := m) (taps := taps) (d := d) hb he
      rw [rsRunLoop]
      split
      case h_1 w hs =>
        obtain ⟨rest, hrest⟩ := Nat.exists_eq_add_of_le (Resampler.framesPulled_one_le he k)
        rw [hrest, m.firstMissing_frames_add, ← hstep, hs]
        rfl
      case h_4 y rs' hs =>
        obtain ⟨hpulls, hptr⟩ := Resampler.framesPulled_of_out hb he hs k
        have hrest := ih (d := d + y.length) (rsStep_bounded hb hs)
        rw [(rsStep_sameStream hs).ch, hptr] at hrest
        rw [hpulls, m.firstMissing_frames_add, ← hstep, hs, ← hrest]
        cases rsRunLoop m taps k (d + y.length) rs' <;> rfl
      all_goals
        rename_i rs' hs
        have hwants := rsStep_stopped hb he hs (by simp)
        rw [Resampler.framesPulled_of_stopped he hwants, ← hstep, hs]
        rfl

end

/-! ## The fault of a command -/

/-- Settles O41: past its checks a command faults exactly at the word its reads report. -/
theorem firstUninitialisedWordIsNamed : Obligations.FirstUninitialisedWordIsNamed := by
  unfold Obligations.FirstUninitialisedWordIsNamed
  intro i s w hc hsound
  cases i with
  | nop => simp [exec, execNop, readOrder]
  | fdes | rscfg | rsfeed =>
    simp only [checkOf] at hc
    simp [exec, execFdes, execRscfg, execRsfeed, hc, readOrder]
  | power src n | ngen dst src n snr =>
    simp only [checkOf] at hc
    simp only [exec, execPower, execNgen, hc, readOrder, ← missingOf_readWords]
    cases s.mem.readWords src.toNat n.toNat <;> simp
  | conv dst sig n ker m =>
    simp only [checkOf] at hc
    simp only [exec, execConv, hc, readOrder, Memory.firstMissing_append, ← missingOf_readWords]
    cases s.mem.readWords sig.toNat n.toNat with
    | error => simp
    | ok => cases s.mem.readWords ker.toNat m.toNat <;> simp
  | vadd dst a n b =>
    simp only [checkOf] at hc
    simp only [exec, execVadd, hc, readOrder, ← missingOf_readPairs]
    cases s.mem.readPairs a.toNat b.toNat n.toNat <;> simp
  | rsrun dst max =>
    simp only [checkOf] at hc
    have hb := (hsound dst max rfl).configured (cfg_of_checkRsrun hc)
    simp only [exec, execRsrun, hc, readOrder,
      ← missingOf_rsRunLoop (m := s.mem) (taps := s.params.taps) (d := s.draws) hb max.toNat]
    cases rsRunLoop s.mem s.params.taps max.toNat s.draws s.rs <;> simp

end Sys2Proof.Machine
end

section
/-! PROOFS. The soft reset: the registers at their reset values, and the write set of the command it
aborts (70_reset_and_hazards.md R362-R364). -/

namespace Sys2Proof.Machine

/-! ## The write set of the latched command -/

section
variable {s : State} {i : Instr}

theorem State.pendingWrites_of_illegal {e : Illegal} (hd : decode s.command = .error e) :
    s.pendingWrites = (0, 0) := by
  rw [State.pendingWrites, hd]

theorem State.pendingWrites_of_check_some {e : ErrCode} (hd : decode s.command = .ok i)
    (hc : checkOf i s = some e) : s.pendingWrites = (0, 0) := by
  simp only [State.pendingWrites, hd, hc]

theorem State.pendingWrites_of_check_none (hd : decode s.command = .ok i)
    (hc : checkOf i s = none) : s.pendingWrites = writeRange i s := by
  simp only [State.pendingWrites, hd, hc]

end

/-! ## The abort -/

theorem State.softReset_mem_of_idle {s : State} (hb : s.busy = false) : s.softReset.mem = s.mem := by
  rw [State.softReset_mem, if_neg (by simp [hb])]

theorem State.softReset_mem_of_busy {s : State} (hb : s.busy = true) {base n : Nat}
    (hw : s.pendingWrites = (base, n)) : s.softReset.mem = s.mem.clearWords base n := by
  rw [State.softReset_mem, if_pos hb, hw]

/-- A state whose memory is another's with a range emptied: its words hold no value, and every byte
outside it is kept. -/
theorem State.sameOutside_of_clearWords {s t : State} {base n : Nat}
    (h : t.mem = s.mem.clearWords base n) :
    s.sameOutside t base n ∧ ∀ j < n, t.mem.readWord (base + j) = none := by
  refine ⟨fun k hk => ?outside, fun j hj => ?inside⟩
  case outside => rw [h, s.mem.readByte_clearWords_outside hk]
  case inside => rw [h, s.mem.readWord_clearWords_inside hj]

/-- A CTRL write with SOFT_RESET, whatever its other bits (10_state.md R45). -/
theorem hostAccess_softReset (s : State) {v : Word} (hv : v.getLsbD 1 = true) :
    hostAccess (.write 0x008 4 v) s = .next (s.softReset.respond .okay none) := by
  have hpage : s.pageWrite (0x008 : Offset).toNat v = s.writeCtrl v := rfl
  rw [hostAccess_write_page v (by decide) (by decide), hpage, State.writeCtrl, if_pos hv]

/-- Settles O51: the access is the soft reset, whose memory is the old one with the pending writes
emptied; the table of R363 names those of a command that passes its checks. -/
theorem softResetDiscardsTheCommand : Obligations.SoftResetDiscardsTheCommand := by
  unfold Obligations.SoftResetDiscardsTheCommand
  intro s v hv
  refine ⟨_, hostAccess_softReset s hv, ?registers, fun hb => s.softReset_mem_of_idle hb,
    fun hb => ⟨fun e hd => ?illegal, fun i hd => ⟨fun e hc => ?fails, fun hc base n hW => ?passes⟩⟩⟩
  case registers => exact congrArg (·.respond .okay none) s.softReset_eq
  case illegal => exact State.softReset_mem_of_busy hb (State.pendingWrites_of_illegal hd)
  case fails => exact State.softReset_mem_of_busy hb (State.pendingWrites_of_check_some hd hc)
  case passes =>
    have hmem {b k : Nat} (hr : writeRange i s = (b, k)) :
        s.softReset.mem = s.mem.clearWords b k :=
      State.softReset_mem_of_busy hb ((State.pendingWrites_of_check_none hd hc).trans hr)
    refine State.sameOutside_of_clearWords (t := s.softReset.respond .okay none) ?_
    obtain ⟨rfl, hempty⟩ | hnamed := hW
    · have hr : writeRange i s = (0, 0) := by
        obtain rfl | ⟨a, b, rfl⟩ | ⟨a, b, c, rfl⟩ | ⟨a, b, c, rfl⟩ := hempty <;> rfl
      have hkept : s.softReset.mem = s.mem := hmem hr
      exact hkept
    · have hr : writeRange i s = (base, n) := by
        obtain ⟨dst, len, a, b, c, rfl, rfl, rfl⟩ | ⟨dst, a, l, b, m, rfl, rfl, rfl⟩ |
          ⟨dst, a, l, b, rfl, rfl, rfl⟩ | ⟨dst, a, l, b, rfl, rfl, rfl⟩ |
          ⟨dst, max, rfl, rfl, rfl⟩ := hnamed <;> rfl
      exact hmem hr

end Sys2Proof.Machine
end

section
/-! PROOFS. A host that polls STATUS.BUSY: its reads leave the block but for the port's response, the
command does not see that response, and once the Engine has stepped the next read ends the wait
(70_reset_and_hazards.md R382; 30_encoding.md R133; 20_memory.md R95, R104). -/

namespace Sys2Proof.Machine

/-! ## Changes no command sees -/

/-- A change of the state that no command sees: it keeps every field a command reads, and it commutes
with every operation a command is made of. -/
structure Unseen (f : State → State) : Prop where
  rs : ∀ s, (f s).rs = s.rs
  mem : ∀ s, (f s).mem = s.mem
  params : ∀ s, (f s).params = s.params
  draws : ∀ s, (f s).draws = s.draws
  store : ∀ s base vs, (f s).store base vs = f (s.store base vs)
  setRs : ∀ s rs, (f s).setRs rs = f (s.setRs rs)
  draw : ∀ s n, (f s).draw n = f (s.draw n)
  complete : ∀ s r0 r1, (f s).complete r0 r1 = f (s.complete r0 r1)
  completeError : ∀ s e, (f s).completeError e = f (s.completeError e)

section
variable {f : State → State}

theorem checkOf_of_unseen (hf : Unseen f) (i : Instr) (s : State) :
    checkOf i (f s) = checkOf i s := by
  cases i <;> simp only [checkOf, checkFdes, checkConv, checkPower, checkNgen, checkVadd,
    checkRscfg, checkRsfeed, checkRsrun, hf.params, hf.rs]

/-- Execution commutes with a change it does not see. -/
theorem exec_of_unseen (hf : Unseen f) (i : Instr) (s : State) :
    exec i (f s) = mapNext f (exec i s) := by
  have hchecks := checkOf_of_unseen hf i s
  cases hc : checkOf i s with
  | some e =>
    rw [exec_of_check_some hc, exec_of_check_some (hchecks.trans hc), hf.completeError]
    rfl
  | none =>
    rw [hc] at hchecks
    cases i
    all_goals
      simp only [checkOf] at hc hchecks
      simp only [exec, execNop, execFdes, execConv, execPower, execNgen, execVadd, execRscfg,
        execRsfeed, execRsrun, hc, hchecks, hf.rs, hf.mem, hf.params, hf.draws, hf.store, hf.setRs,
        hf.draw, hf.complete]
    case conv dst sig n ker m =>
      cases s.mem.readWords sig.toNat n.toNat with
      | error => rfl
      | ok => cases s.mem.readWords ker.toNat m.toNat <;> rfl
    case power src n => cases s.mem.readWords src.toNat n.toNat <;> rfl
    case ngen dst src n snr => cases s.mem.readWords src.toNat n.toNat <;> rfl
    case vadd dst a n b => cases s.mem.readPairs a.toNat b.toNat n.toNat <;> rfl
    case rsrun dst max =>
      cases rsRunLoop s.mem s.params.taps max.toNat s.draws s.rs <;> rfl
    all_goals rfl
end

/-! ## The port's response -/

/-- `s` with another response of the last host access. -/
def State.withPort (s : State) (p : Option PortResponse) : State := { s with port := p }

/-- The port is the host's: no command reads or writes it (20_memory.md R95). -/
theorem unseen_withPort (p : Option PortResponse) : Unseen (·.withPort p) :=
  ⟨fun _ => rfl, fun _ => rfl, fun _ => rfl, fun _ => rfl, fun _ _ _ => rfl, fun _ _ => rfl,
    fun _ _ => rfl, fun _ _ _ => rfl, fun _ _ => rfl⟩

/-- What the Engine's turn can do: hold the state while BUSY = 0, complete an ILLEGAL word with its
error, or run the latched command. -/
theorem engineTurn_next_cases {s t : State} (h : engineTurn s = .next t) :
    (s.busy = false ∧ t = s) ∨
    (s.busy = true ∧ (∃ e, decode s.command = .error e) ∧ t = s.failed 1) ∨
    (s.busy = true ∧ ∃ i, decode s.command = .ok i ∧ exec i s = .next t) := by
  cases hb : s.busy with
  | false =>
    injection (engineTurn_of_idle hb).symm.trans h with hst
    exact .inl ⟨rfl, hst.symm⟩
  | true =>
    cases hd : decode s.command with
    | error e =>
      injection (engineTurn_of_decode_error hb hd).symm.trans h with hst
      exact .inr (.inl ⟨rfl, ⟨e, rfl⟩, hst.symm⟩)
    | ok i => exact .inr (.inr ⟨rfl, i, rfl, (engineTurn_of_decode_ok hb hd).symm.trans h⟩)

/-- The Engine's turn does not depend on the port's response. -/
theorem engineTurn_withPort {s t : State} (p : Option PortResponse) (h : engineTurn s = .next t) :
    engineTurn (s.withPort p) = .next (t.withPort p) := by
  obtain ⟨hb, rfl⟩ | ⟨hb, ⟨e, hd⟩, rfl⟩ | ⟨hb, i, hd, hx⟩ := engineTurn_next_cases h
  · exact engineTurn_of_idle (s := t.withPort p) hb
  · exact engineTurn_of_decode_error (s := s.withPort p) hb hd
  · have hturn : engineTurn (s.withPort p) = exec i (s.withPort p) := engineTurn_of_decode_ok hb hd
    rw [hturn, exec_of_unseen (unseen_withPort p), hx]
    rfl

/-- After the Engine's turn BUSY is 0: the command has completed, or none was running. -/
theorem busy_of_engineTurn {s t : State} (h : engineTurn s = .next t) : t.busy = false := by
  obtain ⟨hb, rfl⟩ | ⟨-, -, rfl⟩ | ⟨-, i, -, hx⟩ := engineTurn_next_cases h
  · exact hb
  · rfl
  · exact (everyCompletionSignals i s t hx).1

/-! ## One poll -/

/-- The host stands at a `wait` (30_encoding.md R133): a branch to itself on STATUS.BUSY. -/
def System.AtWait (y : System) : Prop :=
  y.host.prog[y.host.pc]? = some (.branch 0x00C 1 y.host.pc)

theorem System.AtWait.not_finished {y : System} (h : y.AtWait) : y.finished = false := by
  obtain ⟨hlt, -⟩ := List.getElem?_eq_some_iff.1 h
  simpa [System.finished] using hlt

/-- Bit 0 of STATUS is BUSY (10_state.md R48). -/
theorem State.statusWord_and_one (s : State) : s.statusWord &&& 1 ≠ 0 ↔ s.busy = true := by
  have hbit : (s.statusWord &&& 1).toNat = s.busy.toNat := by
    rw [BitVec.toNat_and, statusLayout s]
    rw [show (1 : Word).toNat = 1 from rfl, Nat.and_one_is_mod]
    cases s.busy <;> simp <;> omega
  rw [← BitVec.toNat_ne_iff_ne, hbit]
  cases s.busy <;> simp

theorem hostAccess_read_status (s : State) :
    hostAccess (.read 0x00C 4) s = .next (s.respond .okay (some s.statusWord)) := rfl

/-- The host after a poll of the block `s`: past the `wait` exactly if BUSY was 0. -/
def HostAgent.polled (h : HostAgent) (s : State) : HostAgent :=
  { h with pc := if s.busy then h.pc else h.pc + 1, trace := (0x00C, s.statusWord) :: h.trace }

/-- The Host's turn at a `wait` reads STATUS, which leaves the block but for the port's response. -/
theorem System.AtWait.hostTurn {y : System} (h : y.AtWait) :
    y.hostTurn = .next
      ⟨y.host.polled y.block, y.block.respond .okay (some y.block.statusWord)⟩ := by
  have hpolled : y.host.after (.branch 0x00C 1 y.host.pc) y.block.statusWord =
      y.host.polled y.block := by
    simp only [HostAgent.after, HostAgent.polled, State.statusWord_and_one]
  rw [System.hostTurn, h, ← hpolled]
  rfl

/-- Whichever agent is named, a `wait` ends where BUSY is 0. -/
theorem System.AtWait.turn_of_idle {y : System} (h : y.AtWait) (hb : y.block.busy = false)
    (a : Agent) : ∃ z, y.turn a = .next z ∧ z.host.pc = y.host.pc + 1 ∧
      z.host.prog = y.host.prog ∧ z.block = y.block.withPort z.block.port := by
  have hturn : y.turn a = y.hostTurn := by
    cases a <;> simp [System.turn, hb]
  exact ⟨_, hturn.trans h.hostTurn, by simp [HostAgent.polled, hb], rfl, rfl⟩

/-! ## Polls while BUSY = 1 -/

/-- `z` is `y` after some polls that found BUSY = 1: the host stands where it stood, and of the block
only the port's response may differ. -/
structure System.PolledTo (y z : System) : Prop where
  prog : z.host.prog = y.host.prog
  pc : z.host.pc = y.host.pc
  block : z.block = y.block.withPort z.block.port

section
variable {y z : System}

theorem System.PolledTo.refl (y : System) : y.PolledTo y := ⟨rfl, rfl, rfl⟩

theorem System.PolledTo.atWait (h : y.PolledTo z) (hy : y.AtWait) : z.AtWait := by
  rw [System.AtWait, h.prog, h.pc]
  exact hy

theorem System.PolledTo.busy (h : y.PolledTo z) : z.block.busy = y.block.busy := by
  rw [h.block]
  rfl

/-- One more poll while BUSY = 1. -/
theorem System.PolledTo.hostTurn (h : y.PolledTo z) (hy : y.AtWait) (hb : y.block.busy = true) :
    ∃ z', z.turn .host = .next z' ∧ y.PolledTo z' := by
  have hpc : (z.host.polled z.block).pc = y.host.pc := by
    simp [HostAgent.polled, h.busy, hb, h.pc]
  have hblock : z.block.respond .okay (some z.block.statusWord) =
      y.block.withPort (some ⟨.okay, some z.block.statusWord⟩) :=
    (congrArg (·.withPort (some ⟨.okay, some z.block.statusWord⟩)) h.block).trans rfl
  exact ⟨_, (h.atWait hy).hostTurn, h.prog, hpc, hblock⟩

/-- As long as the schedule names only the Host, the run of a waiting host is polls. -/
theorem System.AtWait.after_host {sched : Nat → Agent} (hy : y.AtWait) (hb : y.block.busy = true)
    {k : Nat} (hk : ∀ i < k, sched i ≠ .engine) :
    ∃ z, y.after sched k = .next z ∧ y.PolledTo z := by
  induction k with
  | zero => exact ⟨y, rfl, .refl y⟩
  | succ k ih =>
    obtain ⟨z, hz, hp⟩ := ih fun i hi => hk i (by omega)
    have hhost : sched k = .host := by
      cases hs : sched k with
      | host => rfl
      | engine => exact absurd hs (hk k (by omega))
    rw [System.after_succ hz (hp.atWait hy).not_finished, hhost]
    exact hp.hostTurn hy hb

/-- Fairness names the Engine while the host waits for BUSY: else the run would be polls for ever, with
BUSY = 1 throughout. -/
theorem System.EngineFair.exists_engine {sched : Nat → Agent} (hfair : y.EngineFair sched)
    (hy : y.AtWait) (hb : y.block.busy = true) : ∃ j, sched j = .engine := by
  by_contra hnever
  have hnone (i : Nat) : sched i ≠ .engine := fun hi => hnever ⟨i, hi⟩
  obtain ⟨j, -, hj⟩ := hfair 0 fun j _ => by
    obtain ⟨z, hz, hp⟩ := hy.after_host (k := j) hb fun i _ => hnone i
    exact ⟨z, hz, (hp.atWait hy).not_finished, hp.busy.trans hb⟩
  exact hnone j hj

/-- The Engine's turn after some polls is its turn before them. -/
theorem System.PolledTo.engineTurn {t : State} (h : y.PolledTo z) (hb : y.block.busy = true)
    (ht : Machine.engineTurn y.block = .next t) :
    z.turn .engine = .next { z with block := t.withPort z.block.port } := by
  have hz : Machine.engineTurn z.block = .next (t.withPort z.block.port) := by
    rw [h.block]
    exact engineTurn_withPort _ ht
  simp only [System.turn, h.busy.trans hb, if_true, System.engineTurn, hz]

end

/-- Settles O58: while BUSY = 0 the first poll ends the wait. Else the run is polls up to the first turn
the schedule gives the Engine, which is there by fairness; it completes the command, and the poll after
it ends the wait. -/
theorem pollingBusyTerminates : Obligations.PollingBusyTerminates := by
  unfold Obligations.PollingBusyTerminates
  intro y sched t hwait hfair ht
  have hy : y.AtWait := hwait
  have hidle := busy_of_engineTurn ht
  cases hb : y.block.busy with
  | false =>
    injection (engineTurn_of_idle hb).symm.trans ht with hyt
    obtain ⟨z, hz, hpc, hprog, hblock⟩ := hy.turn_of_idle hb (sched 0)
    have hdone : z.block.busy = false := by
      rw [hblock]
      exact hb
    exact ⟨1, z, (System.after_succ rfl hy.not_finished).trans hz, hpc, hprog, hdone, hyt ▸ hblock⟩
  | true =>
    have hexists := hfair.exists_engine hy hb
    have hfirst := Nat.find_spec hexists
    obtain ⟨z, hz, hp⟩ := hy.after_host hb fun i hi => Nat.find_min hexists hi
    have hstep : y.after sched (Nat.find hexists + 1) =
        .next { z with block := t.withPort z.block.port } := by
      rw [System.after_succ hz (hp.atWait hy).not_finished, hfirst, hp.engineTurn hb ht]
    have hstill : ({ z with block := t.withPort z.block.port } : System).AtWait := hp.atWait hy
    obtain ⟨z', hz', hpc, hprog, hblock⟩ :=
      hstill.turn_of_idle hidle (sched (Nat.find hexists + 1))
    have hdone : z'.block.busy = false := by
      rw [hblock]
      exact hidle
    exact ⟨_, z', (System.after_succ hstep hstill.not_finished).trans hz',
      hpc.trans (congrArg (· + 1) hp.pc), hprog.trans hp.prog, hdone, hblock⟩

end Sys2Proof.Machine
end
